-- ==== Sys2Proof/Word.lean ====
section
/-! DEFINITION. The words the engine works with: bytes, the 32-bit command word, 64-bit host
registers and error values, and the 16-byte block read as one 128-bit number. -/

namespace Sys2Proof

/-- A byte, bit 7 most significant (00_scope.md R11). -/
abbrev Byte := BitVec 8

/-- A 32-bit command word or host register (30_encoding.md R177). -/
abbrev Word := BitVec 32

/-- A 64-bit host register or store error value (10_state.md R19, R22; 60_exceptions.md R141). -/
abbrev DWord := BitVec 64

/-- A 16-byte block `B[0] .. B[15]` held as `int_be(B)`: byte 0 is the most significant one, so that
the hexadecimal numeral of a block reads as the spec prints it (00_scope.md R11; log 26). -/
abbrev Block := BitVec 128

/-- `ZERO`, the block of sixteen 0x00 bytes (00_scope.md R11). -/
abbrev zeroBlock : Block := 0#128

end Sys2Proof
end

