-- ==== Sys2Proof/Syntax.lean ====
section
/-! DEFINITION. The fourteen commands, one constructor for each row of spec/opcode_table.json
(30_encoding.md R178). No command word carries an operand (R182); the only field is bit 10, the
leave-open flag of the OPEN words (R181). -/

namespace Sys2Proof

/-- A command the host can write to CMD (30_encoding.md R178 to R181). -/
inductive Instr where
  /-- `OPEN.ECB`, words 0x00000001 and 0x00000401 (42_channel_commands.md R93). -/
  | openEcb (lo : Bool)
  /-- `OPEN.CBC`, words 0x00000101 and 0x00000501 (R94). -/
  | openCbc (lo : Bool)
  /-- `OPEN.CTR`, words 0x00000201 and 0x00000601 (R95). -/
  | openCtr (lo : Bool)
  /-- `OPEN.XTS`, words 0x00000301 and 0x00000701 (R96). -/
  | openXts (lo : Bool)
  /-- `SEEK.SET`, word 0x00000002 (R102). -/
  | seekSet
  /-- `SEEK.CUR`, word 0x00000102 (R103). -/
  | seekCur
  /-- `SEEK.END`, word 0x00000202 (R104). -/
  | seekEnd
  /-- `SETPOS`, word 0x00000003 (R106). -/
  | setpos
  /-- `GETPOS`, word 0x00000004 (R107). -/
  | getpos
  /-- `GETLEN`, word 0x00000005 (R108). -/
  | getlen
  /-- `READ`, word 0x00000006 (R109). -/
  | read
  /-- `WRITE`, word 0x00000007 (R111). -/
  | write
  /-- `FLUSH`, word 0x00000008 (R114). -/
  | flush
  /-- `DISPOSE`, word 0x00000009 (R118). -/
  | dispose
deriving DecidableEq, Repr

end Sys2Proof
end

