-- ==== Sys2Proof/WellFormed.lean ====
section
/-! DEFINITION. Which command words are legal (30_encoding.md R184), and which terms of Instr are
well formed. Every term of Instr is: its only field is one bit that both values of the encoding
admit, so the checks of this file are the clauses of R184 on words. -/

namespace Sys2Proof

/-- The field `OPC` of a command word (30_encoding.md R177). -/
def opcField (w : Word) : BitVec 8 := w.extractLsb' 0 8

/-- The field `SUB` of a command word (R177). -/
def subField (w : Word) : BitVec 2 := w.extractLsb' 8 2

/-- The field `LO` of a command word (R177). -/
def loField (w : Word) : Bool := w.getLsbD 10

/-- The reserved field, bits 31:11 (R177). -/
def reservedField (w : Word) : BitVec 21 := w.extractLsb' 11 21

/-- Clause 1 of R184: the reserved bits are 0. -/
def reservedOk (w : Word) : Bool := reservedField w == 0#21

/-- Clause 2 of R184: `OPC` is in 0x01 .. 0x09. -/
def opcOk (w : Word) : Bool := decide (1 ≤ (opcField w).toNat ∧ (opcField w).toNat ≤ 9)

/-- Clause 3 of R184: bit 10 is 0 unless `OPC` is OPEN. -/
def loOk (w : Word) : Bool := opcField w == 1#8 || !loField w

/-- Clause 4 of R184: `SUB` is 0 unless `OPC` is OPEN or SEEK. -/
def subOk (w : Word) : Bool := opcField w == 1#8 || opcField w == 2#8 || subField w == 0#2

/-- Clause 5 of R184: a SEEK's `SUB` is not 3. -/
def originOk (w : Word) : Bool := !(opcField w == 2#8 && subField w == 3#2)

/-- "A command word is legal exactly when" the five clauses hold (30_encoding.md R184). -/
def legalWord (w : Word) : Bool :=
  reservedOk w && opcOk w && loOk w && subOk w && originOk w

/-- Every term of Instr stands for a command: the leave-open bit is free (R181) and there is no other
field (R182). -/
def Instr.wellFormed : Instr → Bool
  | .openEcb _ | .openCbc _ | .openCtr _ | .openXts _ => true
  | .seekSet | .seekCur | .seekEnd | .setpos => true
  | .getpos | .getlen | .read | .write | .flush | .dispose => true

end Sys2Proof
end

