-- ==== Sys2Proof/Decode.lean ====
section
/-! DEFINITION. The total decoder of command words (30_encoding.md R186), by bytes in the window's
little-endian order (20_memory.md R44) and by word, and the encoder from the same fields (R177 to
R181). -/

namespace Sys2Proof

/-- Why a word is no command. Each is the engine's `IllegalCommand` (30_encoding.md R184, R185), except
`truncated`, which no write to CMD gives: fewer than four bytes are no command word. -/
inductive DecodeError where
  /-- A bit of 31:11 is set (R184). -/
  | reservedBits
  /-- `OPC` is 0x00 or 0x0A .. 0xFF (R178, R184). -/
  | reservedOpcode
  /-- Bit 10 is set and `OPC` is not OPEN (R184). -/
  | loSet
  /-- `SUB` is not 0 and `OPC` is neither OPEN nor SEEK (R184). -/
  | subSet
  /-- SEEK with origin 3 (R180). -/
  | seekOrigin
  /-- Fewer than four bytes (R177: there is one command length, 32 bits). -/
  | truncated
deriving DecidableEq, Repr

/-- The `OPEN` command of mode `SUB` (30_encoding.md R179). -/
def openOf (sub : BitVec 2) (lo : Bool) : Instr :=
  match sub.toNat with
  | 0 => .openEcb lo
  | 1 => .openCbc lo
  | 2 => .openCtr lo
  | _ => .openXts lo

/-- The `SEEK` command of origin `SUB`; origin 3 is reserved (30_encoding.md R180). -/
def seekOf (sub : BitVec 2) : Except DecodeError Instr :=
  match sub.toNat with
  | 0 => .ok .seekSet
  | 1 => .ok .seekCur
  | 2 => .ok .seekEnd
  | _ => .error .seekOrigin

/-- A command whose `LO` and `SUB` must be 0 (30_encoding.md R186, third case). -/
def bareOf (w : Word) (i : Instr) : Except DecodeError Instr :=
  if loField w then .error .loSet else if subField w ≠ 0#2 then .error .subSet else .ok i

/-- `decode(w)` of 30_encoding.md R186: every 32-bit word is a command or illegal. -/
def decodeWord (w : Word) : Except DecodeError Instr :=
  if reservedField w ≠ 0#21 then .error .reservedBits
  else match (opcField w).toNat with
    | 1 => .ok (openOf (subField w) (loField w))
    | 2 => if loField w then .error .loSet else seekOf (subField w)
    | 3 => bareOf w .setpos
    | 4 => bareOf w .getpos
    | 5 => bareOf w .getlen
    | 6 => bareOf w .read
    | 7 => bareOf w .write
    | 8 => bareOf w .flush
    | 9 => bareOf w .dispose
    | _ => .error .reservedOpcode

/-- The bytes of a word as the register window holds them: the lowest offset is the least significant
byte (20_memory.md R44). -/
def wordBytes (w : Word) : List Byte :=
  [w.extractLsb' 0 8, w.extractLsb' 8 8, w.extractLsb' 16 8, w.extractLsb' 24 8]

/-- The word that four bytes of the window make (20_memory.md R44). -/
def wordOfBytes (b0 b1 b2 b3 : Byte) : Word := b3 ++ b2 ++ b1 ++ b0

/-- Decoding a byte string: the first four bytes are the word, the rest is left over. -/
def decode : List Byte → Except DecodeError (Instr × List Byte)
  | b0 :: b1 :: b2 :: b3 :: rest =>
    match decodeWord (wordOfBytes b0 b1 b2 b3) with
    | .ok i => .ok (i, rest)
    | .error e => .error e
  | _ => .error .truncated

/-- `OPC` of a command (30_encoding.md R178). -/
def Instr.opc : Instr → BitVec 8
  | .openEcb _ | .openCbc _ | .openCtr _ | .openXts _ => 0x01#8
  | .seekSet | .seekCur | .seekEnd => 0x02#8
  | .setpos => 0x03#8
  | .getpos => 0x04#8
  | .getlen => 0x05#8
  | .read => 0x06#8
  | .write => 0x07#8
  | .flush => 0x08#8
  | .dispose => 0x09#8

/-- `SUB` of a command (30_encoding.md R179, R180; 0 elsewhere, R177). -/
def Instr.sub : Instr → BitVec 2
  | .openEcb _ => 0#2
  | .openCbc _ => 1#2
  | .openCtr _ => 2#2
  | .openXts _ => 3#2
  | .seekSet => 0#2
  | .seekCur => 1#2
  | .seekEnd => 2#2
  | .setpos | .getpos | .getlen | .read | .write | .flush | .dispose => 0#2

/-- `LO` of a command (30_encoding.md R181; 0 elsewhere, R177). -/
def Instr.lo : Instr → Bool
  | .openEcb l | .openCbc l | .openCtr l | .openXts l => l
  | .seekSet | .seekCur | .seekEnd | .setpos | .getpos | .getlen
  | .read | .write | .flush | .dispose => false

/-- The word of the three fields, bits 31:11 zero (30_encoding.md R177). -/
def wordOfFields (opc : BitVec 8) (sub : BitVec 2) (lo : Bool) : Word :=
  0#21 ++ BitVec.ofBool lo ++ sub ++ opc

/-- The command word of an instruction. -/
def encodeWord (i : Instr) : Word := wordOfFields i.opc i.sub i.lo

/-- The command word of an instruction as bytes of the window. -/
def encode (i : Instr) : List Byte := wordBytes (encodeWord i)

/-- The instruction the decoder reads from a word numbered as spec/opcode_table.json numbers bits;
bits at or above `nbits` are 0. -/
def decodeTableWord (nbits w : Nat) : Option Instr :=
  match decode (wordBytes (BitVec.ofNat 32 (w % 2 ^ nbits))) with
  | .ok (i, []) => some i
  | _ => none

end Sys2Proof
end

