-- ==== Sys2Proof/Config.lean ====
section
/-! DEFINITION. The values that 00_scope.md R9 gives the engine's parameters. The model takes every
parameter as an argument, a field of State that no step changes (logs 7, 9, 22); `State.reset` sets
them to the values here. The constants of R9 stand as numerals in their rules, as in the spec. -/

namespace Sys2Proof.Config

/-- A byte order of a 128-bit addition (00_scope.md R9, SID_ORDER). -/
inductive ByteOrder where
  | little
  | big
deriving DecidableEq, Repr

/-- The value of POS_BITS (00_scope.md R9). -/
def posBits : Nat := 63

/-- The value of SECSZ_BITS (R9). -/
def secszBits : Nat := 32

/-- The value of KEYLEN_BITS (R9). -/
def keylenBits : Nat := 32

/-- The value of SID_ORDER, the byte order of the sector-id addition, for this hardware (00_scope.md R9;
90_conflicts.md C1; log 7). -/
def sidOrder : ByteOrder := .little

/-- The value of CACHE_CAP, unbounded (R9). -/
def cacheCap : Option Nat := none

/-- The value of BUF_CAP, unbounded (R9). -/
def bufCap : Option Nat := none

end Sys2Proof.Config
end

