-- ==== Sys2Proof/Machine/Block.lean ====
section
/-! DEFINITION. Byte access to blocks, the conversions between blocks and byte strings, and the
engine's own block functions (40_block_primitives.md R65 to R69). -/

namespace Sys2Proof.Machine

/-- `B[i]` for `i` in 0 .. 15; byte 0 is the most significant one (log 26). -/
def byteAt (B : Block) (i : Nat) : Byte := B.extractLsb' (8 * (15 - i)) 8

/-- The first `n` bytes `f 0, f 1, ..` of a block under construction, the last one lowest. -/
def packBytes (f : Nat → Byte) : Nat → Block
  | 0 => zeroBlock
  | n + 1 => (packBytes f n <<< 8) ||| (f n).setWidth 128

/-- The block `B` with `B[i] = f i`. -/
def tabulate (f : Nat → Byte) : Block := packBytes f 16

/-- `B[i] <- b`. -/
def setByte (B : Block) (i : Nat) (b : Byte) : Block :=
  tabulate fun j => if j = i then b else byteAt B j

/-- The bytes of a block in stream order (20_memory.md R44). -/
def blockBytes (B : Block) : List Byte := (List.range 16).map (byteAt B)

/-- The number whose bytes are `bytes`, the first one most significant, in `w` bits. -/
def bigEndian (w : Nat) (bytes : List Byte) : BitVec w :=
  bytes.foldl (fun acc b => (acc <<< 8) ||| b.setWidth w) 0#w

/-- The block with its bytes in the opposite order: `int_be(reverseBlock B) = int_le(B)`. -/
def reverseBlock (B : Block) : Block := tabulate fun i => byteAt B (15 - i)

/-- `Xor128` (R65). -/
def xor128 (A B : Block) : Block := A ^^^ B

/-- `Add128BE(V, n)` (R66): `be16((int_be(V) + n) mod 2^128)`. -/
def add128be (V : Block) (n : Nat) : Block := V + BitVec.ofNat 128 n

/-- `Add128LE(V, n)` (R67): `le16((int_le(V) + n) mod 2^128)`. -/
def add128le (V : Block) (n : Nat) : Block :=
  reverseBlock (reverseBlock V + BitVec.ofNat 128 n)

/-- The sector-identifier addition in the order SID_ORDER (R67, 00_scope.md R9; log 7). -/
def addSectorId (order : Config.ByteOrder) (V : Block) (n : Nat) : Block :=
  match order with
  | .little => add128le V n
  | .big => add128be V n

/-- `GfDouble(T)` (R68): multiplication by the generator of GF(2^128), byte 0 low. -/
def gfDouble (T : Block) : Block :=
  let v := reverseBlock T
  reverseBlock ((v <<< 1) ^^^ (if v.msb then 0x87#128 else 0#128))

/-- `GfDoublePow(T, j)` (R69). -/
def gfDoublePow (T : Block) : Nat → Block
  | 0 => T
  | j + 1 => gfDouble (gfDoublePow T j)

end Sys2Proof.Machine
end

