-- ==== Sys2Proof/Machine/State.lean ====
section
/-! DEFINITION. The machine state as plain data, the reasons a step can stop, and the state after
reset (10_state.md). -/

namespace Sys2Proof.Machine

/-- FSM, the session state machine (10_state.md R23). -/
inductive Fsm where
  | uninitialized
  | ready
  | rejected
  | disposed
deriving DecidableEq, Repr

/-- MODE, the closed variant `Ecb | Cbc | Ctr | Xts` (10_state.md R24). -/
inductive Mode where
  | ecb
  | cbc
  | ctr
  | xts
deriving DecidableEq, Repr

/-- An AES key; its length selects the cipher variant and no third length can be written down
(10_state.md R25, 40_block_primitives.md R63). Byte 0 is the most significant one, as in a block. -/
inductive AesKey where
  /-- 16 bytes: AES-128. -/
  | aes128 (k : BitVec 128)
  /-- 32 bytes: AES-256. -/
  | aes256 (k : BitVec 256)
deriving DecidableEq, Repr

/-- The result codes of a command (60_exceptions.md R136). -/
inductive ErrCode where
  | ok
  | configurationError
  | endOfStreamError
  | ioError
  | stateError
  | argumentError
  | illegalCommand
deriving DecidableEq, Repr

/-- What the store does with one access: it succeeds, or fails with an error value the store chooses
(10_state.md R37 (b); 93_implementation_defined.md U9; log 2). -/
inductive Fate where
  | succeeds
  | fails (e : DWord)
deriving DecidableEq, Repr

/-- The backing store STORE (10_state.md R33): its length in bytes, and its bytes as a list of
(offset, byte) cells in canonical form (`Memory.wf`): offsets strictly rising and below the length,
no byte equal to what an unlisted offset below the length reads as. -/
structure Memory where
  len : Nat
  cells : List Host.Cell
deriving DecidableEq, Repr

/-- CACHE, a finite map from block index to block (10_state.md R31), as a list of entries with
strictly rising indices (`Cache.wf`). -/
abbrev Cache := List (Nat × Block)

/-- One action of the host or of the caller who owns the store; the inputs of the machine
(70_reset_and_hazards.md R173; log 1). -/
inductive HostAction where
  /-- The bytes `bytes` are written to the register window at offset `off` and above
  (30_encoding.md R176); four bytes at offset 0x00 are a command. -/
  | write (off : BitVec 8) (bytes : List Byte)
  /-- `n` bytes are read from the window at offset `off` and above. -/
  | read (off : BitVec 8) (n : Nat)
  /-- The reset input (70_reset_and_hazards.md R156). -/
  | reset
  /-- The caller opens the store (R159, R160). -/
  | openStore
  /-- The caller closes the store (R160). -/
  | closeStore
  /-- The caller presents an open store holding `bytes` (R159). -/
  | replaceStore (bytes : List Byte)
  /-- The store settles the outcomes of coming accesses (10_state.md R37 (b)). -/
  | settleFates (fates : List Fate)
  /-- The store settles the error value of a write it has no room for (R37 (b); log 12). -/
  | settleFullError (e : DWord)
deriving DecidableEq, Repr

/-- Everything the spec gives the machine, and the model's own fields (INVENTORY.md, State). -/
structure State where
  /-- KEYLEN (R15). -/
  keylen : Word
  /-- KEY[0 .. 63] (R16). -/
  key : Vector Byte 64
  /-- PARAM[0 .. 15] (R17). -/
  param : Block
  /-- SECSZ (R18). -/
  secsz : Word
  /-- ARG (R19). -/
  arg : DWord
  /-- RESULT (R22). -/
  result : DWord
  /-- STATUS.LASTERR (R21). -/
  lastErr : ErrCode
  /-- FSM (R23). -/
  fsm : Fsm
  /-- MODE (R24). -/
  mode : Mode
  /-- KD, the data key (R25). -/
  kd : AesKey
  /-- KT, the tweak key (R25). -/
  kt : AesKey
  /-- P0, the IV, initial counter or sector identifier (R26). -/
  p0 : Block
  /-- SS, the sector size (R27). -/
  ss : Nat
  /-- LO, the leave-open flag (R28). -/
  lo : Bool
  /-- POS (R29). -/
  pos : Nat
  /-- LEN (R30). -/
  len : Nat
  /-- CACHE (R31). -/
  cache : Cache
  /-- DIN (R32). -/
  din : List Byte
  /-- DOUT (R32). -/
  dout : List Byte
  /-- STORE (R33). -/
  store : Memory
  /-- STORE_OPEN (R33). -/
  storeOpen : Bool
  /-- The model's: outcomes of the coming store accesses, the next one first; when the list is used
  up, accesses succeed (log 2). -/
  fates : List Fate
  /-- The model's: the error value of a write the store has no room for (R37 (b); log 12). -/
  fullError : DWord
  /-- The model's: the host's actions not yet taken, the next one first (log 1). -/
  inbox : List HostAction
  /-- The model's: the bytes the last window read returned to the host (log 8). -/
  rdata : List Byte
  /-- CACHE_CAP, a parameter, none for unbounded (00_scope.md R9, R10; log 9). -/
  cacheCap : Option Nat
  /-- BUF_CAP, a parameter, none for unbounded (R9, R10; log 9). -/
  bufCap : Option Nat
  /-- POS_BITS, a parameter: positions lie below `2 ^ posBits` (R9; log 22). -/
  posBits : Nat
  /-- SECSZ_BITS, a parameter: the width SECSZ is read with (R9; log 22). -/
  secszBits : Nat
  /-- KEYLEN_BITS, a parameter: the width KEYLEN is read with (R9; log 22). -/
  keylenBits : Nat
  /-- SID_ORDER, a parameter: byte order of the sector-id addition (R9; log 7). -/
  sidOrder : Config.ByteOrder
deriving DecidableEq, Repr

/-- Why the machine stops. -/
inductive Fault where
  /-- Raised by the store primitives on an access outside the store or not aligned to 16, which the
  spec says the engine never makes (20_memory.md R40, R41). Safe: the model stops where the spec gives
  no behaviour, and no state that meets `Inv` (Safety.lean)
  reaches it. -/
  | storeOutOfRange (off : Nat)
deriving DecidableEq, Repr

/-- Why the machine gives an input no meaning. -/
inductive Refusal where
  /-- Raised by `exec` for an instruction without a meaning; no arm uses it. Safe. -/
  | notModelled (mnemonic : String)
  /-- Raised by `OPEN.*` when STORE_OPEN is 0 and the store's length decides the outcome: a broken duty
  of the host that the spec places outside the model (93_implementation_defined.md U10). Safe. -/
  | storeNotOpen
  /-- Raised when the caller closes or replaces the store of a Ready session
  (70_reset_and_hazards.md R162, 93_implementation_defined.md U3: outside the model). Safe. -/
  | storeChangedInSession
  /-- Raised when the caller presents a store of `2 ^ POS_BITS` bytes or more, whose length LEN cannot hold
  (10_state.md R30, R35 I7; log 12). Safe. -/
  | storeTooLong
deriving DecidableEq, Repr

/-- The machine after reset (10_state.md R36). The spec gives no value for `kd`, `kt`, `p0`, `ss` (log
3) and does not reset the store (log 4); `fates`, `fullError`, `inbox` and `rdata` are the model's (logs 1, 2, 8,
12), the last six fields the parameters of 00_scope.md R9 (logs 7, 9, 22). -/
def State.reset : State where
  keylen := 0#32
  key := Vector.replicate 64 0#8
  param := zeroBlock
  secsz := 0#32
  arg := 0#64
  result := 0#64
  lastErr := .ok
  fsm := .uninitialized
  mode := .ecb
  kd := .aes128 0#128
  kt := .aes128 0#128
  p0 := zeroBlock
  ss := 0
  lo := false
  pos := 0
  len := 0
  cache := []
  din := []
  dout := []
  store := { len := 0, cells := [] }
  storeOpen := true
  fates := []
  fullError := 0#64
  inbox := []
  rdata := []
  cacheCap := Config.cacheCap
  bufCap := Config.bufCap
  posBits := Config.posBits
  secszBits := Config.secszBits
  keylenBits := Config.keylenBits
  sidOrder := Config.sidOrder

end Sys2Proof.Machine
end

