-- ==== Sys2Proof/Machine/Aes.lean ====
section
/-! DEFINITION. The AES collaborator (40_block_primitives.md R61 to R63) as the spec writes it out:
FIPS 197 with 16-byte and 32-byte keys (49_aes_fips197_reference.md R126 to R134; log 5). -/

namespace Sys2Proof.Machine

/-- `xtime(a)` (R128). -/
def xtime (a : Byte) : Byte := (a <<< 1) ^^^ (if a.msb then 0x1B#8 else 0#8)

/-- The loop of `gmul` (R128), `n` bits of `b` left. -/
def gmulLoop : Nat → Byte → Byte → Byte → Byte
  | 0, r, _, _ => r
  | n + 1, r, a, b => gmulLoop n (if b.getLsbD 0 then r ^^^ a else r) (xtime a) (b >>> 1)

/-- `gmul(a, b)` (R128): product in GF(2^8) modulo x^8 + x^4 + x^3 + x + 1. -/
def gmul (a b : Byte) : Byte := gmulLoop 8 0#8 a b

/-- Table `SBOX` (R129), one row of sixteen entries a block. -/
def sboxRows : List Block := [
  0x637c777bf26b6fc53001672bfed7ab76#128,
  0xca82c97dfa5947f0add4a2af9ca472c0#128,
  0xb7fd9326363ff7cc34a5e5f171d83115#128,
  0x04c723c31896059a071280e2eb27b275#128,
  0x09832c1a1b6e5aa0523bd6b329e32f84#128,
  0x53d100ed20fcb15b6acbbe394a4c58cf#128,
  0xd0efaafb434d338545f9027f503c9fa8#128,
  0x51a3408f929d38f5bcb6da2110fff3d2#128,
  0xcd0c13ec5f974417c4a77e3d645d1973#128,
  0x60814fdc222a908846eeb814de5e0bdb#128,
  0xe0323a0a4906245cc2d3ac629195e479#128,
  0xe7c8376d8dd54ea96c56f4ea657aae08#128,
  0xba78252e1ca6b4c6e8dd741f4bbd8b8a#128,
  0x703eb5664803f60e613557b986c11d9e#128,
  0xe1f8981169d98e949b1e87e9ce5528df#128,
  0x8ca1890dbfe6426841992d0fb054bb16#128]

/-- Table `INVSBOX` (R129), one row of sixteen entries a block. -/
def invSboxRows : List Block := [
  0x52096ad53036a538bf40a39e81f3d7fb#128,
  0x7ce339829b2fff87348e4344c4dee9cb#128,
  0x547b9432a6c2233dee4c950b42fac34e#128,
  0x082ea16628d924b2765ba2496d8bd125#128,
  0x72f8f66486689816d4a45ccc5d65b692#128,
  0x6c704850fdedb9da5e154657a78d9d84#128,
  0x90d8ab008cbcd30af7e45805b8b34506#128,
  0xd02c1e8fca3f0f02c1afbd0301138a6b#128,
  0x3a9111414f67dcea97f2cfcef0b4e673#128,
  0x96ac7422e7ad3585e2f937e81c75df6e#128,
  0x47f11a711d29c5896fb7620eaa18be1b#128,
  0xfc563e4bc6d279209adbc0fe78cd5af4#128,
  0x1fdda8338807c731b11210592780ec5f#128,
  0x60517fa919b54a0d2de57a9f93c99cef#128,
  0xa0e03b4dae2af5b0c8ebbb3c83539961#128,
  0x172b047eba77d626e169146355210c7d#128]

/-- The entry for byte `0xHL`: row `H`, column `L` (R129). -/
def tableEntry (rows : List Block) (x : Byte) : Byte :=
  byteAt (rows.getD (x.toNat / 16) zeroBlock) (x.toNat % 16)

/-- `SBOX[x]` (R129). -/
def sbox (x : Byte) : Byte := tableEntry sboxRows x

/-- `INVSBOX[x]` (R129). -/
def invSbox (x : Byte) : Byte := tableEntry invSboxRows x

/-- `SubBytes` (R129). -/
def subBytes (s : Block) : Block := tabulate fun i => sbox (byteAt s i)

/-- `InvSubBytes` (R129). -/
def invSubBytes (s : Block) : Block := tabulate fun i => invSbox (byteAt s i)

/-- `ShiftRows` (R130): `s'[i] = s[(i + 4 (i mod 4)) mod 16]`. -/
def shiftRows (s : Block) : Block := tabulate fun i => byteAt s ((i + 4 * (i % 4)) % 16)

/-- `InvShiftRows` (R130): row `r` moves right by `r` columns. -/
def invShiftRows (s : Block) : Block := tabulate fun i => byteAt s ((i + 12 * (i % 4)) % 16)

/-- A column transform with the circulant of `c0, c1, c2, c3`: byte `r` of a column `a` becomes
`c0 a[r] + c1 a[r+1] + c2 a[r+2] + c3 a[r+3]`, indices modulo 4 (R131). -/
def mixWith (c0 c1 c2 c3 : Byte) (s : Block) : Block :=
  tabulate fun i =>
    gmul (byteAt s (4 * (i / 4) + i % 4)) c0
      ^^^ gmul (byteAt s (4 * (i / 4) + (i + 1) % 4)) c1
      ^^^ gmul (byteAt s (4 * (i / 4) + (i + 2) % 4)) c2
      ^^^ gmul (byteAt s (4 * (i / 4) + (i + 3) % 4)) c3

/-- `MixColumns` (R131). -/
def mixColumns (s : Block) : Block := mixWith 2#8 3#8 1#8 1#8 s

/-- `InvMixColumns` (R131). -/
def invMixColumns (s : Block) : Block := mixWith 14#8 11#8 13#8 9#8 s

/-- `SubWord` (R132). -/
def subWord (w : Word) : Word :=
  sbox (w.extractLsb' 24 8) ++ sbox (w.extractLsb' 16 8) ++ sbox (w.extractLsb' 8 8)
    ++ sbox (w.extractLsb' 0 8)

/-- `RotWord([a0,a1,a2,a3]) = [a1,a2,a3,a0]` (R132); `a0` is the most significant byte. -/
def rotWord (w : Word) : Word := w.rotateLeft 8

/-- `RC[j]` for `j >= 1` (R132): `RC[1] = 0x01`, `RC[j+1] = xtime(RC[j])`. -/
def roundConstant : Nat → Byte
  | 0 => 0x01#8
  | 1 => 0x01#8
  | j + 2 => xtime (roundConstant (j + 1))

/-- The word `t` that word `i` of the key schedule adds to word `i - Nk`, from word `i - 1` (R132). -/
def scheduleWord (nk i : Nat) (prev : Word) : Word :=
  if i % nk = 0 then subWord (rotWord prev) ^^^ (roundConstant (i / nk) ++ 0#24)
  else if 6 < nk ∧ i % nk = 4 then subWord prev
  else prev

/-- `n` further words of the key schedule from word `i` on; `acc` holds the words so far, the latest
first (R132). -/
def expandLoop (nk : Nat) : Nat → Nat → List Word → List Word
  | 0, _, acc => acc
  | n + 1, i, acc =>
    expandLoop nk n (i + 1) ((acc.getD (nk - 1) 0#32 ^^^ scheduleWord nk i (acc.headD 0#32)) :: acc)

/-- Four words of the schedule a round key: `rk[r] = w[4r] ++ .. ++ w[4r+3]` (R132). -/
def roundKeys : List Word → List Block
  | w0 :: w1 :: w2 :: w3 :: rest => (w0 ++ w1 ++ w2 ++ w3) :: roundKeys rest
  | _ => []

/-- The first `n` words of a key of `w` bits, in order (R132). -/
def keyWords (k : BitVec w) (n : Nat) : List Word :=
  (List.range n).map fun i => k.extractLsb' (32 * (n - 1 - i)) 32

/-- `KeyExpansion(key)` (R132): `Nr + 1` round keys, `Nr = 10` for 16 bytes and 14 for 32. -/
def keyExpansion : AesKey → List Block
  | .aes128 k => roundKeys (expandLoop 4 40 4 (keyWords k 4).reverse).reverse
  | .aes256 k => roundKeys (expandLoop 8 52 8 (keyWords k 8).reverse).reverse

/-- The rounds of `Cipher` after the first `AddRoundKey`; the last has no `MixColumns` (R133). -/
def cipherRounds : Block → List Block → Block
  | s, [] => s
  | s, [k] => shiftRows (subBytes s) ^^^ k
  | s, k :: ks => cipherRounds (mixColumns (shiftRows (subBytes s)) ^^^ k) ks

/-- `Cipher(in, rk)` (R133). -/
def cipher (input : Block) : List Block → Block
  | [] => input
  | k :: ks => cipherRounds (input ^^^ k) ks

/-- The rounds of `InvCipher` after the first `AddRoundKey`, round keys from `rk[Nr-1]` down (R134). -/
def invCipherRounds : Block → List Block → Block
  | s, [] => s
  | s, [k] => invSubBytes (invShiftRows s) ^^^ k
  | s, k :: ks => invCipherRounds (invMixColumns (invSubBytes (invShiftRows s) ^^^ k)) ks

/-- `InvCipher(in, rk)` (R134), given the round keys in reverse order. -/
def invCipher (input : Block) : List Block → Block
  | [] => input
  | k :: ks => invCipherRounds (input ^^^ k) ks

/-- `AesEnc(key, in)` (40_block_primitives.md R61; 49_aes_fips197_reference.md R126). -/
def aesEnc (key : AesKey) (input : Block) : Block := cipher input (keyExpansion key)

/-- `AesDec(key, in)` (40_block_primitives.md R62; 49_aes_fips197_reference.md R126). -/
def aesDec (key : AesKey) (input : Block) : Block := invCipher input (keyExpansion key).reverse

end Sys2Proof.Machine
end

