-- ==== Sys2Proof/Machine/Ops.lean ====
section
/-! DEFINITION. The shared operations: memory cells, the pending cache, the store primitives, the
delivery of a result or a fault (the one way a command ends), the common command frame and reset. -/

namespace Sys2Proof.Machine

/-! ### The store's bytes -/

/-- What an offset below the store's length reads as when no cell lists it. The canonical form of
`Memory` leaves out exactly the bytes with this value, so it is a matter of representation (log 13). -/
def unlistedByte : Byte := 0#8

/-- The byte at offset `a` of a list of cells. -/
def cellsRead : List Host.Cell → Nat → Byte
  | [], _ => unlistedByte
  | (k, v) :: rest, a => if a = k then v else cellsRead rest a

/-- The cells with byte `b` at offset `a`, still in canonical form. -/
def cellsWrite : List Host.Cell → Nat → Byte → List Host.Cell
  | [], a, b => if b = unlistedByte then [] else [(a, b)]
  | (k, v) :: rest, a, b =>
    if a < k then (if b = unlistedByte then (k, v) :: rest else (a, b) :: (k, v) :: rest)
    else if a = k then (if b = unlistedByte then rest else (a, b) :: rest)
    else (k, v) :: cellsWrite rest a b

/-- The cells after the bytes `f 0 .. f (n - 1)` are written at offsets `a .. a + n - 1`. -/
def cellsWriteMany (cells : List Host.Cell) (a : Nat) (f : Nat → Byte) : Nat → List Host.Cell
  | 0 => cells
  | n + 1 => cellsWrite (cellsWriteMany cells a f n) (a + n) (f n)

/-- The cells of a byte string laid out from offset `a` on. -/
def cellsOfBytes : Nat → List Byte → List Host.Cell
  | _, [] => []
  | a, b :: rest =>
    if b = unlistedByte then cellsOfBytes (a + 1) rest else (a, b) :: cellsOfBytes (a + 1) rest

/-- Offsets strictly rising from `lo` on, below `hi`, and no cell with the unlisted value. -/
def cellsWf : Nat → Nat → List Host.Cell → Bool
  | _, _, [] => true
  | lo, hi, (k, v) :: rest =>
    decide (lo ≤ k) && decide (k < hi) && v != unlistedByte && cellsWf (k + 1) hi rest

/-- The canonical form of a store. -/
def Memory.wf (m : Memory) : Bool := cellsWf 0 m.len m.cells

/-- The byte at offset `a`, none where the store has no such offset (20_memory.md R43). -/
def Memory.byte (m : Memory) (a : Nat) : Option Byte :=
  if a < m.len then some (cellsRead m.cells a) else none

/-- The sixteen bytes at offset `off`, as a block in stream order (20_memory.md R44). -/
def Memory.block (m : Memory) (off : Nat) : Block := tabulate fun i => cellsRead m.cells (off + i)

/-- The store with the block `v` at offset `off`; it grows when the block ends beyond its end
(20_memory.md R41). -/
def Memory.setBlock (m : Memory) (off : Nat) (v : Block) : Memory where
  len := max m.len (off + 16)
  cells := cellsWriteMany m.cells off (byteAt v) 16

/-- The store that holds a byte string (10_state.md R33). -/
def Memory.ofBytes (bytes : List Byte) : Memory where
  len := bytes.length
  cells := cellsOfBytes 0 bytes

/-! ### The pending cache (10_state.md R31) -/

/-- `CACHE[b]`, none when `b` is not pending (00_scope.md R11). -/
def Cache.get : Cache → Nat → Option Block
  | [], _ => none
  | (k, v) :: rest, b => if b = k then some v else Cache.get rest b

/-- `CACHE[b] <- p` (00_scope.md R11). -/
def Cache.put : Cache → Nat → Block → Cache
  | [], b, p => [(b, p)]
  | (k, v) :: rest, b, p =>
    if b < k then (b, p) :: (k, v) :: rest
    else if b = k then (b, p) :: rest
    else (k, v) :: Cache.put rest b p

/-- `dom(CACHE)`, in rising order (00_scope.md R11). -/
def Cache.dom (c : Cache) : List Nat := c.map Prod.fst

/-- Indices strictly rising from `lo` on. -/
def cacheWfFrom : Nat → Cache → Bool
  | _, [] => true
  | lo, (k, _) :: rest => decide (lo ≤ k) && cacheWfFrom (k + 1) rest

/-- The canonical form of a cache. -/
def Cache.wf (c : Cache) : Bool := cacheWfFrom 0 c

/-! ### Commands as computations -/

/-- How a command's operation ends early: with an engine fault and what it records (60_exceptions.md
R140), or by stopping the model. -/
inductive Exc where
  | raised (e : ErrCode) (info : DWord)
  | fault (f : Fault)
  | refused (r : Refusal)
deriving DecidableEq, Repr

/-- A part of a command: it reads and writes the state in the order of its statements, and what it
wrote before it ended early stays written (60_exceptions.md R140). -/
abbrev Cmd (α : Type) := EStateM Exc State α

/-- `raise F(info)` inside an operation (60_exceptions.md R140). -/
def raiseFault {α : Type} (e : ErrCode) (info : DWord) : Cmd α := throw (.raised e info)

/-! ### The store primitives (20_memory.md R39 to R42) -/

/-- `StoreLen()` (R39): it reads no data and cannot fail. -/
def storeLen (s : State) : Nat := s.store.len

/-- `PB = StoreLen() / 16`, the number of committed blocks (R49). -/
def committedBlocks (s : State) : Nat := storeLen s / 16

/-- The first integer that is no stream position (10_state.md R29, R30; 2^63 with the value of POS_BITS,
00_scope.md R9). -/
def posLimit (s : State) : Nat := 2 ^ s.posBits

/-- The outcome of the next store access and the outcomes after it (log 2). -/
def nextFate : List Fate → Fate × List Fate
  | [] => (.succeeds, [])
  | f :: rest => (f, rest)

/-- `MemRead(off, 16)` (R40): a success changes nothing; a failure ends the command with `IoError(e)`
(60_exceptions.md R141). An access the spec says is never made faults (log 13). -/
def memRead (off : Nat) : Cmd Block := fun s =>
  if off % 16 = 0 ∧ off + 16 ≤ storeLen s then
    match nextFate s.fates with
    | (.succeeds, rest) => .ok (s.store.block off) { s with fates := rest }
    | (.fails e, rest) => .error (.raised .ioError e) { s with fates := rest }
  else .error (.fault (.storeOutOfRange off)) s

/-- The store takes a block at `off`: it has one there, or it stays so short that LEN can hold its length
(10_state.md R30, R35 I7; log 12). -/
def hasRoom (off : Nat) (s : State) : Bool :=
  decide (off + 16 ≤ storeLen s) || decide (off + 16 < posLimit s)

/-- The outcome of a write at `off` and the outcomes after it: the next one, but a store without room for
the block fails (log 12). -/
def writeFate (off : Nat) (s : State) : Fate × List Fate :=
  match nextFate s.fates with
  | (.succeeds, rest) => (if hasRoom off s then .succeeds else .fails s.fullError, rest)
  | (.fails e, rest) => (.fails e, rest)

/-- `MemWrite(off, 16, v)` (R41): it replaces sixteen bytes, or appends them at the end, or fails and
leaves the store as it was. An access the spec says is never made faults (log 13). -/
def memWrite (off : Nat) (v : Block) : Cmd Unit := fun s =>
  if off % 16 = 0 ∧ off ≤ storeLen s then
    match writeFate off s with
    | (.succeeds, rest) => .ok () { s with fates := rest, store := s.store.setBlock off v }
    | (.fails e, rest) => .error (.raised .ioError e) { s with fates := rest }
  else .error (.fault (.storeOutOfRange off)) s

/-- `StoreClose()` (R42): it cannot fail. -/
def storeClose (s : State) : State := { s with storeOpen := false }

/-! ### The end of a command -/

/-- Delivery of a fault (60_exceptions.md R140, 42_channel_commands.md R91): the one operation by which
a command ends with a code other than 0. There is no trap entry and no trap return (R147). -/
def raise (e : ErrCode) (info : DWord) (s : State) : State :=
  { s with lastErr := e, result := info, din := [] }

/-- The successful end of a command with value `v` (42_channel_commands.md R91). -/
def complete (v : DWord) (s : State) : State :=
  { s with lastErr := .ok, result := v, din := [] }

/-- A write of an illegal word to CMD (30_encoding.md R184, 60_exceptions.md R138). -/
def illegalCommand (s : State) : State := raise .illegalCommand 0#64 { s with dout := [] }

/-- The outcome of a command whose operation ran. -/
def finish : EStateM.Result Exc State DWord → Host.Outcome State Fault Refusal
  | .ok v s => .next (complete v s)
  | .error (.raised e info) s => .next (raise e info s)
  | .error (.fault f) _ => .fault f
  | .error (.refused r) _ => .refused r

/-- The common frame of every command (42_channel_commands.md R91): DOUT is emptied, then the payload
and capacity checks (`malformed`), then the session state, then the operation. The order is the
priority of simultaneous faults (60_exceptions.md R145). -/
def runCommand (malformed : State → Bool) (accepted : Fsm) (operation : Cmd DWord) (s : State) :
    Host.Outcome State Fault Refusal :=
  if malformed s then .next (illegalCommand s)
  else if s.fsm ≠ accepted then .next (raise .stateError 0#64 { s with dout := [] })
  else finish (operation { s with dout := [] })

/-- The payload check of the commands that carry no payload: they are never malformed. -/
def noPayload (_ : State) : Bool := false

/-! ### Reset -/

/-- The reset input (70_reset_and_hazards.md R156 to R158, 10_state.md R36): every piece of engine
state at its reset value; the store, its open bit and what lies outside the engine stay. -/
def resetEngine (s : State) : State :=
  { State.reset with
    store := s.store, storeOpen := s.storeOpen, fates := s.fates, fullError := s.fullError, inbox := s.inbox,
    rdata := s.rdata, cacheCap := s.cacheCap, bufCap := s.bufCap, posBits := s.posBits,
    secszBits := s.secszBits, keylenBits := s.keylenBits, sidOrder := s.sidOrder }

end Sys2Proof.Machine
end

