-- ==== Sys2Proof/Machine/Operands.lean ====
section
/-! DEFINITION. Operands as the commands sample them (30_encoding.md R182, R183), the construction
checks (42_channel_commands.md R99 to R101), the key slices (10_state.md R25), and the mapping from
stream positions to blocks and sectors (20_memory.md R47 to R50). -/

namespace Sys2Proof.Machine

/-! ### ARG and the payload -/

/-- `sext_64(ARG)`: the offset of SEEK and the position of SETPOS (R182). -/
def argSigned (s : State) : Int := s.arg.toInt

/-- `zext_64(ARG)`: the count of READ and WRITE (R182). -/
def argCount (s : State) : Nat := s.arg.toNat

/-- A count exceeds a capacity; nothing exceeds an unbounded one (00_scope.md R10). -/
def exceeds (n : Nat) (cap : Option Nat) : Bool :=
  match cap with
  | none => false
  | some c => decide (c < n)

/-- READ is malformed when its count exceeds BUF_CAP (42_channel_commands.md R91). -/
def readMalformed (s : State) : Bool := exceeds (argCount s) s.bufCap

/-- WRITE is malformed when `|DIN|` is not its count, or its count exceeds BUF_CAP (R91, R183). -/
def writeMalformed (s : State) : Bool :=
  decide (s.din.length ≠ argCount s) || exceeds (argCount s) s.bufCap

/-! ### Construction operands -/

/-- SECSZ as a signed number of SECSZ_BITS bits, `sext_32(SECSZ)` with the value of that parameter
(10_state.md R18; log 22). -/
def secszValue (s : State) : Int := (s.secsz.signExtend s.secszBits).toInt

/-- KEYLEN as an unsigned number of KEYLEN_BITS bits, the register itself with the value of that
parameter (10_state.md R15; log 22). -/
def keylenValue (s : State) : Nat := (s.keylen.setWidth s.keylenBits).toNat

/-- `KEYFORMS(mode)` (00_scope.md R9). -/
def keyForms : Mode → List Nat
  | .ecb | .cbc | .ctr => [16, 32]
  | .xts => [32, 64]

/-- `KeyOk(mode)` (42_channel_commands.md R101). -/
def keyOk (mode : Mode) (s : State) : Bool := (keyForms mode).contains (keylenValue s)

/-- `SectorOk()` (R99). -/
def sectorOk (s : State) : Bool := decide (0 < secszValue s) && decide (secszValue s % 16 = 0)

/-- `LengthOk(mode)` (R100). -/
def lengthOk (mode : Mode) (s : State) : Bool :=
  decide (storeLen s % 16 = 0) && (mode != .xts || decide (16 ≤ storeLen s))

/-- `KEY[start .. start + n)` as an AES key, for `n` = 16 or 32 (10_state.md R25). -/
def keySlice (key : Vector Byte 64) (start n : Nat) : AesKey :=
  let bytes := (key.toList.drop start).take n
  if n = 32 then .aes256 (bigEndian 256 bytes) else .aes128 (bigEndian 128 bytes)

/-- The bytes of an AES key in order (40_block_primitives.md R63). -/
def AesKey.bytes : AesKey → List Byte
  | .aes128 k => (List.range 16).map fun i => k.extractLsb' (8 * (15 - i)) 8
  | .aes256 k => (List.range 32).map fun i => k.extractLsb' (8 * (31 - i)) 8

/-- KD of a session of mode `mode`: the whole key material, or its first half in Xts (R25). -/
def dataKey (mode : Mode) (s : State) : AesKey :=
  match mode with
  | .ecb | .cbc | .ctr => keySlice s.key 0 (keylenValue s)
  | .xts => keySlice s.key 0 (keylenValue s / 2)

/-- KT of an Xts session: the second half of the key material (R25). -/
def tweakKey (s : State) : AesKey :=
  keySlice s.key (keylenValue s / 2) (keylenValue s / 2)

/-! ### Positions, blocks, sectors -/

/-- `blk(p)` (20_memory.md R47). -/
def blk (p : Nat) : Nat := p / 16

/-- `off(p)` (R47). -/
def off (p : Nat) : Nat := p % 16

/-- `phys(b)` (R47). -/
def phys (b : Nat) : Nat := 16 * b

/-- `K = SS / 16`, blocks in a sector (10_state.md R27). -/
def sectorBlocks (ss : Nat) : Nat := ss / 16

/-- `sec(b)` (20_memory.md R48, 41_mode_engines.md R84). -/
def sec (ss b : Nat) : Nat := b / sectorBlocks ss

/-- `bis(b)` (R48, R84). -/
def bis (ss b : Nat) : Nat := b % sectorBlocks ss

/-- `roundUp(a, u) = u * ceil(a / u)` (00_scope.md R11). -/
def roundUp (a u : Nat) : Nat := u * ((a + u - 1) / u)

/-- `U`, the growth granule of the store (00_scope.md R12, 42_channel_commands.md R114). -/
def growthUnit (s : State) : Nat :=
  match s.mode with
  | .xts => s.ss
  | .ecb | .cbc | .ctr => 16

/-- `NEWPHYS` (R114). -/
def newPhys (s : State) : Nat := roundUp s.len (growthUnit s)

/-- The indices `lo, lo + 1, .., hi`. -/
def indices (lo hi : Nat) : List Nat := List.range' lo (hi + 1 - lo)

/-- The last block index a WRITE seeds up to (R112). -/
def seedLast (s : State) (b1 : Nat) : Nat :=
  match s.mode with
  | .cbc => max b1 (committedBlocks s - 1)
  | .ecb | .ctr | .xts => b1

/-- `SeedSet(b0, b1)`, ascending (R112). -/
def seedSet (s : State) (b0 b1 : Nat) : List Nat :=
  (indices b0 (seedLast s b1)).filter fun b => (s.cache.get b).isNone

/-- `CommitSet(NEWPHYS)`, ascending (R115): every pending block, and every index from the old end of
the store to the new one. -/
def commitSet (s : State) : List Nat :=
  let pb := committedBlocks s
  let nb := newPhys s / 16
  s.cache.dom.filter (fun b => decide (b < pb)) ++ List.range' pb (nb - pb)
    ++ s.cache.dom.filter (fun b => decide (pb ≤ b ∧ nb ≤ b))

end Sys2Proof.Machine
end

