-- ==== Sys2Proof/Machine/Modes.lean ====
section
/-! DEFINITION. The four mode engines (41_mode_engines.md): the pure transforms of a block, and `Enc`
and `Dec`, which in Cbc mode read the store for the chaining value. -/

namespace Sys2Proof.Machine

/-! ### The pure transforms -/

/-- `EcbEnc` (R73). -/
def ecbEnc (kd : AesKey) (p : Block) : Block := aesEnc kd p

/-- `EcbDec` (R74). -/
def ecbDec (kd : AesKey) (c : Block) : Block := aesDec kd c

/-- `CbcEnc` against the chaining value `chain` (R78). -/
def cbcEnc (kd : AesKey) (chain p : Block) : Block := aesEnc kd (xor128 p chain)

/-- `CbcDec` against the chaining value `chain` (R76). -/
def cbcDec (kd : AesKey) (chain c : Block) : Block := xor128 (aesDec kd c) chain

/-- `Counter(b)` (R80). -/
def counter (p0 : Block) (b : Nat) : Block := add128be p0 b

/-- `Keystream(b)` (R81). -/
def keystream (kd : AesKey) (p0 : Block) (b : Nat) : Block := aesEnc kd (counter p0 b)

/-- `CtrEnc` (R82). -/
def ctrEnc (kd : AesKey) (p0 : Block) (b : Nat) (p : Block) : Block :=
  xor128 p (keystream kd p0 b)

/-- `CtrDec` (R83): the same operation as encryption. -/
def ctrDec (kd : AesKey) (p0 : Block) (b : Nat) (c : Block) : Block :=
  xor128 c (keystream kd p0 b)

/-- `TweakSeed(s)` (R85) in the byte order SID_ORDER (log 7). -/
def tweakSeed (order : Config.ByteOrder) (p0 : Block) (sector : Nat) : Block :=
  addSectorId order p0 sector

/-- `Tweak(b)` under sector size `ss` (R86). -/
def tweak (order : Config.ByteOrder) (kt : AesKey) (p0 : Block) (ss b : Nat) : Block :=
  gfDoublePow (aesEnc kt (tweakSeed order p0 (sec ss b))) (bis ss b)

/-- `XtsEnc` with tweak `t` (R87). -/
def xtsEnc (kd : AesKey) (t p : Block) : Block := xor128 (aesEnc kd (xor128 p t)) t

/-- `XtsDec` with tweak `t` (R88). -/
def xtsDec (kd : AesKey) (t c : Block) : Block := xor128 (aesDec kd (xor128 c t)) t

/-- The mode's encryption of block `b`, its chaining value given (R71); only Cbc uses `chain`. -/
def encWith (s : State) (b : Nat) (chain p : Block) : Block :=
  match s.mode with
  | .ecb => ecbEnc s.kd p
  | .cbc => cbcEnc s.kd chain p
  | .ctr => ctrEnc s.kd s.p0 b p
  | .xts => xtsEnc s.kd (tweak s.sidOrder s.kt s.p0 s.ss b) p

/-- The mode's decryption of block `b`, its chaining value given (R71); only Cbc uses `chain`. -/
def decWith (s : State) (b : Nat) (chain c : Block) : Block :=
  match s.mode with
  | .ecb => ecbDec s.kd c
  | .cbc => cbcDec s.kd chain c
  | .ctr => ctrDec s.kd s.p0 b c
  | .xts => xtsDec s.kd (tweak s.sidOrder s.kt s.p0 s.ss b) c

/-! ### Chaining values and the engine interface -/

/-- `ChainDec(b)` (R75): the IV, or the stored ciphertext of block `b - 1`, never the cache. -/
def chainDec (b : Nat) : Cmd Block := do
  let s ← get
  if b = 0 then pure s.p0 else memRead (phys (b - 1))

/-- `ChainEnc(b)` (R77): the IV, or the ciphertext just produced for block `b - 1` taken from the
engine's own register `last`, or, when that block was not just written, the stored one. -/
def chainEnc (last : Option (Nat × Block)) (b : Nat) : Cmd Block := do
  let s ← get
  if b = 0 then pure s.p0
  else match last with
    | some (k, c) => if k + 1 = b then pure c else memRead (phys (b - 1))
    | none => memRead (phys (b - 1))

/-- The chaining value of a mode that has none. -/
def noChain : Cmd Block := pure zeroBlock

/-- The chaining value `Dec` uses: only Cbc has one (R71, R75). -/
def decChain (b : Nat) : Cmd Block := do
  let s ← get
  match s.mode with
  | .cbc => chainDec b
  | .ecb | .ctr | .xts => noChain

/-- The chaining value `Enc` uses: only Cbc has one (R71, R77). -/
def encChain (last : Option (Nat × Block)) (b : Nat) : Cmd Block := do
  let s ← get
  match s.mode with
  | .cbc => chainEnc last b
  | .ecb | .ctr | .xts => noChain

/-- `Dec(b, c)` (R71): only Cbc touches the store. -/
def decBlock (b : Nat) (c : Block) : Cmd Block := do
  let s ← get
  let chain ← decChain b
  pure (decWith s b chain c)

/-- `Enc(b, p)` (R71): only Cbc touches the store. -/
def encBlock (last : Option (Nat × Block)) (b : Nat) (p : Block) : Cmd Block := do
  let s ← get
  let chain ← encChain last b
  pure (encWith s b chain p)

/-- The ciphertext block `b` read from the store and decrypted (20_memory.md R52, second arm). -/
def committedPlain (b : Nat) : Cmd Block := do
  let c ← memRead (phys b)
  decBlock b c

/-- `PlainBlock(b)` (20_memory.md R52): the pending block, else the committed one, else zeros. -/
def plainBlock (b : Nat) : Cmd Block := do
  let s ← get
  match s.cache.get b with
  | some p => pure p
  | none => if b < committedBlocks s then committedPlain b else pure zeroBlock

end Sys2Proof.Machine
end

