-- ==== Sys2Proof/Machine/Commit.lean ====
section
/-! DEFINITION. The meanings of `FLUSH` and `DISPOSE` (42_channel_commands.md R114 to R119). -/

namespace Sys2Proof.Machine

/-- Each block of the list is encrypted and written, in order (R114); `last` is the index and the
ciphertext of the block written just before (41_mode_engines.md R77; log 15). A block that is not
pending is committed as the encryption of `ZERO` (R115). -/
def commitBlocks : List Nat → Option (Nat × Block) → Cmd Unit
  | [], _ => pure ()
  | b :: rest, last => do
    let s ← get
    let c ← encBlock last b ((s.cache.get b).getD zeroBlock)
    memWrite (phys b) c
    commitBlocks rest (some (b, c))

/-- `FLUSH()` (R114 to R117). -/
def flushOp : Cmd DWord := do
  let s ← get
  if s.cache.isEmpty then pure 0#64
  else
    commitBlocks (commitSet s) none
    modify fun s => { s with cache := [], len := storeLen s }
    pure 0#64

/-- `FLUSH` (R114). -/
def execFlush (s : State) : Host.Outcome State Fault Refusal :=
  runCommand noPayload .ready flushOp s

/-- The end of a session (R118): the store is closed unless LO is set, `FSM <- Disposed`. -/
def endSession (s : State) : State :=
  { (if s.lo then s else storeClose s) with fsm := .disposed }

/-- `DISPOSE()` (R118, R119): a failing implicit flush ends it with that fault, session and store as
the flush left them. -/
def disposeOp : Cmd DWord := do
  let _ ← flushOp
  modify endSession
  pure 0#64

/-- `DISPOSE` (R118). -/
def execDispose (s : State) : Host.Outcome State Fault Refusal :=
  runCommand noPayload .ready disposeOp s

end Sys2Proof.Machine
end

