-- ==== Sys2Proof/Machine/Data.lean ====
section
/-! DEFINITION. The meanings of `READ` and `WRITE` (42_channel_commands.md R109 to R113). -/

namespace Sys2Proof.Machine

/-- The plaintext bytes of `n` blocks from block `b` on (R109). -/
def readBlocks : Nat → Nat → Cmd (List Byte)
  | 0, _ => pure []
  | n + 1, b => do
    let p ← plainBlock b
    let rest ← readBlocks n (b + 1)
    pure (blockBytes p ++ rest)

/-- The slice of the touched blocks' bytes that the range `[p, p + count)` is (R109). -/
def sliceOf (p count : Nat) (bytes : List Byte) : List Byte := (bytes.drop (off p)).take count

/-- How many blocks `[p, p + count)` touches, for `count > 0` (20_memory.md R50). -/
def touchedBlocks (p count : Nat) : Nat := blk (p + count - 1) + 1 - blk p

/-- `READ(count)` (R109, R110). -/
def readOp : Cmd DWord := do
  let s ← get
  let count := argCount s
  if count = 0 then pure 0#64
  else if s.len < s.pos + count then raiseFault .endOfStreamError 0#64
  else
    let bytes ← readBlocks (touchedBlocks s.pos count) (blk s.pos)
    modify fun s => { s with dout := sliceOf s.pos count bytes, pos := s.pos + count }
    pure (BitVec.ofNat 64 count)

/-- `READ` (R109). -/
def execRead (s : State) : Host.Outcome State Fault Refusal :=
  runCommand readMalformed .ready readOp s

/-- The plaintext a block that is not pending is seeded with (R111). -/
def seedBlock (b : Nat) : Cmd Block := do
  let s ← get
  if b < committedBlocks s then committedPlain b else pure zeroBlock

/-- The cache after the blocks of the list are seeded into it, in order (R111). -/
def seedBlocks : List Nat → Cache → Cmd Cache
  | [], c => pure c
  | b :: rest, c => do
    let p ← seedBlock b
    seedBlocks rest (c.put b p)

/-- `C'[blk(p)][off(p)] <- d` for the stream byte at position `p` (R111). -/
def overlayByte (c : Cache) (p : Nat) (d : Byte) : Cache :=
  c.put (blk p) (setByte ((c.get (blk p)).getD zeroBlock) (off p) d)

/-- The bytes of `data` overlaid from position `p` on (R111). -/
def overlay : Cache → Nat → List Byte → Cache
  | c, _, [] => c
  | c, p, d :: rest => overlay (overlayByte c p d) (p + 1) rest

/-- `WRITE(count, data)` (R111 to R113): the command works on a copy of the cache and commits it at the
end, so that a fault leaves CACHE, LEN and POS as they were. -/
def writeOp : Cmd DWord := do
  let s ← get
  let count := argCount s
  if count = 0 then pure 0#64
  else if posLimit s ≤ s.pos + count then raiseFault .argumentError 0#64
  else
    let seeded ← seedBlocks (seedSet s (blk s.pos) (blk (s.pos + count - 1))) s.cache
    if exceeds seeded.length s.cacheCap then raiseFault .illegalCommand 0#64
    else
      modify fun s =>
        { s with cache := overlay seeded s.pos s.din, len := max s.len (s.pos + count),
                 pos := s.pos + count }
      pure 0#64

/-- `WRITE` (R111). -/
def execWrite (s : State) : Host.Outcome State Fault Refusal :=
  runCommand writeMalformed .ready writeOp s

end Sys2Proof.Machine
end

