-- ==== Sys2Proof/Machine/Open.lean ====
section
/-! DEFINITION. The meanings of `OPEN.ECB`, `OPEN.CBC`, `OPEN.CTR` and `OPEN.XTS`
(42_channel_commands.md R92 to R101). -/

namespace Sys2Proof.Machine

/-- The operand checks that do not ask for the store's length: `KeyOk`, and in Xts `SectorOk` (R92). -/
def operandsOk (mode : Mode) (s : State) : Bool := keyOk mode s && (mode != .xts || sectorOk s)

/-- The state a successful `OPEN` leaves (R92, R97): the operands are copied, KT and SS only in Xts
(log 18). -/
def openSession (mode : Mode) (lo : Bool) (s : State) : State :=
  { s with
    mode := mode, lo := lo, kd := dataKey mode s,
    kt := if mode = .xts then tweakKey s else s.kt,
    ss := if mode = .xts then (secszValue s).toNat else s.ss,
    p0 := s.param, pos := 0, len := storeLen s, cache := [], fsm := .ready }

/-- A failed construction check (R98): `FSM <- Rejected`, then `ConfigurationError`. -/
def rejectSession : Cmd DWord := do
  modify fun s => { s with fsm := .rejected }
  raiseFault .configurationError 0#64

/-- `OPEN(mode, lo)` (R92). The three checks give one fault and one state change, so their order is
not observable; the store's length is asked for last, and only of an open store (log 10). -/
def openOp (mode : Mode) (lo : Bool) : Cmd DWord := do
  let s ← get
  if operandsOk mode s then
    if s.storeOpen then
      if lengthOk mode s then
        set (openSession mode lo s)
        pure 0#64
      else rejectSession
    else throw (.refused .storeNotOpen)
  else rejectSession

/-- `OPEN.ECB` (R93). -/
def execOpenEcb (lo : Bool) (s : State) : Host.Outcome State Fault Refusal :=
  runCommand noPayload .uninitialized (openOp .ecb lo) s

/-- `OPEN.CBC` (R94). -/
def execOpenCbc (lo : Bool) (s : State) : Host.Outcome State Fault Refusal :=
  runCommand noPayload .uninitialized (openOp .cbc lo) s

/-- `OPEN.CTR` (R95). -/
def execOpenCtr (lo : Bool) (s : State) : Host.Outcome State Fault Refusal :=
  runCommand noPayload .uninitialized (openOp .ctr lo) s

/-- `OPEN.XTS` (R96). -/
def execOpenXts (lo : Bool) (s : State) : Host.Outcome State Fault Refusal :=
  runCommand noPayload .uninitialized (openOp .xts lo) s

end Sys2Proof.Machine
end

