-- ==== Sys2Proof/Machine/Seek.lean ====
section
/-! DEFINITION. The meanings of `SEEK.SET`, `SEEK.CUR`, `SEEK.END`, `SETPOS`, `GETPOS` and `GETLEN`
(42_channel_commands.md R102 to R108). -/

namespace Sys2Proof.Machine

/-- The common tail of `SEEK.*` and `SETPOS` (R105): a range check, then `POS <- n` and the value `n`. -/
def moveTo (target : State → Int) : Cmd DWord := do
  let s ← get
  if target s < 0 ∨ (posLimit s : Int) ≤ target s then raiseFault .argumentError 0#64
  else
    set { s with pos := (target s).toNat }
    pure (BitVec.ofInt 64 (target s))

/-- `SEEK.SET` (R102). -/
def execSeekSet (s : State) : Host.Outcome State Fault Refusal :=
  runCommand noPayload .ready (moveTo argSigned) s

/-- `SEEK.CUR` (R103). -/
def execSeekCur (s : State) : Host.Outcome State Fault Refusal :=
  runCommand noPayload .ready (moveTo fun s => s.pos + argSigned s) s

/-- `SEEK.END` (R104). -/
def execSeekEnd (s : State) : Host.Outcome State Fault Refusal :=
  runCommand noPayload .ready (moveTo fun s => s.len + argSigned s) s

/-- `SETPOS` (R106). -/
def execSetpos (s : State) : Host.Outcome State Fault Refusal :=
  runCommand noPayload .ready (moveTo argSigned) s

/-- A command whose value is a number the session holds and that changes nothing (R107, R108). -/
def report (value : State → Nat) : Cmd DWord := do
  let s ← get
  pure (BitVec.ofNat 64 (value s))

/-- `GETPOS` (R107). -/
def execGetpos (s : State) : Host.Outcome State Fault Refusal :=
  runCommand noPayload .ready (report State.pos) s

/-- `GETLEN` (R108). -/
def execGetlen (s : State) : Host.Outcome State Fault Refusal :=
  runCommand noPayload .ready (report State.len) s

end Sys2Proof.Machine
end

