-- ==== Sys2Proof/Machine/Dispatch.lean ====
section
/-! DEFINITION. One arm per command: each calls its meaning. -/

namespace Sys2Proof.Machine

def exec (i : Instr) (s : State) : Host.Outcome State Fault Refusal :=
  match i with
  | .openEcb lo => Sys2Proof.Machine.execOpenEcb lo s
  | .openCbc lo => Sys2Proof.Machine.execOpenCbc lo s
  | .openCtr lo => Sys2Proof.Machine.execOpenCtr lo s
  | .openXts lo => Sys2Proof.Machine.execOpenXts lo s
  | .seekSet => Sys2Proof.Machine.execSeekSet s
  | .seekCur => Sys2Proof.Machine.execSeekCur s
  | .seekEnd => Sys2Proof.Machine.execSeekEnd s
  | .setpos => Sys2Proof.Machine.execSetpos s
  | .getpos => Sys2Proof.Machine.execGetpos s
  | .getlen => Sys2Proof.Machine.execGetlen s
  | .read => Sys2Proof.Machine.execRead s
  | .write => Sys2Proof.Machine.execWrite s
  | .flush => Sys2Proof.Machine.execFlush s
  | .dispose => Sys2Proof.Machine.execDispose s

end Sys2Proof.Machine
end

