-- ==== Sys2Proof/Machine/Flags.lean ====
section
/-! DEFINITION. The engine's one status flag and the STATUS register, read-only views of other state
(10_state.md R21, R34). There are no arithmetic condition codes (R34). -/

namespace Sys2Proof.Machine

/-- `DIRTY = (dom(CACHE) is not empty)` (10_state.md R34). -/
def dirty (s : State) : Bool := !s.cache.isEmpty

/-- The number of an FSM state (10_state.md R23). -/
def Fsm.code : Fsm → BitVec 2
  | .uninitialized => 0#2
  | .ready => 1#2
  | .rejected => 2#2
  | .disposed => 3#2

/-- The number of a mode (10_state.md R24). -/
def Mode.code : Mode → BitVec 2
  | .ecb => 0#2
  | .cbc => 1#2
  | .ctr => 2#2
  | .xts => 3#2

/-- The number of a result code (60_exceptions.md R136). -/
def ErrCode.code : ErrCode → BitVec 8
  | .ok => 0#8
  | .configurationError => 1#8
  | .endOfStreamError => 2#8
  | .ioError => 3#8
  | .stateError => 4#8
  | .argumentError => 5#8
  | .illegalCommand => 6#8

/-- A session exists or existed: MODE and LO are meaningful (10_state.md R21, R24; log 14). -/
def sessionLatched (s : State) : Bool :=
  match s.fsm with
  | .ready | .disposed => true
  | .uninitialized | .rejected => false

/-- STATUS.MODE, 0 while FSM is Uninitialized or Rejected (10_state.md R21). -/
def statusMode (s : State) : BitVec 2 := if sessionLatched s then s.mode.code else 0#2

/-- STATUS.LO, 0 while FSM is Uninitialized or Rejected (10_state.md R21). -/
def statusLo (s : State) : Bool := sessionLatched s && s.lo

/-- STATUS, fields from bit 31 down (10_state.md R21). -/
def statusWord (s : State) : Word :=
  0#16 ++ s.lastErr.code ++ 0#2 ++ BitVec.ofBool (dirty s) ++ BitVec.ofBool (statusLo s)
    ++ statusMode s ++ s.fsm.code

end Sys2Proof.Machine
end

