-- ==== Sys2Proof/Machine/Window.lean ====
section
/-! DEFINITION. The register window (30_encoding.md R176) with its little-endian byte lanes
(20_memory.md R44), the two buffer ports (10_state.md R32), and the host actions that are no
commands. -/

namespace Sys2Proof.Machine

/-- Byte `k` of a register, byte 0 least significant (20_memory.md R44). -/
def lane {w : Nat} (v : BitVec w) (k : Nat) : Byte := v.extractLsb' (8 * k) 8

/-- A register with its byte `k` replaced. -/
def setLane {w : Nat} (v : BitVec w) (k : Nat) (b : Byte) : BitVec w :=
  (v &&& ~~~(0xFF#w <<< (8 * k))) ||| (b.setWidth w <<< (8 * k))

/-- What the byte at window offset `o` reads as (R176): CMD, KEY, the DIN port and unlisted offsets
read 0, the DOUT port its first byte or 0. -/
def windowByte (s : State) (o : Nat) : Byte :=
  if o < 0x04 then 0#8
  else if o < 0x08 then lane (statusWord s) (o - 0x04)
  else if o < 0x10 then lane s.arg (o - 0x08)
  else if o < 0x18 then lane s.result (o - 0x10)
  else if o < 0x1C then lane s.keylen (o - 0x18)
  else if o < 0x20 then lane s.secsz (o - 0x1C)
  else if o < 0x30 then byteAt s.param (o - 0x20)
  else if o = 0x84 then s.dout.headD 0#8
  else 0#8

/-- A push to the DIN port (R176, 10_state.md R32); a byte beyond BUF_CAP is dropped (log 9). -/
def pushDin (b : Byte) (s : State) : State :=
  if exceeds (s.din.length + 1) s.bufCap then s else { s with din := s.din ++ [b] }

/-- The state after byte `b` is written at window offset `o` (R176): read-only registers, CMD and
unlisted offsets ignore it (log 8). -/
def setWindowByte (o : Nat) (b : Byte) (s : State) : State :=
  if 0x08 ≤ o ∧ o < 0x10 then { s with arg := setLane s.arg (o - 0x08) b }
  else if 0x18 ≤ o ∧ o < 0x1C then { s with keylen := setLane s.keylen (o - 0x18) b }
  else if 0x1C ≤ o ∧ o < 0x20 then { s with secsz := setLane s.secsz (o - 0x1C) b }
  else if 0x20 ≤ o ∧ o < 0x30 then { s with param := setByte s.param (o - 0x20) b }
  else if 0x40 ≤ o ∧ o < 0x80 then { s with key := s.key.setIfInBounds (o - 0x40) b }
  else if o = 0x80 then pushDin b s
  else s

/-- Bytes written at window offset `o` and above, lowest offset first. -/
def windowWrite : Nat → List Byte → State → State
  | _, [], s => s
  | o, b :: rest, s => windowWrite (o + 1) rest (setWindowByte o b s)

/-- The access of `n` bytes at offset `o` covers the DOUT port (R176). -/
def coversDout (o n : Nat) : Bool := decide (o ≤ 0x84 ∧ 0x84 < o + n)

/-- `n` bytes read at window offset `o` and above; reading the DOUT port removes its first byte
(R176). -/
def windowRead (o n : Nat) (s : State) : State :=
  { s with
    rdata := (List.range n).map fun k => windowByte s (o + k),
    dout := if coversDout o n then s.dout.tail else s.dout }

/-- The command word a host action carries, as its bytes: four bytes written at offset 0x00 (10_state.md
R20, R177; log 8). -/
def commandBytes : HostAction → Option (List Byte)
  | .write off bytes => if off = 0#8 ∧ bytes.length = 4 then some bytes else none
  | .read _ _ | .reset | .openStore | .closeStore | .replaceStore _ | .settleFates _
  | .settleFullError _ => none

/-- An action on the store that the caller must not take while a session is Ready
(70_reset_and_hazards.md R162; log 11). -/
def outsideSession (change : State → Host.Outcome State Fault Refusal) (s : State) :
    Host.Outcome State Fault Refusal :=
  if s.fsm = .ready then .refused .storeChangedInSession else change s

/-- The caller presents an open store (70_reset_and_hazards.md R159), which LEN must be able to measure
(10_state.md R30; log 12). -/
def presentStore (bytes : List Byte) (s : State) : Host.Outcome State Fault Refusal :=
  if posLimit s ≤ bytes.length then .refused .storeTooLong
  else .next { s with store := Memory.ofBytes bytes, storeOpen := true }

/-- A host action that is no command (R176; 70_reset_and_hazards.md R156, R159, R160). -/
def hostAct (a : HostAction) (s : State) : Host.Outcome State Fault Refusal :=
  match a with
  | .write off bytes => .next (windowWrite off.toNat bytes s)
  | .read off n => .next (windowRead off.toNat n s)
  | .reset => .next (resetEngine s)
  | .openStore => .next { s with storeOpen := true }
  | .closeStore => outsideSession (fun s => .next (storeClose s)) s
  | .replaceStore bytes => outsideSession (presentStore bytes) s
  | .settleFates fates => .next { s with fates := s.fates ++ fates }
  | .settleFullError e => .next { s with fullError := e }

end Sys2Proof.Machine
end

