-- ==== Sys2Proof/Machine/Step.lean ====
section
/-! DEFINITION. One step: the engine takes the host's next action (10_state.md R14,
70_reset_and_hazards.md R173). -/

namespace Sys2Proof.Machine

/-- The host's next action: a command word is decoded and run, or is an `IllegalCommand`
(42_channel_commands.md R91); any other action is done. Without one the engine is idle and holds its
state (60_exceptions.md R152). -/
def step (s : State) : Host.Outcome State Fault Refusal :=
  match s.inbox with
  | [] => .next s
  | a :: rest =>
    match commandBytes a with
    | none => hostAct a { s with inbox := rest }
    | some bytes =>
      match decode bytes with
      | .ok (i, _) => exec i { s with inbox := rest }
      | .error _ => .next (illegalCommand { s with inbox := rest })

/-- The state whose next host action writes the table's word to CMD (30_encoding.md R177; log 1). -/
def State.withFetchWord (s : State) (nbits w : Nat) : State :=
  { s with inbox := .write 0#8 (wordBytes (BitVec.ofNat 32 (w % 2 ^ nbits))) :: s.inbox }

end Sys2Proof.Machine
end

