-- ==== Sys2Proof/Machine/Script.lean ====
section
/-! DEFINITION. The lines of a command script as host actions (30_encoding.md R188, R189). A line is
taken as already read: characters, comments and numerals are the host tool's. -/

namespace Sys2Proof.Machine

/-- A line of a script (30_encoding.md R188). -/
inductive ScriptLine where
  | keylen (n : Nat)
  | key (bytes : List Byte)
  | param (value : Block)
  | secsz (n : Int)
  | openSession (mode : Mode) (lo : Bool)
  | seekSet (n : Int)
  | seekCur (n : Int)
  | seekEnd (n : Int)
  | setpos (n : Int)
  | getpos
  | getlen
  | read (n : Nat)
  | write (bytes : List Byte)
  | flush
  | dispose
deriving DecidableEq, Repr

/-- The pseudo-command `loadkey HEX` (R189). -/
def ScriptLine.loadkey (bytes : List Byte) : List ScriptLine := [.keylen bytes.length, .key bytes]

/-- The pseudo-command `rewind` (R189). -/
def ScriptLine.rewind : ScriptLine := .seekSet 0

/-- The pseudo-command `tell` (R189). -/
def ScriptLine.tell : ScriptLine := .getpos

/-- The write of a whole 64-bit register, least significant byte lowest (20_memory.md R44). -/
def writeArg (v : DWord) : HostAction := .write 0x08#8 ((List.range 8).map (lane v))

/-- The operand writes of a line, in order (R188). -/
def ScriptLine.operandWrites : ScriptLine → List HostAction
  | .keylen n => [.write 0x18#8 (wordBytes (BitVec.ofNat 32 n))]
  | .key bytes => [.write 0x40#8 bytes]
  | .param value => [.write 0x20#8 (blockBytes value)]
  | .secsz n => [.write 0x1C#8 (wordBytes (BitVec.ofInt 32 n))]
  | .seekSet n | .seekCur n | .seekEnd n | .setpos n => [writeArg (BitVec.ofInt 64 n)]
  | .read n => [writeArg (BitVec.ofNat 64 n)]
  | .write bytes =>
    bytes.map (fun b => HostAction.write 0x80#8 [b]) ++ [writeArg (BitVec.ofNat 64 bytes.length)]
  | .openSession _ _ | .getpos | .getlen | .flush | .dispose => []

/-- The command a line writes to CMD, none for an operand line (R188). -/
def ScriptLine.command : ScriptLine → Option Instr
  | .keylen _ | .key _ | .param _ | .secsz _ => none
  | .openSession .ecb lo => some (.openEcb lo)
  | .openSession .cbc lo => some (.openCbc lo)
  | .openSession .ctr lo => some (.openCtr lo)
  | .openSession .xts lo => some (.openXts lo)
  | .seekSet _ => some .seekSet
  | .seekCur _ => some .seekCur
  | .seekEnd _ => some .seekEnd
  | .setpos _ => some .setpos
  | .getpos => some .getpos
  | .getlen => some .getlen
  | .read _ => some .read
  | .write _ => some .write
  | .flush => some .flush
  | .dispose => some .dispose

/-- The host actions of a line (R188). -/
def ScriptLine.actions (line : ScriptLine) : List HostAction :=
  line.operandWrites ++ (line.command.toList.map fun i => HostAction.write 0x00#8 (encode i))

/-- What the operand writes of a line leave in the registers (R188). -/
def ScriptLine.operands (line : ScriptLine) (s : State) : State :=
  match line with
  | .keylen n => { s with keylen := BitVec.ofNat 32 n }
  | .key bytes => { s with key := Vector.ofFn fun k => bytes.getD k.val s.key[k.val] }
  | .param value => { s with param := value }
  | .secsz n => { s with secsz := BitVec.ofInt 32 n }
  | .seekSet n | .seekCur n | .seekEnd n | .setpos n => { s with arg := BitVec.ofInt 64 n }
  | .read n => { s with arg := BitVec.ofNat 64 n }
  | .write bytes => { s with din := s.din ++ bytes, arg := BitVec.ofNat 64 bytes.length }
  | .openSession _ _ | .getpos | .getlen | .flush | .dispose => s

end Sys2Proof.Machine
end

