-- ==== Sys2Proof/Machine/View.lean ====
section
/-! DEFINITION. The plaintext view of a state (20_memory.md R49, R52, R53) as a pure function: what
READ would deliver if no store access failed. -/

namespace Sys2Proof.Machine

/-- The Cbc chaining value of block `b` over a store that holds `m`: the IV, or the ciphertext of block
`b - 1` (41_mode_engines.md R75, R77). -/
def chainIn (s : State) (m : Memory) (b : Nat) : Block :=
  if b = 0 then s.p0 else m.block (phys (b - 1))

/-- `ChainDec(b)` over the store as it stands (41_mode_engines.md R75). -/
def storedChain (s : State) (b : Nat) : Block := chainIn s s.store b

/-- `Dec(b, STORE block b)` with the store as it stands (41_mode_engines.md R71). -/
def storedPlain (s : State) (b : Nat) : Block :=
  decWith s b (storedChain s b) (s.store.block (phys b))

/-- `PlainBlock(b)` of the state (R52). -/
def plainOf (s : State) (b : Nat) : Block :=
  match s.cache.get b with
  | some p => p
  | none => if b < committedBlocks s then storedPlain s b else zeroBlock

/-- `View(p)` (R53). -/
def view (s : State) (p : Nat) : Byte := byteAt (plainOf s (blk p)) (off p)

/-- Block `b` is pending (R49). -/
def pending (s : State) (b : Nat) : Bool := (s.cache.get b).isSome

/-- Block `b` is committed (R49). -/
def committed (s : State) (b : Nat) : Bool := decide (b < committedBlocks s)

/-- Block `b` is a gap block (R49). -/
def gapBlock (s : State) (b : Nat) : Bool :=
  decide (committedBlocks s ≤ b) && !pending s b && decide (16 * b < s.len)

/-- The plaintext FLUSH commits for block `b`: the pending block, or zeros for a gap or padding block
(42_channel_commands.md R114, R115). -/
def commitPlain (s : State) (b : Nat) : Block := (s.cache.get b).getD zeroBlock

/-- What FLUSH writes for block `b` over a store that holds `m` (42_channel_commands.md R114). -/
def commitOne (s : State) (m : Memory) (b : Nat) : Memory :=
  m.setBlock (phys b) (encWith s b (chainIn s m b) (commitPlain s b))

/-- The store after the blocks of the list are committed in order (42_channel_commands.md R114). -/
def commitAll (s : State) (m : Memory) (blocks : List Nat) : Memory :=
  blocks.foldl (commitOne s) m

end Sys2Proof.Machine
end

