-- ==== Sys2Proof/Safety.lean ====
section
/-! DEFINITION. What a safe run is, and the invariants of a session (10_state.md R35) in the terms
statements use. -/

namespace Sys2Proof.Machine

/-- No step among the first `k` from `s` meets a model fault: the engine makes no store access outside
the store (20_memory.md R40, R41). -/
def SafeRun (k : Nat) (s : State) : Prop := ∀ f, Sys2Proof.core.run k s ≠ .fault f

/-- The invariants of a Ready session (10_state.md R35), I1 to I5, the open store (70_reset_and_hazards.md
R159) and the sector size (10_state.md R27). I2 in every mode is `LogicalLength`, I6 `CascadeComplete`,
I6' `ChainConsistent`, I7 `PositionsInRange`. -/
structure ReadyInv (s : State) : Prop where
  storeIsOpen : s.storeOpen = true
  /-- I1. -/
  cleanLength : s.cache = [] → s.len = storeLen s
  /-- I2', which holds in every mode. -/
  paddedLength : storeLen s ≤ newPhys s
  /-- I2, which outside Xts has no exception. -/
  logicalLength : s.mode ≠ .xts → storeLen s ≤ s.len
  /-- I3. -/
  wholeBlocks : storeLen s % 16 = 0
  /-- I3 in Xts. -/
  xtsStore : s.mode = .xts → 16 ≤ storeLen s
  /-- I4. -/
  lastPending : storeLen s < s.len → (s.len - 1) / 16 ∈ s.cache.dom
  /-- I5. -/
  pendingInside : ∀ b ∈ s.cache.dom, 16 * b < s.len
  /-- R27. -/
  sectorSize : s.mode = .xts → 0 < s.ss ∧ s.ss % 16 = 0

/-- The invariant of the machine: store and cache in canonical form, and a Ready session consistent. -/
structure Inv (s : State) : Prop where
  storeWf : s.store.wf = true
  cacheWf : s.cache.wf = true
  session : s.fsm = .ready → ReadyInv s

/-- I6' of 10_state.md R35 in the form a FLUSH rests on: in a Ready Cbc session, a pending block that
lies below a committed block which is not pending is already in the store as the ciphertext a FLUSH
would write for it now. -/
def ChainConsistent (s : State) : Prop :=
  s.fsm = .ready → s.mode = .cbc → ∀ b p, s.cache.get b = some p →
    (∃ b', b < b' ∧ b' < committedBlocks s ∧ s.cache.get b' = none) →
    s.store.block (phys b) = cbcEnc s.kd (storedChain s b) p

/-- I6 of 10_state.md R35: in a Ready Cbc session every committed block above a pending committed one
is pending. -/
def CascadeComplete (s : State) : Prop :=
  s.fsm = .ready → s.mode = .cbc → ∀ b b', b ∈ s.cache.dom → b < b' → b' < committedBlocks s →
    b' ∈ s.cache.dom

/-- In a Ready session the plaintext view is zero from LEN on: gap bytes and padding read 0x00 before
and after they become part of the stream (20_memory.md R53, 42_channel_commands.md R113, R115). -/
def ZeroBeyondLength (s : State) : Prop := s.fsm = .ready → ∀ p, s.len ≤ p → view s p = 0#8

/-- I2 of 10_state.md R35 in every mode. In Xts a FLUSH that fails after it appended padding blocks breaks
it until the retry, so it is no part of `ReadyInv`, which has I2' there. -/
def LogicalLength (s : State) : Prop := s.fsm = .ready → storeLen s ≤ s.len

/-- I7 of 10_state.md R35: in a Ready session POS and LEN are stream positions. The store's length, which
`OPEN` and `FLUSH` copy to LEN, is one in every state (10_state.md R30; log 12). -/
structure PositionsInRange (s : State) : Prop where
  store : storeLen s < posLimit s
  /-- I7. -/
  pos : s.fsm = .ready → s.pos < posLimit s
  /-- I7. -/
  len : s.fsm = .ready → s.len < posLimit s

/-- No coming store access is settled to fail (10_state.md R37 (b); log 2). -/
def StoreWorks (s : State) : Prop := ∀ f ∈ s.fates, f = Fate.succeeds

/-- The `OPEN` command of a mode (30_encoding.md R179). -/
def Mode.openCommand (mode : Mode) (lo : Bool) : Instr :=
  match mode with
  | .ecb => .openEcb lo
  | .cbc => .openCbc lo
  | .ctr => .openCtr lo
  | .xts => .openXts lo

/-- The command is one of the four `OPEN` (30_encoding.md R178). -/
def opens : Instr → Bool
  | .openEcb _ | .openCbc _ | .openCtr _ | .openXts _ => true
  | .seekSet | .seekCur | .seekEnd | .setpos | .getpos | .getlen
  | .read | .write | .flush | .dispose => false

/-- The session state that accepts a command (60_exceptions.md R142, R150). -/
def acceptingState (i : Instr) : Fsm := if opens i then .uninitialized else .ready

/-- The command is malformed by its payload or a capacity (42_channel_commands.md R91, 30_encoding.md
R183). -/
def malformed : Instr → State → Bool
  | .read, s => readMalformed s
  | .write, s => writeMalformed s
  | .openEcb _, _ | .openCbc _, _ | .openCtr _, _ | .openXts _, _ => false
  | .seekSet, _ | .seekCur, _ | .seekEnd, _ | .setpos, _ | .getpos, _ | .getlen, _ => false
  | .flush, _ | .dispose, _ => false

end Sys2Proof.Machine
end

