-- ==== Sys2Proof/Certificates/Slice0/Obligations.lean ====
section
/-! DEFINITION. The statements for the provers. A statement about what a command leaves gives the whole
next state as an update of the state before, so that its frame is every field it does not name; `fr`
is what remains of the store outcomes (log 2: how many accesses a command makes is the model's, so no
statement says which remain). -/

section Slice0Statements

open Sys2Proof Sys2Proof.Machine

/-! ### Encoding -/

/-- Decoding and encoding agree, for every word and every command (30_encoding.md R177 to R181, R186). -/
def Obligations.DecodeAndEncodeAgree : Prop :=
  (∀ (w : Word) (i : Instr), decodeWord w = .ok i ↔ w = encodeWord i)
  ∧ ∀ (i : Instr) (rest : List Byte), decode (encode i ++ rest) = .ok (i, rest)

/-- 30_encoding.md R184, with the fields taken from the word by arithmetic: a legal word runs a command,
any other word is an `IllegalCommand` that changes no other state, in every FSM state. -/
def Obligations.LegalWordsAreTheCommands : Prop :=
  ∀ (w : Word) (s : State) (rest : List HostAction),
    s.inbox = .write 0#8 (wordBytes w) :: rest →
    let opc := w.toNat % 256
    let sub := w.toNat / 256 % 4
    let lo := w.toNat / 1024 % 2
    let legal := w.toNat / 2048 = 0 ∧ 1 ≤ opc ∧ opc ≤ 9 ∧ (opc ≠ 1 → lo = 0)
      ∧ (opc ≠ 1 ∧ opc ≠ 2 → sub = 0) ∧ (opc = 2 → sub ≠ 3)
    (legal → ∃ i, decodeWord w = .ok i ∧ step s = exec i { s with inbox := rest })
    ∧ (¬ legal → step s = .next
        { s with inbox := rest, lastErr := .illegalCommand, result := 0#64, din := [], dout := [] })

/-- The eighteen legal words and some illegal ones (95_test_vectors.md VD1, VD2; 30_encoding.md R186). -/
def Obligations.SpecWordsDecode : Prop :=
  [0x001, 0x401, 0x101, 0x501, 0x201, 0x601, 0x301, 0x701, 0x002, 0x102, 0x202, 0x003, 0x004, 0x005,
    0x006, 0x007, 0x008, 0x009].map (fun w => decodeTableWord 32 w)
    = [.openEcb false, .openEcb true, .openCbc false, .openCbc true, .openCtr false, .openCtr true,
        .openXts false, .openXts true, .seekSet, .seekCur, .seekEnd, .setpos, .getpos, .getlen,
        .read, .write, .flush, .dispose].map some
  ∧ [0x000, 0x302, 0x406, 0x107, 0x809, 0x00A, 0xFFFFFFFF].map (fun w => decodeTableWord 32 w)
    = List.replicate 7 none

/-- A step whose next host action writes a decodable word to CMD is the command's meaning on the state
with that action taken (10_state.md R20); without an action the engine holds its state (60_exceptions.md
R152). -/
def Obligations.StepRunsTheDecodedCommand : Prop :=
  (∀ (s : State) (bytes : List Byte) (rest : List HostAction) (i : Instr),
    s.inbox = .write 0#8 bytes :: rest → decode bytes = .ok (i, []) →
    step s = exec i { s with inbox := rest })
  ∧ ∀ s : State, s.inbox = [] → step s = .next s

/-! ### Reset -/

/-- The reset input puts every piece of engine state at the value of 10_state.md R36 and does not touch
the store (70_reset_and_hazards.md R156, R158). Nothing is said of KD, KT, P0, SS (R157; log 3). -/
def Obligations.ResetInputRestoresTheEngine : Prop :=
  ∀ (s : State) (rest : List HostAction), s.inbox = .reset :: rest →
    ∃ t, step s = .next t
      ∧ t.keylen = 0#32 ∧ t.key = Vector.replicate 64 0#8 ∧ t.param = zeroBlock ∧ t.secsz = 0#32
      ∧ t.arg = 0#64 ∧ t.result = 0#64 ∧ statusWord t = 0#32 ∧ t.lastErr = .ok
      ∧ t.fsm = .uninitialized ∧ t.mode = .ecb ∧ t.lo = false ∧ t.pos = 0 ∧ t.len = 0
      ∧ t.cache = [] ∧ t.din = [] ∧ t.dout = []
      ∧ t.store = s.store ∧ t.storeOpen = s.storeOpen

/-- The state after reset has the register values of 10_state.md R36 and the parameters those of 00_scope.md
R9 (unbounded capacities are `none`). -/
def Obligations.ResetStateHasTheSpecValues : Prop :=
  let t := State.reset
  t.keylen = 0#32 ∧ t.key = Vector.replicate 64 0#8 ∧ t.param = zeroBlock ∧ t.secsz = 0#32
    ∧ t.arg = 0#64 ∧ t.result = 0#64 ∧ statusWord t = 0#32 ∧ t.fsm = .uninitialized
    ∧ t.mode = .ecb ∧ t.lo = false ∧ t.pos = 0 ∧ t.len = 0 ∧ t.cache = [] ∧ t.din = [] ∧ t.dout = []
    ∧ t.posBits = 63 ∧ t.secszBits = 32 ∧ t.keylenBits = 32 ∧ t.sidOrder = .little
    ∧ t.cacheCap = none ∧ t.bufCap = none

/-! ### OPEN -/

/-- 42_channel_commands.md R92: the three checks on the operand registers and the store's length, the
session a passing `OPEN` latches, and the rejection (R98). KD and KT are given by their bytes (10_state.md
R25); KT and SS are assigned in Xts only, so another `OPEN` leaves them (log 18). -/
def Obligations.OpenLatchesOrRejects : Prop :=
  ∀ (mode : Mode) (lo : Bool) (s : State), s.fsm = .uninitialized → s.storeOpen = true →
    let n := (s.keylen.setWidth s.keylenBits).toNat
    let size := (s.secsz.signExtend s.secszBits).toInt
    let half := if mode = .xts then n / 2 else n
    let accepted := (if mode = .xts then n = 32 ∨ n = 64 else n = 16 ∨ n = 32)
      ∧ (mode = .xts → 0 < size ∧ size % 16 = 0 ∧ 16 ≤ s.store.len)
      ∧ s.store.len % 16 = 0
    (accepted → ∃ kd kt, exec (mode.openCommand lo) s = .next
        { s with mode := mode, lo := lo, kd := kd, kt := kt, p0 := s.param,
                 ss := if mode = .xts then size.toNat else s.ss,
                 pos := 0, len := s.store.len, cache := [], fsm := .ready,
                 lastErr := .ok, result := 0#64, din := [], dout := [] }
      ∧ kd.bytes = s.key.toList.take half
      ∧ (mode = .xts → kt.bytes = (s.key.toList.drop half).take half)
      ∧ (mode ≠ .xts → kt = s.kt))
    ∧ (¬ accepted → exec (mode.openCommand lo) s = .next
        { s with fsm := .rejected, lastErr := .configurationError, result := 0#64,
                 din := [], dout := [] })

/-- The model's choice for a broken duty of the host (log 10; 93_implementation_defined.md U10): an
`OPEN` over a closed store is refused when its key and sector checks pass, and rejected as always when
they do not. -/
def Obligations.OpenOverAClosedStore : Prop :=
  ∀ (mode : Mode) (lo : Bool) (s : State), s.fsm = .uninitialized → s.storeOpen = false →
    (operandsOk mode s = true → exec (mode.openCommand lo) s = .refused .storeNotOpen)
    ∧ (operandsOk mode s = false → exec (mode.openCommand lo) s = .next
        { s with fsm := .rejected, lastErr := .configurationError, result := 0#64,
                 din := [], dout := [] })

/-! ### The frame of a command -/

/-- 60_exceptions.md R142: a legal command that is not malformed, in a state that does not accept it,
is a `StateError` with no effect; and no other command is. -/
def Obligations.StateErrorExactlyInOtherStates : Prop :=
  (∀ (i : Instr) (s : State), malformed i s = false → s.fsm ≠ acceptingState i →
    exec i s = .next { s with lastErr := .stateError, result := 0#64, din := [], dout := [] })
  ∧ ∀ (i : Instr) (s t : State), exec i s = .next t → t.lastErr = .stateError →
    malformed i s = false ∧ s.fsm ≠ acceptingState i

/-- 30_encoding.md R183 and 00_scope.md R10: a `WRITE` whose DIN is not exactly its count, and a `READ`
or `WRITE` whose count exceeds a finite BUF_CAP, is an `IllegalCommand` in every FSM state. -/
def Obligations.MalformedPayloadIsIllegal : Prop :=
  (∀ s : State, s.din.length ≠ s.arg.toNat → exec .write s = .next
    { s with lastErr := .illegalCommand, result := 0#64, din := [], dout := [] })
  ∧ ∀ (i : Instr) (s : State) (cap : Nat), i = .read ∨ i = .write → s.bufCap = some cap →
    cap < s.arg.toNat → exec i s = .next
      { s with lastErr := .illegalCommand, result := 0#64, din := [], dout := [] }

/-- The transition table of 60_exceptions.md R150, with the fault each entry names, and the illegal
words beside it. -/
def Obligations.SessionStateTransitions : Prop :=
  (∀ (i : Instr) (s t : State), exec i s = .next t → malformed i s = false →
    (s.fsm = .uninitialized → opens i = true →
      (t.fsm = .ready ∧ t.lastErr = .ok) ∨ (t.fsm = .rejected ∧ t.lastErr = .configurationError))
    ∧ (s.fsm = .ready → i = .dispose →
      (t.fsm = .disposed ∧ t.lastErr = .ok) ∨ (t.fsm = .ready ∧ t.lastErr = .ioError))
    ∧ (s.fsm = .ready → opens i = false → i ≠ .dispose → t.fsm = .ready ∧ t.lastErr ≠ .stateError)
    ∧ (s.fsm ≠ acceptingState i → t.fsm = s.fsm ∧ t.lastErr = .stateError))
  ∧ (∀ (i : Instr) (s t : State), exec i s = .next t → malformed i s = true →
      t.fsm = s.fsm ∧ t.lastErr = .illegalCommand)
  ∧ ∀ (s t : State) (bytes : List Byte) (rest : List HostAction) (e : DecodeError),
      s.inbox = .write 0#8 bytes :: rest → bytes.length = 4 → decode bytes = .error e →
      step s = .next t → t.fsm = s.fsm ∧ t.lastErr = .illegalCommand

/-- "Reset is the only transition out of Rejected and Disposed" (70_reset_and_hazards.md R156), over
every host action. -/
def Obligations.OnlyResetLeavesTerminalStates : Prop :=
  ∀ (s t : State) (a : HostAction) (rest : List HostAction), s.inbox = a :: rest → a ≠ .reset →
    s.fsm = .rejected ∨ s.fsm = .disposed → step s = .next t → t.fsm = s.fsm

/-! ### Positioning -/

/-- 42_channel_commands.md R102 to R106: the new position of `SEEK` and `SETPOS`, its range check, and
that nothing else changes. -/
def Obligations.SeekAndSetposMoveTheCursor : Prop :=
  ∀ (i : Instr) (s : State) (n : Int), s.fsm = .ready →
    ((i = .seekSet ∨ i = .setpos) ∧ n = s.arg.toInt) ∨ (i = .seekCur ∧ n = s.pos + s.arg.toInt)
      ∨ (i = .seekEnd ∧ n = s.len + s.arg.toInt) →
    exec i s = .next (if 0 ≤ n ∧ n < 2 ^ s.posBits
      then { s with pos := n.toNat, lastErr := .ok, result := BitVec.ofInt 64 n, din := [], dout := [] }
      else { s with lastErr := .argumentError, result := 0#64, din := [], dout := [] })

/-- 42_channel_commands.md R107, R108: `GETPOS` and `GETLEN` report POS and LEN and change nothing. -/
def Obligations.GetposAndGetlenReport : Prop :=
  ∀ s : State, s.fsm = .ready →
    exec .getpos s = .next
      { s with lastErr := .ok, result := BitVec.ofNat 64 s.pos, din := [], dout := [] }
    ∧ exec .getlen s = .next
      { s with lastErr := .ok, result := BitVec.ofNat 64 s.len, din := [], dout := [] }

/-! ### READ -/

/-- `READ` over a working store returns the bytes of `View` (20_memory.md R53, R56; 42_channel_commands.md
R109): `count` bytes into DOUT, POS advanced, and nothing else. -/
def Obligations.ReadReturnsTheView : Prop :=
  ∀ s : State, s.fsm = .ready → readMalformed s = false → StoreWorks s →
    0 < s.arg.toNat → s.pos + s.arg.toNat ≤ s.len →
    ∃ fr, fr <:+ s.fates ∧ exec .read s = .next
      { s with dout := (List.range s.arg.toNat).map (fun k => view s (s.pos + k)),
               pos := s.pos + s.arg.toNat, fates := fr,
               lastErr := .ok, result := s.arg, din := [] }

/-- 60_exceptions.md R139: exactly which command is an `EndOfStreamError`, and that it has no effect and
makes no store access. -/
def Obligations.EndOfStreamExactlyPastTheLength : Prop :=
  (∀ s : State, s.fsm = .ready → readMalformed s = false → 0 < s.arg.toNat →
    s.len < s.pos + s.arg.toNat → exec .read s = .next
      { s with lastErr := .endOfStreamError, result := 0#64, din := [], dout := [] })
  ∧ ∀ (i : Instr) (s t : State), exec i s = .next t → t.lastErr = .endOfStreamError →
    i = .read ∧ 0 < s.arg.toNat ∧ s.len < s.pos + s.arg.toNat

/-! ### WRITE -/

/-- `WRITE` over a working store (42_channel_commands.md R111, R112; 20_memory.md R53 (a)): the written
bytes are in the view and no other byte of it changes; the touched blocks, in Cbc with every later
committed block, are pending; LEN and POS move; and nothing else. A finite CACHE_CAP does not enter as
long as the blocks this adds do not exceed it (00_scope.md R10). -/
def Obligations.WriteOverlaysTheView : Prop :=
  ∀ s : State, s.fsm = .ready → s.din.length = s.arg.toNat → writeMalformed s = false →
    StoreWorks s → 0 < s.arg.toNat → s.pos + s.arg.toNat < 2 ^ s.posBits →
    let count := s.arg.toNat
    let first := s.pos / 16
    let last := if s.mode = .cbc then max ((s.pos + count - 1) / 16) (s.store.len / 16 - 1)
      else (s.pos + count - 1) / 16
    let added := ((List.range' first (last + 1 - first)).filter fun b => decide (b ∉ s.cache.dom)).length
    (∀ cap, s.cacheCap = some cap → s.cache.length + added ≤ cap) →
    ∃ c fr, fr <:+ s.fates ∧ exec .write s = .next
        { s with cache := c, len := max s.len (s.pos + count), pos := s.pos + count, fates := fr,
                 lastErr := .ok, result := 0#64, din := [], dout := [] }
      ∧ (s.cache.wf = true → c.wf = true)
      ∧ (∀ b, b ∈ c.dom ↔ b ∈ s.cache.dom ∨ (first ≤ b ∧ b ≤ last))
      ∧ ∀ p, view { s with cache := c } p
          = if s.pos ≤ p ∧ p < s.pos + count then s.din.getD (p - s.pos) 0#8 else view s p

/-- 42_channel_commands.md R110 (a), R113 (a): a `READ` or `WRITE` of no bytes succeeds at any POS and
changes nothing. -/
def Obligations.EmptyTransfersChangeNothing : Prop :=
  ∀ (i : Instr) (s : State), i = .read ∨ (i = .write ∧ s.din = []) → s.fsm = .ready → s.arg = 0#64 →
    exec i s = .next { s with lastErr := .ok, result := 0#64, din := [], dout := [] }

/-- 42_channel_commands.md R111 and 60_exceptions.md R143: a `WRITE` that would end at or past 2^63, the
limit POS_BITS sets, is an `ArgumentError` and changes nothing. -/
def Obligations.WritePastTheLastPosition : Prop :=
  ∀ s : State, s.fsm = .ready → writeMalformed s = false → 0 < s.arg.toNat →
    2 ^ s.posBits ≤ s.pos + s.arg.toNat → exec .write s = .next
      { s with lastErr := .argumentError, result := 0#64, din := [], dout := [] }

/-- 00_scope.md R10 with a finite CACHE_CAP: a `WRITE` that would make more blocks pending than it is an
`IllegalCommand` that evicts nothing and changes no state; one that would not succeeds. -/
def Obligations.CacheCapacityIsNeverExceeded : Prop :=
  ∀ (s : State) (cap : Nat), s.cache.wf = true → s.fsm = .ready → writeMalformed s = false →
    s.cacheCap = some cap → StoreWorks s → 0 < s.arg.toNat → s.pos + s.arg.toNat < 2 ^ s.posBits →
    let first := s.pos / 16
    let touched := (s.pos + s.arg.toNat - 1) / 16
    let last := if s.mode = .cbc then max touched (s.store.len / 16 - 1) else touched
    let added := ((List.range' first (last + 1 - first)).filter fun b => decide (b ∉ s.cache.dom)).length
    (cap < s.cache.length + added → ∃ fr, fr <:+ s.fates ∧ exec .write s = .next
      { s with fates := fr, lastErr := .illegalCommand, result := 0#64, din := [], dout := [] })
    ∧ (s.cache.length + added ≤ cap → ∃ t, exec .write s = .next t ∧ t.lastErr = .ok
        ∧ t.cache.length = s.cache.length + added)

/-! ### FLUSH -/

/-- `FLUSH` of a consistent session over a working store (42_channel_commands.md R114, R115): the store
becomes NEWPHYS bytes long, where LEN can hold that length (10_state.md R30; log 12); every pending, gap and padding block holds the encryption of its plaintext
(zeros where it was not pending), chained in Cbc to the block below it in the new store; every other
block keeps its bytes; CACHE is empty, LEN is the new length; and nothing else changes. -/
def Obligations.FlushCommitsTheStream : Prop :=
  ∀ s : State, Inv s → s.fsm = .ready → s.cache ≠ [] → StoreWorks s → newPhys s < 2 ^ s.posBits →
    ∃ m fr, fr <:+ s.fates ∧ exec .flush s = .next
        { s with store := m, cache := [], len := newPhys s, fates := fr,
                 lastErr := .ok, result := 0#64, din := [], dout := [] }
      ∧ m.wf = true ∧ m.len = newPhys s
      ∧ ∀ b, 16 * b < newPhys s → m.block (16 * b)
          = if b ∈ s.cache.dom ∨ s.store.len ≤ 16 * b
            then encWith s b (if b = 0 then s.p0 else m.block (16 * (b - 1)))
              ((s.cache.get b).getD zeroBlock)
            else s.store.block (16 * b)

/-- 42_channel_commands.md R117: a `FLUSH` with an empty cache makes no store access and changes nothing
but the result of the command. -/
def Obligations.FlushOfAnEmptyCache : Prop :=
  ∀ s : State, s.fsm = .ready → s.cache = [] →
    exec .flush s = .next { s with lastErr := .ok, result := 0#64, din := [], dout := [] }

/-- 42_channel_commands.md R115: the commit set is every pending block and every block from the old end
of the store to the new one, and it is listed in strictly ascending order (R114). -/
def Obligations.CommitSetIsPendingAndNewBlocks : Prop :=
  ∀ s : State, Inv s → s.fsm = .ready →
    (commitSet s).Pairwise (· < ·)
    ∧ ∀ b, b ∈ commitSet s ↔ b ∈ s.cache.dom ∨ (s.store.len / 16 ≤ b ∧ b < newPhys s / 16)

/-- 42_channel_commands.md R116 and 20_memory.md R57: a `FLUSH` of a consistent session that does not
succeed is an `IoError` of a failing access, or of a write that would make the store longer than LEN can
hold (log 12); a strict prefix of the commit set, in ascending order, has
been committed; CACHE, LEN, POS and every register are as before the command. -/
def Obligations.FailedFlushCommitsAPrefix : Prop :=
  ∀ s t : State, Inv s → s.fsm = .ready → exec .flush s = .next t → t.lastErr ≠ .ok →
    ∃ n fr e, n < (commitSet s).length ∧ fr <:+ s.fates
      ∧ (Fate.fails e ∈ s.fates ∨ (e = s.fullError ∧ 2 ^ s.posBits ≤ newPhys s))
      ∧ t = { s with store := commitAll s s.store ((commitSet s).take n), fates := fr,
                     lastErr := .ioError, result := e, din := [], dout := [] }
      ∧ (∀ b ∈ (commitSet s).take n, t.store.block (16 * b)
          = encWith s b (chainIn s t.store b) ((s.cache.get b).getD zeroBlock))
      ∧ ∀ b, b ∉ (commitSet s).take n → t.store.block (16 * b) = s.store.block (16 * b)

/-- 20_memory.md R53 (b) and 70_reset_and_hazards.md R167: a `FLUSH`, successful or failed, changes no
byte of the plaintext view of a consistent session. -/
def Obligations.FlushPreservesTheView : Prop :=
  ∀ s t : State, Inv s → ChainConsistent s → s.fsm = .ready → exec .flush s = .next t →
    ∀ p, view t p = view s p

/-- 42_channel_commands.md R116: when a retried `FLUSH` succeeds, "the store is what an unfailed FLUSH
would have left". -/
def Obligations.RetriedFlushLeavesTheSameStore : Prop :=
  ∀ s t u v : State, ∀ fr : List Fate, Inv s → ChainConsistent s → s.fsm = .ready →
    exec .flush s = .next t → t.lastErr = .ioError →
    exec .flush t = .next u → u.lastErr = .ok →
    exec .flush { s with fates := fr } = .next v → v.lastErr = .ok →
    u.store = v.store ∧ u.len = v.len

/-- 20_memory.md R58: after a successful `FLUSH` every committed block of the store decrypts to the
plaintext the session had, and nothing is pending. -/
def Obligations.FlushedStoreHoldsTheStream : Prop :=
  ∀ s t : State, Inv s → ChainConsistent s → s.fsm = .ready → exec .flush s = .next t →
    t.lastErr = .ok → t.cache = [] ∧ t.len = t.store.len
      ∧ ∀ b, 16 * b < t.store.len →
        decWith t b (storedChain t b) (t.store.block (16 * b)) = plainOf s b

/-- 20_memory.md R41, R55 and 42_channel_commands.md R122: only `FLUSH` and `DISPOSE` change the store,
and of a consistent session's store they change no byte outside the blocks of the commit set. -/
def Obligations.StoreChangesOnlyInTheCommitSet : Prop :=
  ∀ (i : Instr) (s t : State), exec i s = .next t →
    (i ≠ .flush → i ≠ .dispose → t.store = s.store)
    ∧ (Inv s → ∀ a, a < s.store.len → a / 16 ∉ commitSet s → t.store.byte a = s.store.byte a)

/-! ### DISPOSE -/

/-- 42_channel_commands.md R118, R119: `DISPOSE` is an implicit `FLUSH`; when that fails it ends as the
`FLUSH` does, session and store open; when it succeeds the store is closed unless LO is set and FSM is
Disposed. -/
def Obligations.DisposeFlushesThenCloses : Prop :=
  ∀ s t : State, s.fsm = .ready → exec .flush s = .next t →
    exec .dispose s = .next (if t.lastErr = .ok
      then { t with fsm := .disposed, storeOpen := t.storeOpen && t.lo } else t)

/-- `DISPOSE` of a consistent session over a working store completes (42_channel_commands.md R118), where
LEN can hold the length its `FLUSH` gives the store (10_state.md R30; log 12). -/
def Obligations.DisposeCompletes : Prop :=
  ∀ s : State, Inv s → s.fsm = .ready → StoreWorks s → (s.cache ≠ [] → newPhys s < 2 ^ s.posBits) →
    ∃ m fr n, fr <:+ s.fates ∧ exec .dispose s = .next
        { s with store := m, storeOpen := s.lo, cache := [], len := n, fates := fr, fsm := .disposed,
                 lastErr := .ok, result := 0#64, din := [], dout := [] }
      ∧ m.len = n ∧ n = if s.cache = [] then s.store.len else newPhys s

/-- 42_channel_commands.md R121: a session that ends with a successful `DISPOSE`, and a new session over
the same store with the same mode, keys, parameter and sector size, have the same plaintext view. -/
def Obligations.StreamPersistsAcrossSessions : Prop :=
  ∀ s t u v : State, ∀ lo : Bool, Inv s → ChainConsistent s → s.fsm = .ready →
    exec .dispose s = .next t → t.lastErr = .ok →
    u.store = t.store → exec (s.mode.openCommand lo) u = .next v → v.lastErr = .ok →
    v.kd = s.kd → v.p0 = s.p0 → (s.mode = .xts → v.kt = s.kt ∧ v.ss = s.ss ∧ v.sidOrder = s.sidOrder) →
    v.len = t.len ∧ ∀ p, view v p = view s p

/-! ### Invariants -/

/-- The invariants I1 to I5 of 10_state.md R35, with the canonical forms of store and cache, are kept by
every step from every state that meets them. -/
def Obligations.InvariantKeptByEveryStep : Prop :=
  ∀ s t : State, Inv s → step s = .next t → Inv t

/-- The state after reset meets every invariant; its empty open store is the model's (log 4). -/
def Obligations.InvariantsHoldAtReset : Prop :=
  Inv State.reset ∧ ChainConsistent State.reset ∧ CascadeComplete State.reset
    ∧ ZeroBeyondLength State.reset ∧ PositionsInRange State.reset ∧ LogicalLength State.reset

/-- The engine never accesses the store outside its bounds (20_memory.md R40, R41): no run from a state
that meets the invariant meets the model's fault. -/
def Obligations.NoAccessOutsideTheStore : Prop :=
  ∀ (s : State) (k : Nat), Inv s → SafeRun k s

/-- I6' of 10_state.md R35 is kept by every step, failed `FLUSH`es included. -/
def Obligations.ChainConsistencyKept : Prop :=
  ∀ s t : State, Inv s → ChainConsistent s → step s = .next t → ChainConsistent t

/-- I6 and I2 of 10_state.md R35 are kept by every step but the exceptions R35 names: I6 by all but a
`FLUSH` or `DISPOSE` that ends in `IoError` and changed the store; I2 by all but one that appended blocks
beyond LEN; and after a successful `FLUSH` I2 holds again. -/
def Obligations.CascadeAndLengthKeptWithoutIoError : Prop :=
  (∀ s t : State, Inv s → CascadeComplete s → step s = .next t →
    (t.lastErr ≠ .ioError ∨ t.store = s.store) → CascadeComplete t)
  ∧ (∀ s t : State, Inv s → LogicalLength s → step s = .next t →
    (t.lastErr ≠ .ioError ∨ t.store.len ≤ s.len) → LogicalLength t)
  ∧ ∀ s t : State, Inv s → s.fsm = .ready → exec .flush s = .next t → t.lastErr = .ok →
    t.fsm = .ready ∧ LogicalLength t

/-- 42_channel_commands.md R113 (c), R115 and 20_memory.md R53: the plaintext beyond LEN is zero, so that
gaps and padding read 0x00; every step keeps it. -/
def Obligations.ZeroBeyondLengthKept : Prop :=
  ∀ s t : State, Inv s → ChainConsistent s → ZeroBeyondLength s → step s = .next t →
    ZeroBeyondLength t

/-- I7 of 10_state.md R35: in a Ready session POS and LEN lie in the range of stream positions, and every
step keeps it, from every state whose store is as short. That a store is and stays so short is the
model's (log 12), and is kept with it. -/
def Obligations.PositionAndLengthStayInRange : Prop :=
  ∀ s t : State, PositionsInRange s → step s = .next t →
    PositionsInRange t
      ∧ (t.fsm = .ready → t.pos < 2 ^ t.posBits ∧ t.len < 2 ^ t.posBits)

/-- 10_state.md R15 to R19: no command changes an operand register, nor the actions the host has yet to
take, what it last read or the error value of a full store, and each empties DIN (10_state.md R32); and no step whatever changes a
parameter (00_scope.md R9). -/
def Obligations.CommandsKeepOperandRegisters : Prop :=
  (∀ (i : Instr) (s t : State), exec i s = .next t →
    t.keylen = s.keylen ∧ t.key = s.key ∧ t.param = s.param ∧ t.secsz = s.secsz ∧ t.arg = s.arg
      ∧ t.inbox = s.inbox ∧ t.rdata = s.rdata ∧ t.fullError = s.fullError ∧ t.din = [])
  ∧ ∀ s t : State, step s = .next t →
    t.posBits = s.posBits ∧ t.secszBits = s.secszBits ∧ t.keylenBits = s.keylenBits
      ∧ t.sidOrder = s.sidOrder ∧ t.cacheCap = s.cacheCap ∧ t.bufCap = s.bufCap

/-- 10_state.md R24 to R28 and 42_channel_commands.md R97: the session registers are constant while a
session is Ready, whatever the host does short of a reset. -/
def Obligations.SessionRegistersAreConstant : Prop :=
  ∀ (s t : State) (a : HostAction) (rest : List HostAction), s.inbox = a :: rest → a ≠ .reset →
    s.fsm = .ready → step s = .next t →
    t.mode = s.mode ∧ t.kd = s.kd ∧ t.kt = s.kt ∧ t.p0 = s.p0 ∧ t.ss = s.ss ∧ t.lo = s.lo

/-! ### Faults -/

/-- The table of 60_exceptions.md R146: what a command that ends in a fault changes. -/
def Obligations.FaultsChangeOnlyTheTable : Prop :=
  ∀ (i : Instr) (s t : State), exec i s = .next t → t.lastErr ≠ .ok →
    t = { s with lastErr := t.lastErr, result := t.result, din := [], dout := [],
                 fates := t.fates, fsm := t.fsm, store := t.store }
    ∧ t.fates <:+ s.fates
    ∧ (t.fsm ≠ s.fsm → opens i = true ∧ t.lastErr = .configurationError ∧ t.fsm = .rejected)
    ∧ (t.store ≠ s.store → (i = .flush ∨ i = .dispose) ∧ t.lastErr = .ioError)

/-- 60_exceptions.md R141: an `IoError` carries, bit for bit, an error value the store reports (in a `FLUSH`
or `DISPOSE` also the one for a write it has no room for, log 12), and is raised by `READ`, `WRITE`, `FLUSH` and `DISPOSE` only; every other fault records 0 (R136). -/
def Obligations.IoErrorCarriesTheStoreValue : Prop :=
  ∀ (i : Instr) (s t : State), exec i s = .next t →
    (t.lastErr = .ioError →
      (i = .read ∨ i = .write ∨ i = .flush ∨ i = .dispose)
        ∧ (Fate.fails t.result ∈ s.fates
          ∨ ((i = .flush ∨ i = .dispose) ∧ t.result = s.fullError)))
    ∧ (t.lastErr ≠ .ok → t.lastErr ≠ .ioError → t.result = 0#64)

/-- 60_exceptions.md R137: a `ConfigurationError` is raised by an `OPEN` in Uninitialized only, and none
by any other command. -/
def Obligations.ArgumentAndConfigurationErrors : Prop :=
  ∀ (i : Instr) (s t : State), exec i s = .next t →
    (t.lastErr = .configurationError → opens i = true ∧ s.fsm = .uninitialized)
    ∧ (t.lastErr = .argumentError → s.fsm = .ready
        ∧ (i = .seekSet ∨ i = .seekCur ∨ i = .seekEnd ∨ i = .setpos ∨ i = .write))

/-- A failing store access ends the command with `IoError` (60_exceptions.md R141, R146;
42_channel_commands.md R109, R111, R116, R119). When the next access fails with `e`, RESULT becomes `e` and
nothing else changes: for a `READ` or `WRITE` that has to read some block (a touched or, in Cbc, a later
one, committed and not pending), and for a `FLUSH` or `DISPOSE` of a consistent session with pending
blocks. And a `FLUSH`, which writes each member of the commit set once, ends with `IoError` when any of
its first so many accesses fails, or when the store it would leave is longer than LEN can hold (log 12). -/
def Obligations.FailingAccessEndsTheCommand : Prop :=
  (∀ (s : State) (e : DWord) (rest : List Fate), s.fsm = .ready → s.fates = .fails e :: rest →
    let count := s.arg.toNat
    let first := s.pos / 16
    let touched := (s.pos + count - 1) / 16
    let last := if s.mode = .cbc then max touched (s.store.len / 16 - 1) else touched
    let failed := { s with fates := rest, lastErr := .ioError, result := e, din := [], dout := [] }
    (readMalformed s = false → 0 < count → s.pos + count ≤ s.len →
      (∃ b, first ≤ b ∧ b ≤ touched ∧ s.cache.get b = none ∧ b < s.store.len / 16) →
      exec .read s = .next failed)
    ∧ (writeMalformed s = false → 0 < count → s.pos + count < 2 ^ s.posBits →
      (∃ b, first ≤ b ∧ b ≤ last ∧ s.cache.get b = none ∧ b < s.store.len / 16) →
      exec .write s = .next failed)
    ∧ (Inv s → s.cache ≠ [] → exec .flush s = .next failed ∧ exec .dispose s = .next failed))
  ∧ ∀ s : State, Inv s → s.fsm = .ready → s.cache ≠ [] →
    (∃ e, Fate.fails e ∈ s.fates.take (commitSet s).length)
      ∨ (s.store.len < 2 ^ s.posBits ∧ 2 ^ s.posBits ≤ newPhys s) →
    ∃ t, exec .flush s = .next t ∧ t.lastErr = .ioError

/-! ### The register window -/

/-- The fields of STATUS (10_state.md R21). -/
def Obligations.StatusShowsItsFields : Prop :=
  ∀ s : State,
    (statusWord s).extractLsb' 0 2 = (match s.fsm with
      | .uninitialized => 0#2 | .ready => 1#2 | .rejected => 2#2 | .disposed => 3#2)
    ∧ (statusWord s).extractLsb' 2 2 = (if s.fsm = .uninitialized ∨ s.fsm = .rejected then 0#2
      else match s.mode with | .ecb => 0#2 | .cbc => 1#2 | .ctr => 2#2 | .xts => 3#2)
    ∧ (statusWord s).getLsbD 4 = (if s.fsm = .uninitialized ∨ s.fsm = .rejected then false else s.lo)
    ∧ (statusWord s).getLsbD 5 = decide (s.cache.dom ≠ [])
    ∧ (statusWord s).extractLsb' 6 2 = 0#2
    ∧ (statusWord s).extractLsb' 8 8 = (match s.lastErr with
      | .ok => 0#8 | .configurationError => 1#8 | .endOfStreamError => 2#8 | .ioError => 3#8
      | .stateError => 4#8 | .argumentError => 5#8 | .illegalCommand => 6#8)
    ∧ (statusWord s).extractLsb' 16 16 = 0#16

/-- 30_encoding.md R176: a register write that is no command never faults, in any FSM state, and changes
nothing but operand registers and DIN; each byte of a register, KEY among them, stays unless its own
offset is written, and DIN unless its port is; so a write outside them changes nothing at all. For
accesses that are not one whole register this is the model's reading (log 8). -/
def Obligations.WindowWritesTouchOnlyOperands : Prop :=
  ∀ (s : State) (o : BitVec 8) (bytes : List Byte) (rest : List HostAction),
    s.inbox = .write o bytes :: rest → commandBytes (.write o bytes) = none →
    ∃ t, step s = .next t
      ∧ t = { s with inbox := rest, keylen := t.keylen, key := t.key, param := t.param,
                     secsz := t.secsz, arg := t.arg, din := t.din }
      ∧ (∀ j, o.toNat + bytes.length ≤ j ∨ j < o.toNat → j < 256 →
          windowByte t j = windowByte s j)
      ∧ (∀ k (hk : k < 64), o.toNat + bytes.length ≤ 0x40 + k ∨ 0x40 + k < o.toNat → t.key[k] = s.key[k])
      ∧ (o.toNat + bytes.length ≤ 0x80 ∨ 0x80 < o.toNat → t.din = s.din)

/-- Writing a whole operand register over the window sets it, least significant byte lowest (30_encoding.md
R176, 20_memory.md R44; 10_state.md R15, R18, R19); PARAM and KEY take byte `k` at index `k` (R16, R17); a
push to the DIN port appends (R32). -/
def Obligations.WindowWritesSetTheRegisters : Prop :=
  ∀ (s : State) (rest : List HostAction),
    (∀ w : Word, s.inbox = .write 0x18#8 (wordBytes w) :: rest →
      step s = .next { s with inbox := rest, keylen := w })
    ∧ (∀ w : Word, s.inbox = .write 0x1C#8 (wordBytes w) :: rest →
      step s = .next { s with inbox := rest, secsz := w })
    ∧ (∀ d : DWord,
      s.inbox = .write 0x08#8 ((List.range 8).map fun k => d.extractLsb' (8 * k) 8) :: rest →
      step s = .next { s with inbox := rest, arg := d })
    ∧ (∀ B : Block, s.inbox = .write 0x20#8 (blockBytes B) :: rest →
      step s = .next { s with inbox := rest, param := B })
    ∧ (∀ k : Vector Byte 64, s.inbox = .write 0x40#8 k.toList :: rest →
      step s = .next { s with inbox := rest, key := k })
    ∧ ∀ b : Byte, s.inbox = .write 0x80#8 [b] :: rest → s.bufCap = none →
      step s = .next { s with inbox := rest, din := s.din ++ [b] }

/-- Reading registers over the window (30_encoding.md R176, 20_memory.md R44): little-endian lanes; CMD
and KEY read 0 (10_state.md R16, R20). The last clause says of a read of any shape, byte by byte, what it
returns (0 for CMD, KEY, the DIN port and unlisted offsets, 93_implementation_defined.md U17) and that
only DOUT changes, by one byte where its port is covered (R32); for accesses that are not one whole
register this is the model's reading (log 8). -/
def Obligations.WindowReadsReturnTheRegisters : Prop :=
  ∀ (s : State) (rest : List HostAction),
    (s.inbox = .read 0x04#8 4 :: rest →
      step s = .next { s with inbox := rest, rdata := wordBytes (statusWord s) })
    ∧ (s.inbox = .read 0x08#8 8 :: rest → step s = .next
      { s with inbox := rest, rdata := (List.range 8).map fun k => s.arg.extractLsb' (8 * k) 8 })
    ∧ (s.inbox = .read 0x10#8 8 :: rest → step s = .next
      { s with inbox := rest, rdata := (List.range 8).map fun k => s.result.extractLsb' (8 * k) 8 })
    ∧ (s.inbox = .read 0x18#8 4 :: rest →
      step s = .next { s with inbox := rest, rdata := wordBytes s.keylen })
    ∧ (s.inbox = .read 0x1C#8 4 :: rest →
      step s = .next { s with inbox := rest, rdata := wordBytes s.secsz })
    ∧ (s.inbox = .read 0x20#8 16 :: rest →
      step s = .next { s with inbox := rest, rdata := blockBytes s.param })
    ∧ (s.inbox = .read 0x40#8 64 :: rest →
      step s = .next { s with inbox := rest, rdata := List.replicate 64 0#8 })
    ∧ (s.inbox = .read 0x00#8 4 :: rest →
      step s = .next { s with inbox := rest, rdata := List.replicate 4 0#8 })
    ∧ ∀ (o : BitVec 8) (n : Nat), s.inbox = .read o n :: rest →
      ∃ bytes, step s = .next
          { s with inbox := rest, rdata := bytes,
                   dout := if o.toNat ≤ 0x84 ∧ 0x84 < o.toNat + n then s.dout.tail else s.dout }
        ∧ bytes.length = n
        ∧ ∀ k, k < n → let j := o.toNat + k
          bytes[k]? = some (
            if 0x04 ≤ j ∧ j < 0x08 then (statusWord s).extractLsb' (8 * (j - 0x04)) 8
            else if 0x08 ≤ j ∧ j < 0x10 then s.arg.extractLsb' (8 * (j - 0x08)) 8
            else if 0x10 ≤ j ∧ j < 0x18 then s.result.extractLsb' (8 * (j - 0x10)) 8
            else if 0x18 ≤ j ∧ j < 0x1C then s.keylen.extractLsb' (8 * (j - 0x18)) 8
            else if 0x1C ≤ j ∧ j < 0x20 then s.secsz.extractLsb' (8 * (j - 0x1C)) 8
            else if 0x20 ≤ j ∧ j < 0x30 then byteAt s.param (j - 0x20)
            else if j = 0x84 then s.dout.headD 0#8
            else 0#8)

/-- 10_state.md R32 and 30_encoding.md R176: a read of the DOUT port removes and returns the first byte
of DOUT, 0x00 when it is empty. -/
def Obligations.DoutPortPops : Prop :=
  ∀ (s : State) (rest : List HostAction), s.inbox = .read 0x84#8 1 :: rest →
    (∀ b more, s.dout = b :: more →
      step s = .next { s with inbox := rest, rdata := [b], dout := more })
    ∧ (s.dout = [] → step s = .next { s with inbox := rest, rdata := [0#8] })

/-- The model's choice for broken duties of the host (log 11; 70_reset_and_hazards.md R162,
93_implementation_defined.md U3): closing or replacing the store of a Ready session is refused; outside
one it is done (70_reset_and_hazards.md R159, R160), but for a store longer than LEN can hold (log 12). -/
def Obligations.StoreIsNotChangedBehindASession : Prop :=
  ∀ (s : State) (rest : List HostAction) (bytes : List Byte),
    (s.inbox = .closeStore :: rest → step s = if s.fsm = .ready then .refused .storeChangedInSession
      else .next { s with inbox := rest, storeOpen := false })
    ∧ (s.inbox = .replaceStore bytes :: rest →
      (s.fsm = .ready → step s = .refused .storeChangedInSession)
      ∧ (s.fsm ≠ .ready → 2 ^ s.posBits ≤ bytes.length → step s = .refused .storeTooLong)
      ∧ (s.fsm ≠ .ready → bytes.length < 2 ^ s.posBits →
        ∃ m, step s = .next { s with inbox := rest, store := m, storeOpen := true }
          ∧ m.wf = true ∧ m.len = bytes.length ∧ ∀ a, m.byte a = bytes[a]?))
    ∧ (s.inbox = .openStore :: rest → step s = .next { s with inbox := rest, storeOpen := true })

/-- The lines of a command script (30_encoding.md R188): taking a line's host actions sets the operands
the line names and runs its command; an operand line changes nothing else. That a line is taken as read,
and a number that does not fit its register modulo the register's width, is the model's (log 28). -/
def Obligations.ScriptLinesRunTheirCommands : Prop :=
  ∀ (line : ScriptLine) (s : State) (rest : List HostAction),
    s.inbox = line.actions ++ rest → s.bufCap = none →
    (∀ bytes, line = .key bytes → bytes.length ≤ 64) →
    Sys2Proof.core.run line.actions.length s = match line.command with
      | some i => exec i (line.operands { s with inbox := rest })
      | none => .next (line.operands { s with inbox := rest })

/-! ### Block primitives and mode engines -/

/-- The bytewise form of `GfDouble` (40_block_primitives.md R68), in the byte order that the spec supplies
from general knowledge (log 6). -/
def Obligations.GfDoubleBytewise : Prop :=
  ∀ T : Block,
    byteAt (gfDouble T) 0
      = (byteAt T 0 <<< 1) ^^^ (if 0x80 ≤ (byteAt T 15).toNat then 0x87#8 else 0x00#8)
    ∧ ∀ i, 1 ≤ i → i ≤ 15 →
      byteAt (gfDouble T) i = (byteAt T i <<< 1) ||| (byteAt T (i - 1) >>> 7)

/-- 40_block_primitives.md R66, R67 over the bytes of the block: the counter is added big-endian, the
sector identifier little-endian, both modulo 2^128. -/
def Obligations.AdditionsAreBigAndLittleEndian : Prop :=
  ∀ (V : Block) (n : Nat),
    (∑ i ∈ Finset.range 16, (byteAt (add128be V n) i).toNat * 256 ^ (15 - i))
      = ((∑ i ∈ Finset.range 16, (byteAt V i).toNat * 256 ^ (15 - i)) + n) % 2 ^ 128
    ∧ (∑ i ∈ Finset.range 16, (byteAt (add128le V n) i).toNat * 256 ^ i)
      = ((∑ i ∈ Finset.range 16, (byteAt V i).toNat * 256 ^ i) + n) % 2 ^ 128

/-- 41_mode_engines.md R84: the block form and the position form of the Xts indices agree at every
position of a block. -/
def Obligations.SectorIndicesAgree : Prop :=
  ∀ ss p : Nat, 0 < ss → ss % 16 = 0 →
    sec ss (blk p) = p / ss ∧ bis ss (blk p) = p % ss / 16

/-- 49_aes_fips197_reference.md R129: the S-box tables are the field inverse and the affine map of the
rule, and inverse to each other (log 5). -/
def Obligations.SboxIsTheFieldInverse : Prop :=
  ∀ x : Byte, invSbox (sbox x) = x ∧ sbox (invSbox x) = x
    ∧ ∃ y : Byte, (if x = 0#8 then y = 0#8 else gmul x y = 1#8)
      ∧ sbox x = y ^^^ y.rotateLeft 1 ^^^ y.rotateLeft 2 ^^^ y.rotateLeft 3 ^^^ y.rotateLeft 4 ^^^ 0x63#8

/-- The published and derived AES values the spec prints (40_block_primitives.md R61, R62; log 5). -/
def Obligations.AesMatchesTheSpecValues : Prop :=
  aesEnc (.aes128 0#128) zeroBlock = 0x66e94bd4ef8a2c3b884cfa59ca342b2e#128
  ∧ aesEnc (.aes128 0x000102030405060708090a0b0c0d0e0f#128) 0x00112233445566778899aabbccddeeff#128
    = 0x69c4e0d86a7b0430d8cdb78070b4c55a#128
  ∧ aesDec (.aes128 0#128) 0x4015aff56fb5b920c955449035daa741#128
    = 0x00000011110000000000000000000000#128
  ∧ aesDec (.aes128 0#128) zeroBlock = 0x140f0f1011b5223d79587717ffd9ec3a#128

/-- 40_block_primitives.md R62: `AesDec` and `AesEnc` are inverse to each other under every key. -/
def Obligations.AesDecryptionInvertsEncryption : Prop :=
  ∀ (key : AesKey) (x : Block), aesDec key (aesEnc key x) = x ∧ aesEnc key (aesDec key x) = x

/-- 41_mode_engines.md R89: in every mode, for every block index and block, decryption inverts encryption
when both use the same chaining value. -/
def Obligations.ModeEnginesInvert : Prop :=
  ∀ (s : State) (b : Nat) (chain x : Block),
    decWith s b chain (encWith s b chain x) = x ∧ encWith s b chain (decWith s b chain x) = x

/-- 41_mode_engines.md R90: outside Cbc a ciphertext block depends on nothing but its index, its plaintext
and the session registers; in Cbc a changed plaintext or a changed chaining value changes it. -/
def Obligations.IndependenceAndChaining : Prop :=
  ∀ (s : State) (b : Nat) (chain chain' p p' : Block),
    (s.mode ≠ .cbc → encWith s b chain p = encWith s b chain' p)
    ∧ (p ≠ p' → encWith s b chain p ≠ encWith s b chain p')
    ∧ (s.mode = .cbc → chain ≠ chain' → encWith s b chain p ≠ encWith s b chain' p)

/-- 42_channel_commands.md R122 and 41_mode_engines.md R90 at the level of the store: in Cbc, where `b` is
the lowest pending block whose plaintext differs, a `FLUSH` leaves the same blocks below `b`, another
block `b`, and another block at each index up to which the plaintexts above `b` are the same. -/
def Obligations.CbcChangePropagates : Prop :=
  ∀ (s s' t t' : State) (b : Nat), Inv s → Inv s' → s.fsm = .ready → s.mode = .cbc →
    s' = { s with cache := s'.cache } → s'.cache.dom = s.cache.dom →
    s'.cache.get b ≠ s.cache.get b → (∀ x, x < b → s'.cache.get x = s.cache.get x) →
    CascadeComplete s →
    exec .flush s = .next t → t.lastErr = .ok → exec .flush s' = .next t' → t'.lastErr = .ok →
    ∀ x, 16 * x < newPhys s →
      (x < b → t'.store.block (16 * x) = t.store.block (16 * x))
      ∧ (b ≤ x → (∀ y, b < y → y ≤ x → s'.cache.get y = s.cache.get y) →
        t'.store.block (16 * x) ≠ t.store.block (16 * x))

end Slice0Statements
end

