-- ==== Sys2Proof/Laws/Block.lean ====
section
/-! SUPPORT. Lemmas about bytes of blocks. -/

namespace Sys2Proof.Machine

theorem packBytes_getLsbD (f : Nat → Byte) (n k : Nat) (hn : n ≤ 16) (hk : k < 128) :
    (packBytes f n).getLsbD k
      = (decide (k < 8 * n) && (f (n - 1 - k / 8)).getLsbD (k % 8)) := by
  induction n generalizing k with
  | zero => simp [packBytes]
  | succ n ih =>
    simp only [packBytes, BitVec.getLsbD_or, BitVec.getLsbD_shiftLeft, BitVec.getLsbD_setWidth]
    by_cases h8 : k < 8
    · have h1 : k / 8 = 0 := by omega
      have h2 : k % 8 = k := by omega
      simp [h8, h1, h2, hk]
      intro
      omega
    · have h1 : (f n).getLsbD k = false := BitVec.getLsbD_of_ge _ _ (by omega)
      have e1 : (k - 8) / 8 = k / 8 - 1 := by omega
      have e2 : (k - 8) % 8 = k % 8 := by omega
      have e3 : n - 1 - (k / 8 - 1) = n + 1 - 1 - k / 8 := by omega
      have e4 : (k - 8 < 8 * n) = (k < 8 * (n + 1)) := by apply propext; omega
      rw [h1, ih (k - 8) (by omega) (by omega)]
      simp only [e1, e2, e3, e4, hk, h8]
      simp

/-- Byte `i` of a block built from `f` is `f i`. -/
theorem byteAt_tabulate (f : Nat → Byte) {i : Nat} (h : i < 16) : byteAt (tabulate f) i = f i := by
  apply BitVec.eq_of_getLsbD_eq
  intro j hj
  have e1 : 16 - 1 - (8 * (15 - i) + j) / 8 = i := by omega
  have e2 : (8 * (15 - i) + j) % 8 = j := by omega
  rw [byteAt, BitVec.getLsbD_extractLsb', tabulate, packBytes_getLsbD _ _ _ (by omega) (by omega)]
  simp only [e1, e2, hj]
  simp
  intro
  omega

/-- Two blocks with the same sixteen bytes are equal. -/
theorem block_ext {A B : Block} (h : ∀ i < 16, byteAt A i = byteAt B i) : A = B := by
  apply BitVec.eq_of_getLsbD_eq
  intro j hj
  have hb := congrArg (fun b : Byte => b.getLsbD (j % 8)) (h (15 - j / 8) (by omega))
  have e : 8 * (15 - (15 - j / 8)) + j % 8 = j := by omega
  simp only [byteAt, BitVec.getLsbD_extractLsb', e] at hb
  simpa [Nat.mod_lt] using hb

theorem tabulate_byteAt (B : Block) : tabulate (byteAt B) = B :=
  block_ext fun _ hi => byteAt_tabulate _ hi

theorem tabulate_congr {f g : Nat → Byte} (h : ∀ i < 16, f i = g i) : tabulate f = tabulate g :=
  block_ext fun i hi => by rw [byteAt_tabulate _ hi, byteAt_tabulate _ hi, h i hi]

theorem byteAt_setByte (B : Block) (i : Nat) (b : Byte) {j : Nat} (hj : j < 16) :
    byteAt (setByte B i b) j = if j = i then b else byteAt B j := by
  rw [setByte, byteAt_tabulate _ hj]

theorem byteAt_xor (A B : Block) (i : Nat) : byteAt (A ^^^ B) i = byteAt A i ^^^ byteAt B i := by
  simp [byteAt, BitVec.extractLsb'_xor]

theorem byteAt_zero (i : Nat) : byteAt zeroBlock i = 0#8 := by
  simp [byteAt]

@[simp] theorem reverseBlock_reverseBlock (B : Block) : reverseBlock (reverseBlock B) = B := by
  apply block_ext
  intro i hi
  have e : 15 - (15 - i) = i := by omega
  rw [reverseBlock, byteAt_tabulate _ hi, reverseBlock, byteAt_tabulate _ (by omega), e]

@[simp] theorem length_blockBytes (B : Block) : (blockBytes B).length = 16 := by
  simp [blockBytes]

theorem getElem_blockBytes (B : Block) (i : Nat) (h : i < (blockBytes B).length) :
    (blockBytes B)[i] = byteAt B i := by
  simp [blockBytes]

/-- `A xor B xor B = A` (R65). -/
theorem xor128_cancel (A B : Block) : xor128 (xor128 A B) B = A := by
  simp [xor128]

end Sys2Proof.Machine
end

