-- ==== Sys2Proof/Laws/Cache.lean ====
section
/-! SUPPORT. The pending cache is a finite map in canonical form. -/

namespace Sys2Proof.Machine

/-- `CACHE[b]` after `CACHE[k] <- p`. -/
theorem Cache.get_put (c : Cache) (k b : Nat) (p : Block) :
    (c.put k p).get b = if b = k then some p else c.get b := by
  induction c with
  | nil => simp [Cache.put, Cache.get]
  | cons e rest ih =>
    obtain ⟨i, v⟩ := e
    simp only [Cache.put]
    split
    · simp [Cache.get]
    · split
      · subst_vars
        simp only [Cache.get]
        split <;> rfl
      · simp only [Cache.get, ih]
        split
        · subst_vars
          split
          · omega
          · rfl
        · rfl

theorem cacheWfFrom_mono {lo lo' : Nat} (h : lo' ≤ lo) (c : Cache) :
    cacheWfFrom lo c = true → cacheWfFrom lo' c = true := by
  cases c with
  | nil => simp [cacheWfFrom]
  | cons e rest =>
    obtain ⟨i, v⟩ := e
    simp only [cacheWfFrom, Bool.and_eq_true, decide_eq_true_eq]
    rintro ⟨h1, h2⟩
    exact ⟨by omega, h2⟩

theorem cacheWfFrom_put (c : Cache) (lo k : Nat) (p : Block) (hk : lo ≤ k)
    (h : cacheWfFrom lo c = true) : cacheWfFrom lo (c.put k p) = true := by
  induction c generalizing lo with
  | nil => simp [Cache.put, cacheWfFrom, hk]
  | cons e rest ih =>
    obtain ⟨i, v⟩ := e
    simp only [cacheWfFrom, Bool.and_eq_true, decide_eq_true_eq] at h
    simp only [Cache.put]
    split
    · simp only [cacheWfFrom, Bool.and_eq_true, decide_eq_true_eq]
      exact ⟨hk, by omega, h.2⟩
    · split
      · subst_vars
        simp only [cacheWfFrom, Bool.and_eq_true, decide_eq_true_eq]
        exact ⟨hk, h.2⟩
      · simp only [cacheWfFrom, Bool.and_eq_true, decide_eq_true_eq]
        exact ⟨h.1, ih (i + 1) (by omega) h.2⟩

/-- Inserting a block keeps the canonical form. -/
theorem Cache.wf_put (c : Cache) (k : Nat) (p : Block) (h : c.wf = true) : (c.put k p).wf = true :=
  cacheWfFrom_put c 0 k p (Nat.zero_le k) h

/-- A block is in `dom(CACHE)` exactly when the cache holds it. -/
theorem Cache.mem_dom (c : Cache) (b : Nat) : b ∈ c.dom ↔ (c.get b).isSome = true := by
  induction c with
  | nil => simp [Cache.dom, Cache.get]
  | cons e rest ih =>
    obtain ⟨i, v⟩ := e
    simp only [Cache.dom, List.map_cons, List.mem_cons, Cache.get] at ih ⊢
    split
    · subst_vars; simp
    · rename_i hne
      simp only [hne, false_or]
      exact ih

theorem Cache.not_mem_dom (c : Cache) (b : Nat) : b ∉ c.dom ↔ c.get b = none := by
  rw [Cache.mem_dom]
  cases c.get b <;> simp

theorem dom_ge_of_cacheWfFrom (c : Cache) (lo : Nat) (h : cacheWfFrom lo c = true) :
    ∀ b ∈ c.dom, lo ≤ b := by
  induction c generalizing lo with
  | nil => simp [Cache.dom]
  | cons e rest ih =>
    obtain ⟨i, v⟩ := e
    simp only [cacheWfFrom, Bool.and_eq_true, decide_eq_true_eq] at h
    intro b hb
    simp only [Cache.dom, List.map_cons, List.mem_cons] at hb
    rcases hb with rfl | hb
    · exact h.1
    · have := ih (i + 1) h.2 b hb
      omega

/-- The domain of a canonical cache is strictly rising. -/
theorem Cache.dom_sorted (c : Cache) (h : c.wf = true) : c.dom.Pairwise (· < ·) := by
  have key : ∀ lo, cacheWfFrom lo c = true → c.dom.Pairwise (· < ·) := by
    induction c with
    | nil => simp [Cache.dom]
    | cons e rest ih =>
      obtain ⟨i, v⟩ := e
      intro lo h
      simp only [cacheWfFrom, Bool.and_eq_true, decide_eq_true_eq] at h
      have hr : (Cache.dom rest).Pairwise (· < ·) := ih (cacheWfFrom_mono (Nat.zero_le _) rest h.2) _ h.2
      simp only [Cache.dom, List.map_cons, List.pairwise_cons] at hr ⊢
      exact ⟨fun b hb => by have := dom_ge_of_cacheWfFrom rest (i + 1) h.2 b hb; omega, hr⟩
  exact key 0 h

end Sys2Proof.Machine
end

