-- ==== Sys2Proof/Laws/Cmd.lean ====
section
/-! SUPPORT. How a command's parts compose: one equation per building block, and the inversion of a
sequence. -/

namespace Sys2Proof.Machine

/-- Two parts in sequence: the second runs on what the first left, unless the first ended early. -/
theorem cmd_bind {α β : Type} (x : Cmd α) (f : α → Cmd β) (s : State) :
    (x >>= f) s = match x s with
      | .ok a s' => f a s'
      | .error e s' => .error e s' := by
  change EStateM.bind x f s = _
  unfold EStateM.bind
  cases x s <;> rfl

@[simp] theorem cmd_pure {α : Type} (a : α) (s : State) : (pure a : Cmd α) s = .ok a s := rfl
@[simp] theorem cmd_get (s : State) : (get : Cmd State) s = .ok s s := rfl
@[simp] theorem cmd_set (t s : State) : (set t : Cmd PUnit) s = .ok ⟨⟩ t := rfl
@[simp] theorem cmd_modify (f : State → State) (s : State) : (modify f : Cmd PUnit) s = .ok ⟨⟩ (f s) := rfl
@[simp] theorem cmd_throw {α : Type} (e : Exc) (s : State) : (throw e : Cmd α) s = .error e s := rfl
@[simp] theorem cmd_raiseFault {α : Type} (e : ErrCode) (info : DWord) (s : State) :
    (raiseFault e info : Cmd α) s = .error (.raised e info) s := rfl

/-- A sequence that starts by reading the state. -/
@[simp] theorem cmd_get_bind {α : Type} (f : State → Cmd α) (s : State) : (get >>= f) s = f s s := rfl

@[simp] theorem cmd_pure_bind {α β : Type} (a : α) (f : α → Cmd β) (s : State) :
    ((pure a : Cmd α) >>= f) s = f a s := rfl

@[simp] theorem cmd_modify_bind {β : Type} (g : State → State) (f : PUnit → Cmd β) (s : State) :
    ((modify g : Cmd PUnit) >>= f) s = f ⟨⟩ (g s) := rfl

@[simp] theorem cmd_set_bind {β : Type} (t : State) (f : PUnit → Cmd β) (s : State) :
    ((set t : Cmd PUnit) >>= f) s = f ⟨⟩ t := rfl

@[simp] theorem cmd_ite {α : Type} (c : Prop) [Decidable c] (x y : Cmd α) (s : State) :
    (if c then x else y) s = if c then x s else y s := by
  split <;> rfl

/-- A sequence succeeds exactly when both parts do. -/
theorem cmd_bind_ok {α β : Type} {x : Cmd α} {f : α → Cmd β} {s t : State} {b : β} :
    (x >>= f) s = .ok b t ↔ ∃ a u, x s = .ok a u ∧ f a u = .ok b t := by
  rw [cmd_bind]
  cases h : x s <;> simp

/-- A sequence ends early when its first part does, or its second part after the first succeeded. -/
theorem cmd_bind_error {α β : Type} {x : Cmd α} {f : α → Cmd β} {s t : State} {e : Exc} :
    (x >>= f) s = .error e t ↔ x s = .error e t ∨ ∃ a u, x s = .ok a u ∧ f a u = .error e t := by
  rw [cmd_bind]
  cases h : x s <;> simp

end Sys2Proof.Machine
end

