-- ==== Sys2Proof/Laws/Reads.lean ====
section
/-! SUPPORT. The parts of a command that only read the store: what each can do, said once. -/

namespace Sys2Proof.Machine

/-- The state with other store outcomes to come (log 2). -/
def State.withFates (s : State) (fates : List Fate) : State := { s with fates := fates }

/-- Every coming store access succeeds. -/
def fatesSucceed (fates : List Fate) : Prop := ∀ f ∈ fates, f = Fate.succeeds

/-- What a reading part `x` with value `v` can do on `s`, its accesses in range when `inRange`: it
yields `v`; or it ends with `IoError` of a failing access; or, out of range only, with the model's
fault. It changes nothing but the store outcomes used up, from the first on, and it succeeds when they
all do. -/
structure ReadsAs {α : Type} (x : Cmd α) (s : State) (v : α) (inRange : Prop) : Prop where
  onOk : ∀ {a t}, x s = .ok a t →
    a = v ∧ ∃ fr, t = s.withFates fr ∧ fr <:+ s.fates
  onError : ∀ {e t}, x s = .error e t →
    (∃ fr, t = s.withFates fr ∧ fr <:+ s.fates)
      ∧ ((∃ w, e = .raised .ioError w ∧ Fate.fails w ∈ s.fates) ∨ (∃ f, e = .fault f) ∧ ¬ inRange)

/-- A reading part that is in range succeeds when every coming access does. -/
theorem ReadsAs.succeeds {α : Type} {x : Cmd α} {s : State} {v : α} {inRange : Prop}
    (h : ReadsAs x s v inRange) (hr : inRange) (hf : fatesSucceed s.fates) :
    ∃ fr, x s = .ok v (s.withFates fr) ∧ fr <:+ s.fates := by
  cases hx : x s with
  | ok a t =>
    obtain ⟨rfl, fr, rfl, hfr⟩ := h.onOk hx
    exact ⟨fr, rfl, hfr⟩
  | error e t =>
    obtain ⟨-, ⟨w, -, hw⟩ | ⟨-, hn⟩⟩ := h.onError hx
    · exact absurd (hf _ hw) (by simp)
    · exact absurd hr hn

@[simp] theorem withFates_fates (s : State) (fr : List Fate) : (s.withFates fr).fates = fr := rfl
@[simp] theorem withFates_withFates (s : State) (fr fr' : List Fate) :
    (s.withFates fr).withFates fr' = s.withFates fr' := rfl
@[simp] theorem withFates_self (s : State) : s.withFates s.fates = s := rfl
@[simp] theorem withFates_cache (s : State) (fr : List Fate) : (s.withFates fr).cache = s.cache := rfl
@[simp] theorem withFates_fullError (s : State) (fr : List Fate) :
    (s.withFates fr).fullError = s.fullError := rfl
@[simp] theorem posLimit_withFates (s : State) (fr : List Fate) :
    posLimit (s.withFates fr) = posLimit s := rfl
@[simp] theorem withFates_store (s : State) (fr : List Fate) : (s.withFates fr).store = s.store := rfl
@[simp] theorem withFates_mode (s : State) (fr : List Fate) : (s.withFates fr).mode = s.mode := rfl
@[simp] theorem withFates_pos (s : State) (fr : List Fate) : (s.withFates fr).pos = s.pos := rfl
@[simp] theorem withFates_len (s : State) (fr : List Fate) : (s.withFates fr).len = s.len := rfl
@[simp] theorem withFates_p0 (s : State) (fr : List Fate) : (s.withFates fr).p0 = s.p0 := rfl
@[simp] theorem withFates_kd (s : State) (fr : List Fate) : (s.withFates fr).kd = s.kd := rfl
@[simp] theorem withFates_din (s : State) (fr : List Fate) : (s.withFates fr).din = s.din := rfl
@[simp] theorem withFates_dout (s : State) (fr : List Fate) : (s.withFates fr).dout = s.dout := rfl
@[simp] theorem withFates_cacheCap (s : State) (fr : List Fate) :
    (s.withFates fr).cacheCap = s.cacheCap := rfl
@[simp] theorem storeLen_withFates (s : State) (fr : List Fate) :
    storeLen (s.withFates fr) = storeLen s := rfl
@[simp] theorem committedBlocks_withFates (s : State) (fr : List Fate) :
    committedBlocks (s.withFates fr) = committedBlocks s := rfl
@[simp] theorem decWith_withFates (s : State) (fr : List Fate) (b : Nat) (ch c : Block) :
    decWith (s.withFates fr) b ch c = decWith s b ch c := rfl
@[simp] theorem encWith_withFates (s : State) (fr : List Fate) (b : Nat) (ch c : Block) :
    encWith (s.withFates fr) b ch c = encWith s b ch c := rfl
@[simp] theorem chainIn_withFates (s : State) (fr : List Fate) (m : Memory) (b : Nat) :
    chainIn (s.withFates fr) m b = chainIn s m b := rfl
@[simp] theorem storedChain_withFates (s : State) (fr : List Fate) (b : Nat) :
    storedChain (s.withFates fr) b = storedChain s b := rfl
@[simp] theorem storedPlain_withFates (s : State) (fr : List Fate) (b : Nat) :
    storedPlain (s.withFates fr) b = storedPlain s b := rfl
@[simp] theorem plainOf_withFates (s : State) (fr : List Fate) (b : Nat) :
    plainOf (s.withFates fr) b = plainOf s b := rfl
@[simp] theorem view_withFates (s : State) (fr : List Fate) (p : Nat) :
    view (s.withFates fr) p = view s p := rfl

/-- The outcomes after the next one are a suffix of those before it. -/
theorem suffix_of_nextFate {fates : List Fate} {f : Fate} {rest : List Fate}
    (h : nextFate fates = (f, rest)) : rest <:+ fates := by
  cases fates with
  | nil =>
    simp only [nextFate, Prod.mk.injEq] at h
    rw [← h.2]
  | cons a l =>
    simp only [nextFate, Prod.mk.injEq] at h
    rw [← h.2]
    exact List.suffix_cons a l

theorem fails_mem_of_nextFate {fates : List Fate} {w : DWord} {rest : List Fate}
    (h : nextFate fates = (.fails w, rest)) : Fate.fails w ∈ fates := by
  cases fates with
  | nil => simp [nextFate] at h
  | cons a l =>
    simp only [nextFate, Prod.mk.injEq] at h
    simp [h.1]

theorem reads_pure {α : Type} (a : α) (s : State) : ReadsAs (pure a : Cmd α) s a True where
  onOk h := by
    simp only [cmd_pure, EStateM.Result.ok.injEq] at h
    exact ⟨h.1.symm, s.fates, h.2.symm, List.suffix_refl _⟩
  onError h := by simp at h

/-- A smaller range is still a range. -/
theorem ReadsAs.weaken {α : Type} {x : Cmd α} {s : State} {v : α} {P Q : Prop} (h : ReadsAs x s v P)
    (hq : Q → P) : ReadsAs x s v Q where
  onOk := h.onOk
  onError hx := by
    obtain ⟨h1, h2 | ⟨h2, h3⟩⟩ := h.onError hx
    · exact ⟨h1, .inl h2⟩
    · exact ⟨h1, .inr ⟨h2, fun q => h3 (hq q)⟩⟩

/-- A part that runs as a reading part does is one. -/
theorem ReadsAs.of_eq {α : Type} {x y : Cmd α} {s : State} {v : α} {P : Prop} (h : ReadsAs x s v P)
    (e : y s = x s) : ReadsAs y s v P where
  onOk hy := h.onOk (e ▸ hy)
  onError hy := h.onError (e ▸ hy)

/-- Two reading parts in sequence. -/
theorem ReadsAs.bind {α β : Type} {x : Cmd α} {f : α → Cmd β} {s : State} {v : α} {w : β}
    {P Q : Prop} (hx : ReadsAs x s v P) (hf : ∀ fr, ReadsAs (f v) (s.withFates fr) w Q) :
    ReadsAs (x >>= f) s w (P ∧ Q) where
  onOk h := by
    obtain ⟨a, u, h1, h2⟩ := cmd_bind_ok.mp h
    obtain ⟨rfl, fr, rfl, hfr⟩ := hx.onOk h1
    obtain ⟨rfl, fr', rfl, hfr'⟩ := (hf fr).onOk h2
    exact ⟨rfl, fr', rfl, hfr'.trans hfr⟩
  onError h := by
    rcases cmd_bind_error.mp h with h1 | ⟨a, u, h1, h2⟩
    · obtain ⟨h3, h4 | ⟨h4, h5⟩⟩ := hx.onError h1
      · exact ⟨h3, .inl h4⟩
      · exact ⟨h3, .inr ⟨h4, fun hp => h5 hp.1⟩⟩
    · obtain ⟨rfl, fr, rfl, hfr⟩ := hx.onOk h1
      obtain ⟨⟨fr', rfl, hfr'⟩, ⟨w', rfl, hw'⟩ | ⟨h4, h5⟩⟩ := (hf fr).onError h2
      · exact ⟨⟨fr', rfl, hfr'.trans hfr⟩, .inl ⟨w', rfl, hfr.subset hw'⟩⟩
      · exact ⟨⟨fr', rfl, hfr'.trans hfr⟩, .inr ⟨h4, fun hp => h5 hp.2⟩⟩

/-- `MemRead` (20_memory.md R40). -/
theorem reads_memRead (o : Nat) (s : State) :
    ReadsAs (memRead o) s (s.store.block o) (o % 16 = 0 ∧ o + 16 ≤ storeLen s) where
  onOk {a t} h := by
    unfold memRead at h
    split at h
    · split at h
      · rename_i rest hn
        simp only [EStateM.Result.ok.injEq] at h
        obtain ⟨rfl, rfl⟩ := h
        exact ⟨rfl, rest, rfl, suffix_of_nextFate hn⟩
      · simp at h
    · simp at h
  onError {e t} h := by
    unfold memRead at h
    split at h
    · split at h
      · simp at h
      · rename_i w rest hn
        simp only [EStateM.Result.error.injEq] at h
        obtain ⟨rfl, rfl⟩ := h
        exact ⟨⟨rest, rfl, suffix_of_nextFate hn⟩,
          .inl ⟨w, rfl, fails_mem_of_nextFate hn⟩⟩
    · rename_i hr
      simp only [EStateM.Result.error.injEq] at h
      obtain ⟨rfl, rfl⟩ := h
      exact ⟨⟨s.fates, rfl, List.suffix_refl _⟩, .inr ⟨⟨_, rfl⟩, hr⟩⟩

theorem phys_in_range {s : State} {b : Nat} (h : b < committedBlocks s) :
    phys b % 16 = 0 ∧ phys b + 16 ≤ storeLen s := by
  simp only [phys, committedBlocks] at *
  omega

/-- `ChainDec(b)` (41_mode_engines.md R75). -/
theorem reads_chainDec (b : Nat) (s : State) :
    ReadsAs (chainDec b) s (storedChain s b) (b = 0 ∨ b - 1 < committedBlocks s) := by
  by_cases hb : b = 0
  · have ev : storedChain s b = s.p0 := by simp [storedChain, chainIn, hb]
    rw [ev]
    exact ((reads_pure s.p0 s).of_eq (by simp [chainDec, hb])).weaken fun _ => trivial
  · have ev : storedChain s b = s.store.block (phys (b - 1)) := by simp [storedChain, chainIn, hb]
    rw [ev]
    exact ((reads_memRead (phys (b - 1)) s).of_eq (by simp [chainDec, hb])).weaken
      fun hq => phys_in_range (by omega)

/-- The chaining value a decryption uses, in Cbc the stored one (R71, R75). -/
theorem reads_decChain (b : Nat) (s : State) :
    ReadsAs (decChain b) s (if s.mode = .cbc then storedChain s b else zeroBlock)
      (b - 1 < committedBlocks s) := by
  cases hm : s.mode
  case cbc =>
    simp only [if_true]
    exact ((reads_chainDec b s).of_eq (by simp [decChain, hm])).weaken fun h => .inr h
  all_goals
    simp only [reduceCtorEq, if_false]
    exact ((reads_pure zeroBlock s).of_eq (by simp [decChain, hm, noChain])).weaken fun _ => trivial

/-- Outside Cbc the chaining value does not enter a transform (R71). -/
theorem decWith_chain (s : State) (b : Nat) (ch c : Block) :
    decWith s b (if s.mode = .cbc then ch else zeroBlock) c = decWith s b ch c := by
  unfold decWith
  cases s.mode <;> rfl

/-- Outside Cbc the chaining value does not enter a transform (R71). -/
theorem encWith_chain (s : State) (b : Nat) (ch p : Block) :
    encWith s b (if s.mode = .cbc then ch else zeroBlock) p = encWith s b ch p := by
  unfold encWith
  cases s.mode <;> rfl

/-- `Dec(b, c)` (41_mode_engines.md R71, R75). -/
theorem reads_decBlock (b : Nat) (c : Block) (s : State) :
    ReadsAs (decBlock b c) s (decWith s b (storedChain s b) c) (b - 1 < committedBlocks s) := by
  rw [← decWith_chain]
  have h : ReadsAs (decChain b >>= fun chain => pure (decWith s b chain c)) s
      (decWith s b (if s.mode = .cbc then storedChain s b else zeroBlock) c)
      (b - 1 < committedBlocks s ∧ True) :=
    ReadsAs.bind (reads_decChain b s) fun fr => reads_pure _ _
  have e : decBlock b c s = (decChain b >>= fun chain => pure (decWith s b chain c)) s := by
    simp only [decBlock, cmd_get_bind]
  exact (h.of_eq e).weaken fun h => ⟨h, trivial⟩

/-- The committed block `b`, read and decrypted (20_memory.md R52). -/
theorem reads_committedPlain (b : Nat) (s : State) :
    ReadsAs (committedPlain b) s (storedPlain s b) (b < committedBlocks s) :=
  (ReadsAs.bind (reads_memRead (phys b) s) fun fr => by
    have h := reads_decBlock b (s.store.block (phys b)) (s.withFates fr)
    rwa [decWith_withFates, storedChain_withFates, committedBlocks_withFates] at h).weaken
    fun h => ⟨phys_in_range h, by omega⟩

/-- `PlainBlock(b)` (20_memory.md R52) reads the plaintext view and is always in range. -/
theorem reads_plainBlock (b : Nat) (s : State) : ReadsAs (plainBlock b) s (plainOf s b) True := by
  cases hc : s.cache.get b with
  | some p =>
    have ev : plainOf s b = p := by simp [plainOf, hc]
    rw [ev]
    exact (reads_pure p s).of_eq (by simp [plainBlock, hc])
  | none =>
    by_cases hb : b < committedBlocks s
    · have ev : plainOf s b = storedPlain s b := by simp [plainOf, hc, hb]
      rw [ev]
      exact ((reads_committedPlain b s).of_eq (by simp [plainBlock, hc, hb])).weaken fun _ => hb
    · have ev : plainOf s b = zeroBlock := by simp [plainOf, hc, hb]
      rw [ev]
      exact (reads_pure zeroBlock s).of_eq (by simp [plainBlock, hc, hb])

/-- The bytes of `n` blocks from block `b` on. -/
def plainBytes (s : State) : Nat → Nat → List Byte
  | 0, _ => []
  | n + 1, b => blockBytes (plainOf s b) ++ plainBytes s n (b + 1)

@[simp] theorem plainBytes_withFates (s : State) (fr : List Fate) (n b : Nat) :
    plainBytes (s.withFates fr) n b = plainBytes s n b := by
  induction n generalizing b with
  | zero => rfl
  | succ n ih => simp only [plainBytes, plainOf_withFates, ih]

/-- Reading `n` blocks (42_channel_commands.md R109). -/
theorem reads_readBlocks (n b : Nat) (s : State) :
    ReadsAs (readBlocks n b) s (plainBytes s n b) True := by
  induction n generalizing b s with
  | zero => exact reads_pure _ _
  | succ n ih =>
    have hrest : ∀ fr, ReadsAs (readBlocks n (b + 1) >>= fun rest =>
        pure (blockBytes (plainOf s b) ++ rest)) (s.withFates fr) (plainBytes s (n + 1) b)
        (True ∧ True) := fun fr => by
      have h := ih (b + 1) (s.withFates fr)
      rw [plainBytes_withFates] at h
      exact ReadsAs.bind (f := fun rest => pure (blockBytes (plainOf s b) ++ rest)) h
        fun fr' => reads_pure _ _
    exact (ReadsAs.bind (f := fun p => readBlocks n (b + 1) >>= fun rest =>
      pure (blockBytes p ++ rest)) (reads_plainBlock b s) hrest).weaken
      fun _ => ⟨trivial, trivial, trivial⟩

end Sys2Proof.Machine
end

