-- ==== Sys2Proof/Laws/Data.lean ====
section
/-! SUPPORT. READ and WRITE as operations (42_channel_commands.md R109, R111, R112): the bytes of the
touched blocks, the seeded cache, the overlay, and what each operation can do, said once. -/

namespace Sys2Proof.Machine

/-! ### The bytes READ delivers -/

@[simp] theorem length_plainBytes (s : State) (n b : Nat) : (plainBytes s n b).length = 16 * n := by
  induction n generalizing b with
  | zero => rfl
  | succ n ih => simp only [plainBytes, List.length_append, length_blockBytes, ih]; omega

/-- Byte `i` of the blocks from `b` on is the view at position `16 b + i` (20_memory.md R47, R53). -/
theorem getElem_plainBytes (s : State) (n b i : Nat) (h : i < (plainBytes s n b).length) :
    (plainBytes s n b)[i] = view s (16 * b + i) := by
  induction n generalizing b i with
  | zero => simp [plainBytes] at h
  | succ n ih =>
    by_cases hi : i < 16
    · have e1 : (16 * b + i) / 16 = b := by omega
      have e2 : (16 * b + i) % 16 = i := by omega
      simp only [plainBytes]
      rw [List.getElem_append_left (by simpa using hi), getElem_blockBytes]
      simp only [view, blk, off, e1, e2]
    · simp only [length_plainBytes] at h
      simp only [plainBytes]
      rw [List.getElem_append_right (by simpa using hi), ih]
      congr 1
      simp only [length_blockBytes]
      omega

/-- The slice of the touched blocks is the view over the range (42_channel_commands.md R109). -/
theorem sliceOf_plainBytes (s : State) (p count : Nat) (hc : 0 < count) :
    sliceOf p count (plainBytes s (touchedBlocks p count) (blk p))
      = (List.range count).map fun k => view s (p + k) := by
  have hn : off p + count ≤ 16 * touchedBlocks p count := by
    simp only [off, touchedBlocks, blk]
    omega
  apply List.ext_getElem
  · simp only [sliceOf, List.length_take, List.length_drop, length_plainBytes, List.length_map,
      List.length_range]
    omega
  · intro i h1 h2
    simp only [List.length_map, List.length_range] at h2
    simp only [sliceOf, List.getElem_take, List.getElem_drop, List.getElem_map, List.getElem_range]
    rw [getElem_plainBytes]
    congr 1
    simp only [blk, off]
    omega

/-- `READ` when it succeeds (R109, R110). -/
theorem readOp_ok {s t : State} {v : DWord} (h : readOp s = .ok v t) :
    (argCount s = 0 ∧ v = 0#64 ∧ t = s)
      ∨ (0 < argCount s ∧ s.pos + argCount s ≤ s.len ∧ v = s.arg ∧ ∃ fr, fr <:+ s.fates ∧
          t = { s with fates := fr, pos := s.pos + argCount s,
                       dout := (List.range (argCount s)).map fun k => view s (s.pos + k) }) := by
  unfold readOp at h
  rw [cmd_get_bind] at h
  by_cases h0 : argCount s = 0
  · simp only [h0, if_true, cmd_pure, EStateM.Result.ok.injEq] at h
    exact .inl ⟨h0, h.1.symm, h.2.symm⟩
  · by_cases hl : s.len < s.pos + argCount s
    · simp [h0, hl] at h
    · simp only [h0, hl, if_false] at h
      obtain ⟨a, u, h1, h2⟩ := cmd_bind_ok.mp h
      obtain ⟨rfl, fr, rfl, hfr⟩ := (reads_readBlocks _ _ s).onOk h1
      simp only [cmd_modify_bind, cmd_pure, EStateM.Result.ok.injEq] at h2
      obtain ⟨rfl, rfl⟩ := h2
      refine .inr ⟨by omega, by omega, by simp [argCount], fr, hfr, ?_⟩
      rw [← sliceOf_plainBytes s s.pos (argCount s) (by omega)]
      rfl

/-- `READ` when it ends early (R109, R139, R141). -/
theorem readOp_error {s t : State} {e : Exc} (h : readOp s = .error e t) :
    (∃ fr, t = s.withFates fr ∧ fr <:+ s.fates)
      ∧ ((e = .raised .endOfStreamError 0#64 ∧ t = s ∧ 0 < argCount s ∧ s.len < s.pos + argCount s)
        ∨ ∃ w, e = .raised .ioError w ∧ Fate.fails w ∈ s.fates) := by
  unfold readOp at h
  rw [cmd_get_bind] at h
  by_cases h0 : argCount s = 0
  · simp [h0] at h
  · by_cases hl : s.len < s.pos + argCount s
    · simp only [h0, hl, if_true, if_false, cmd_raiseFault, EStateM.Result.error.injEq] at h
      obtain ⟨rfl, rfl⟩ := h
      exact ⟨⟨s.fates, rfl, List.suffix_refl _⟩, .inl ⟨rfl, rfl, by omega, hl⟩⟩
    · simp only [h0, hl, if_false] at h
      rcases cmd_bind_error.mp h with h1 | ⟨a, u, h1, h2⟩
      · obtain ⟨hfr, hc | ⟨-, hn⟩⟩ := (reads_readBlocks _ _ s).onError h1
        · exact ⟨hfr, .inr hc⟩
        · exact absurd trivial hn
      · simp at h2

/-! ### Seeding -/

/-- The plaintext a block is seeded with (R111). -/
def seedOf (s : State) (b : Nat) : Block :=
  if b < committedBlocks s then storedPlain s b else zeroBlock

/-- The cache after seeding the blocks of the list (R111). -/
def seeded (s : State) (blocks : List Nat) (c : Cache) : Cache :=
  blocks.foldl (fun c b => c.put b (seedOf s b)) c

theorem seedOf_withFates (s : State) (fr : List Fate) (b : Nat) :
    seedOf (s.withFates fr) b = seedOf s b := rfl

theorem seeded_withFates (s : State) (fr : List Fate) (l : List Nat) (c : Cache) :
    seeded (s.withFates fr) l c = seeded s l c := rfl

/-- A block that is not pending is seeded with its current plaintext (20_memory.md R52). -/
theorem seedOf_eq_plainOf (s : State) (b : Nat) (h : s.cache.get b = none) :
    seedOf s b = plainOf s b := by
  simp [seedOf, plainOf, h]

theorem reads_seedBlock (b : Nat) (s : State) : ReadsAs (seedBlock b) s (seedOf s b) True := by
  by_cases hb : b < committedBlocks s
  · have ev : seedOf s b = storedPlain s b := by simp [seedOf, hb]
    rw [ev]
    exact ((reads_committedPlain b s).of_eq (by simp [seedBlock, hb])).weaken fun _ => hb
  · have ev : seedOf s b = zeroBlock := by simp [seedOf, hb]
    rw [ev]
    exact (reads_pure zeroBlock s).of_eq (by simp [seedBlock, hb])

/-- Seeding (R111) reads the store only, always in range. -/
theorem reads_seedBlocks (l : List Nat) (c : Cache) (s : State) :
    ReadsAs (seedBlocks l c) s (seeded s l c) True := by
  induction l generalizing c s with
  | nil => exact reads_pure c s
  | cons b rest ih =>
    exact (ReadsAs.bind (f := fun p => seedBlocks rest (c.put b p)) (reads_seedBlock b s)
      fun fr => ih (c.put b (seedOf s b)) (s.withFates fr)).weaken fun _ => ⟨trivial, trivial⟩

theorem get_seeded (s : State) (l : List Nat) (c : Cache) (b : Nat) :
    (seeded s l c).get b = if b ∈ l then some (seedOf s b) else c.get b := by
  induction l generalizing c with
  | nil => simp [seeded]
  | cons x rest ih =>
    have e : seeded s (x :: rest) c = seeded s rest (c.put x (seedOf s x)) := rfl
    rw [e, ih, Cache.get_put]
    by_cases h1 : b ∈ rest
    · simp [h1]
    · by_cases h2 : b = x
      · simp [h2]
      · simp [h1, h2]

theorem wf_seeded (s : State) (l : List Nat) (c : Cache) (h : c.wf = true) :
    (seeded s l c).wf = true := by
  induction l generalizing c with
  | nil => exact h
  | cons x rest ih => exact ih _ (Cache.wf_put c x _ h)

/-! ### The overlay -/

theorem wf_overlay (c : Cache) (p : Nat) (d : List Byte) (h : c.wf = true) :
    (overlay c p d).wf = true := by
  induction d generalizing c p with
  | nil => exact h
  | cons x rest ih => exact ih _ _ (Cache.wf_put c _ _ h)

/-- The overlaid bytes, and the bytes beside them (R111). -/
theorem byteAt_overlay (c : Cache) (p : Nat) (d : List Byte) (b j : Nat) (hj : j < 16) :
    byteAt (((overlay c p d).get b).getD zeroBlock) j
      = if p ≤ 16 * b + j ∧ 16 * b + j < p + d.length then d.getD (16 * b + j - p) 0#8
        else byteAt ((c.get b).getD zeroBlock) j := by
  induction d generalizing c p with
  | nil =>
    rw [if_neg (by simp only [List.length_nil]; omega)]
    rfl
  | cons x rest ih =>
    have e : overlay c p (x :: rest) = overlay (overlayByte c p x) (p + 1) rest := rfl
    rw [e, ih]
    simp only [List.length_cons]
    by_cases h1 : p + 1 ≤ 16 * b + j ∧ 16 * b + j < p + 1 + rest.length
    · rw [if_pos h1, if_pos (by omega)]
      have e2 : 16 * b + j - p = (16 * b + j - (p + 1)) + 1 := by omega
      rw [e2, List.getD_cons_succ]
    · rw [if_neg h1]
      simp only [overlayByte, Cache.get_put, blk, off]
      by_cases hq : 16 * b + j = p
      · have hb : b = p / 16 := by omega
        have hjj : j = p % 16 := by omega
        have e2 : 16 * b + j - p = 0 := by omega
        rw [if_pos hb, if_pos (by omega), e2, List.getD_cons_zero]
        simp only [Option.getD_some]
        rw [byteAt_setByte _ _ _ hj, if_pos hjj]
      · rw [if_neg (c := p ≤ 16 * b + j ∧ _) (by omega)]
        by_cases hb : b = p / 16
        · rw [if_pos hb]
          simp only [Option.getD_some]
          rw [byteAt_setByte _ _ _ hj, if_neg (by omega), hb]
        · rw [if_neg hb]

/-- The overlay makes exactly the touched blocks pending (R111). -/
theorem isSome_overlay (c : Cache) (p : Nat) (d : List Byte) (b : Nat) :
    ((overlay c p d).get b).isSome = true ↔
      (c.get b).isSome = true ∨ (0 < d.length ∧ blk p ≤ b ∧ b ≤ blk (p + d.length - 1)) := by
  induction d generalizing c p with
  | nil => simp [overlay]
  | cons x rest ih =>
    have e : overlay c p (x :: rest) = overlay (overlayByte c p x) (p + 1) rest := rfl
    rw [e, ih]
    simp only [overlayByte, Cache.get_put, blk, List.length_cons]
    by_cases hb : b = p / 16
    · simp only [hb, if_true, Option.isSome_some, true_or, true_iff]
      right
      omega
    · simp only [hb, if_false]
      constructor
      · rintro (h | h)
        · exact .inl h
        · right; omega
      · rintro (h | h)
        · exact .inl h
        · right; omega

/-! ### WRITE -/

/-- The cache a successful `WRITE` leaves (R111, R112). -/
def writtenCache (s : State) : Cache :=
  overlay (seeded s (seedSet s (blk s.pos) (blk (s.pos + argCount s - 1))) s.cache) s.pos s.din

/-- The seed set (R112): the blocks from the first touched one to the last that are not pending. -/
theorem mem_seedSet (s : State) (b0 b1 b : Nat) :
    b ∈ seedSet s b0 b1 ↔ b0 ≤ b ∧ b ≤ seedLast s b1 ∧ s.cache.get b = none := by
  simp only [seedSet, indices, List.mem_filter, List.mem_range'_1, Option.isNone_iff_eq_none]
  constructor
  · rintro ⟨h1, h2⟩
    exact ⟨by omega, by omega, h2⟩
  · rintro ⟨h1, h2, h3⟩
    exact ⟨by omega, h3⟩

theorem le_seedLast (s : State) (b : Nat) : b ≤ seedLast s b := by
  unfold seedLast
  split
  · exact Nat.le_max_left _ _
  all_goals exact Nat.le_refl _

/-- The blocks that are pending after a `WRITE` (R111, R112). -/
theorem dom_writtenCache {s : State} (hd : s.din.length = argCount s) (b : Nat) :
    b ∈ (writtenCache s).dom ↔ b ∈ s.cache.dom
      ∨ (0 < argCount s ∧ blk s.pos ≤ b ∧ b ≤ blk (s.pos + argCount s - 1))
      ∨ b ∈ seedSet s (blk s.pos) (blk (s.pos + argCount s - 1)) := by
  rw [Cache.mem_dom, writtenCache, isSome_overlay, get_seeded, hd, Cache.mem_dom]
  by_cases hm : b ∈ seedSet s (blk s.pos) (blk (s.pos + argCount s - 1))
  · simp [hm]
  · simp [hm]

/-- `WRITE` when it succeeds (R111, R113). -/
theorem writeOp_ok {s t : State} {v : DWord} (h : writeOp s = .ok v t) :
    v = 0#64 ∧ ((argCount s = 0 ∧ t = s)
      ∨ (0 < argCount s ∧ s.pos + argCount s < posLimit s ∧ ∃ fr, fr <:+ s.fates ∧
          t = { s with fates := fr, cache := writtenCache s, len := max s.len (s.pos + argCount s),
                       pos := s.pos + argCount s })) := by
  unfold writeOp at h
  rw [cmd_get_bind] at h
  by_cases h0 : argCount s = 0
  · simp only [h0, if_true, cmd_pure, EStateM.Result.ok.injEq] at h
    exact ⟨h.1.symm, .inl ⟨h0, h.2.symm⟩⟩
  · by_cases hl : posLimit s ≤ s.pos + argCount s
    · simp [h0, hl] at h
    · simp only [h0, hl, if_false] at h
      obtain ⟨c, u, h1, h2⟩ := cmd_bind_ok.mp h
      obtain ⟨rfl, fr, rfl, hfr⟩ := (reads_seedBlocks _ _ s).onOk h1
      rw [cmd_ite] at h2
      split at h2
      · simp at h2
      · simp only [cmd_modify_bind, cmd_pure, EStateM.Result.ok.injEq] at h2
        obtain ⟨rfl, rfl⟩ := h2
        exact ⟨rfl, .inr ⟨by omega, by omega, fr, hfr, rfl⟩⟩

/-- `WRITE` when it ends early: nothing but store outcomes is used up (R111, 60_exceptions.md R146). -/
theorem writeOp_error {s t : State} {e : Exc} (h : writeOp s = .error e t) :
    (∃ fr, t = s.withFates fr ∧ fr <:+ s.fates)
      ∧ (e = .raised .argumentError 0#64 ∨ e = .raised .illegalCommand 0#64
        ∨ ∃ w, e = .raised .ioError w ∧ Fate.fails w ∈ s.fates) := by
  unfold writeOp at h
  rw [cmd_get_bind] at h
  by_cases h0 : argCount s = 0
  · simp [h0] at h
  · by_cases hl : posLimit s ≤ s.pos + argCount s
    · simp only [h0, hl, if_true, if_false, cmd_raiseFault, EStateM.Result.error.injEq] at h
      obtain ⟨rfl, rfl⟩ := h
      exact ⟨⟨s.fates, rfl, List.suffix_refl _⟩, .inl rfl⟩
    · simp only [h0, hl, if_false] at h
      rcases cmd_bind_error.mp h with h1 | ⟨c, u, h1, h2⟩
      · obtain ⟨hfr, hc | ⟨-, hn⟩⟩ := (reads_seedBlocks _ _ s).onError h1
        · exact ⟨hfr, .inr (.inr hc)⟩
        · exact absurd trivial hn
      · obtain ⟨rfl, fr, rfl, hfr⟩ := (reads_seedBlocks _ _ s).onOk h1
        rw [cmd_ite] at h2
        split at h2
        · simp only [cmd_raiseFault, EStateM.Result.error.injEq] at h2
          obtain ⟨rfl, rfl⟩ := h2
          exact ⟨⟨fr, rfl, hfr⟩, .inr (.inl rfl)⟩
        · simp at h2

end Sys2Proof.Machine
end

