-- ==== Sys2Proof/Laws/Memory.lean ====
section
/-! SUPPORT. The store: reading after writing, and the canonical form, which every operation keeps. -/

namespace Sys2Proof.Machine

theorem cellsRead_of_below (lo hi : Nat) (cells : List Host.Cell) (h : cellsWf lo hi cells = true)
    {a : Nat} (ha : a < lo) : cellsRead cells a = unlistedByte := by
  induction cells generalizing lo with
  | nil => rfl
  | cons e rest ih =>
    obtain ⟨k, v⟩ := e
    simp only [cellsWf, Bool.and_eq_true, decide_eq_true_eq] at h
    have hne : a ≠ k := by omega
    simp only [cellsRead, hne, if_false]
    exact ih (k + 1) h.2 (by omega)

/-- Reading a byte after a byte is written, over cells in canonical form. -/
theorem cellsRead_cellsWrite (lo hi : Nat) (cells : List Host.Cell) (h : cellsWf lo hi cells = true)
    (a : Nat) (b : Byte) (x : Nat) :
    cellsRead (cellsWrite cells a b) x = if x = a then b else cellsRead cells x := by
  induction cells generalizing lo with
  | nil =>
    simp only [cellsWrite]
    split <;> simp only [cellsRead]
    split <;> simp_all
  | cons e rest ih =>
    obtain ⟨k, v⟩ := e
    have hw := h
    simp only [cellsWf, Bool.and_eq_true, decide_eq_true_eq] at h
    simp only [cellsWrite]
    split
    · rename_i hak
      split
      · rename_i hb
        split
        · rename_i hx
          have hne : x ≠ k := by omega
          simp only [cellsRead, hne, if_false, hb]
          exact cellsRead_of_below (k + 1) hi rest h.2 (by omega)
        · rfl
      · simp only [cellsRead]
    · split
      · subst_vars
        split
        · rename_i hb
          split
          · subst_vars
            exact cellsRead_of_below (k + 1) hi rest h.2 (by omega)
          · rename_i hne
            simp only [cellsRead, hne, if_false]
        · simp only [cellsRead]
          split <;> rfl
      · rename_i h1 h2
        simp only [cellsRead, ih (k + 1) h.2]
        split
        · subst_vars
          have hne : k ≠ a := by omega
          simp [hne]
        · rfl

theorem cellsWf_mono {lo lo' hi hi' : Nat} (hlo : lo' ≤ lo) (hhi : hi ≤ hi')
    (cells : List Host.Cell) (h : cellsWf lo hi cells = true) : cellsWf lo' hi' cells = true := by
  induction cells generalizing lo lo' with
  | nil => rfl
  | cons e rest ih =>
    obtain ⟨k, v⟩ := e
    simp only [cellsWf, Bool.and_eq_true, decide_eq_true_eq] at h ⊢
    exact ⟨⟨⟨by omega, by omega⟩, h.1.2⟩, ih (Nat.le_refl _) h.2⟩

/-- Writing a byte inside the store keeps the canonical form. -/
theorem cellsWf_cellsWrite (lo hi : Nat) (cells : List Host.Cell) (h : cellsWf lo hi cells = true)
    (a : Nat) (b : Byte) (hlo : lo ≤ a) (hhi : a < hi) :
    cellsWf lo hi (cellsWrite cells a b) = true := by
  induction cells generalizing lo with
  | nil =>
    simp only [cellsWrite]
    split
    · rfl
    · simp_all [cellsWf]
  | cons e rest ih =>
    obtain ⟨k, v⟩ := e
    have hw := h
    simp only [cellsWf, Bool.and_eq_true, decide_eq_true_eq] at h
    simp only [cellsWrite]
    split
    · split
      · exact hw
      · rename_i hb
        simp only [cellsWf, Bool.and_eq_true, decide_eq_true_eq, bne_iff_ne]
        refine ⟨⟨⟨hlo, hhi⟩, hb⟩, ⟨⟨by omega, h.1.1.2⟩, by simpa using h.1.2⟩, h.2⟩
    · split
      · subst_vars
        split
        · exact cellsWf_mono (by omega) (Nat.le_refl _) rest h.2
        · rename_i hb
          simp only [cellsWf, Bool.and_eq_true, decide_eq_true_eq, bne_iff_ne]
          exact ⟨⟨⟨hlo, hhi⟩, hb⟩, h.2⟩
      · simp only [cellsWf, Bool.and_eq_true, decide_eq_true_eq]
        exact ⟨h.1, ih (k + 1) h.2 (by omega)⟩

theorem cellsWf_cellsWriteMany (hi : Nat) (cells : List Host.Cell) (h : cellsWf 0 hi cells = true)
    (a : Nat) (f : Nat → Byte) (n : Nat) (hn : a + n ≤ hi) :
    cellsWf 0 hi (cellsWriteMany cells a f n) = true := by
  induction n with
  | zero => exact h
  | succ n ih => exact cellsWf_cellsWrite 0 hi _ (ih (by omega)) _ _ (Nat.zero_le _) (by omega)

theorem cellsRead_cellsWriteMany (hi : Nat) (cells : List Host.Cell) (h : cellsWf 0 hi cells = true)
    (a : Nat) (f : Nat → Byte) (n : Nat) (hn : a + n ≤ hi) (x : Nat) :
    cellsRead (cellsWriteMany cells a f n) x
      = if a ≤ x ∧ x < a + n then f (x - a) else cellsRead cells x := by
  induction n with
  | zero => simp only [cellsWriteMany]; rw [if_neg (by omega)]
  | succ n ih =>
    have hw := cellsWf_cellsWriteMany hi cells h a f n (by omega)
    rw [cellsWriteMany, cellsRead_cellsWrite 0 hi _ hw, ih (by omega)]
    by_cases hx : x = a + n
    · have e : x - a = n := by omega
      rw [if_pos hx, if_pos (by omega), e]
    · rw [if_neg hx]
      by_cases hr : a ≤ x ∧ x < a + n
      · rw [if_pos hr, if_pos (by omega)]
      · rw [if_neg hr, if_neg (by omega)]

theorem cellsWf_cellsOfBytes (lo : Nat) (bytes : List Byte) (hi : Nat) (h : lo + bytes.length ≤ hi) :
    cellsWf lo hi (cellsOfBytes lo bytes) = true := by
  induction bytes generalizing lo with
  | nil => rfl
  | cons b rest ih =>
    simp only [List.length_cons] at h
    simp only [cellsOfBytes]
    split
    · exact cellsWf_mono (by omega) (Nat.le_refl _) _ (ih (lo + 1) (by omega))
    · rename_i hb
      simp only [cellsWf, Bool.and_eq_true, decide_eq_true_eq, bne_iff_ne]
      exact ⟨⟨⟨Nat.le_refl _, by omega⟩, hb⟩, ih (lo + 1) (by omega)⟩

/-- The store of a byte string is in canonical form. -/
theorem Memory.wf_ofBytes (bytes : List Byte) : (Memory.ofBytes bytes).wf = true :=
  cellsWf_cellsOfBytes 0 bytes bytes.length (by omega)

theorem Memory.wf_grown (m : Memory) (h : m.wf = true) (n : Nat) :
    cellsWf 0 (max m.len n) m.cells = true :=
  cellsWf_mono (Nat.le_refl _) (Nat.le_max_left _ _) _ h

/-- Writing a block keeps the canonical form. -/
theorem Memory.wf_setBlock (m : Memory) (h : m.wf = true) (o : Nat) (v : Block) :
    (m.setBlock o v).wf = true :=
  cellsWf_cellsWriteMany _ _ (m.wf_grown h _) _ _ _ (Nat.le_max_right _ _)

@[simp] theorem Memory.len_setBlock (m : Memory) (o : Nat) (v : Block) :
    (m.setBlock o v).len = max m.len (o + 16) := rfl

theorem Memory.read_setBlock (m : Memory) (h : m.wf = true) (o : Nat) (v : Block) (x : Nat) :
    cellsRead (m.setBlock o v).cells x
      = if o ≤ x ∧ x < o + 16 then byteAt v (x - o) else cellsRead m.cells x :=
  cellsRead_cellsWriteMany _ _ (m.wf_grown h _) _ _ _ (Nat.le_max_right _ _) _

/-- A block reads back as it was written. -/
theorem Memory.block_setBlock_same (m : Memory) (h : m.wf = true) (o : Nat) (v : Block) :
    (m.setBlock o v).block o = v := by
  apply block_ext
  intro i hi
  have e : o + i - o = i := by omega
  rw [Memory.block, byteAt_tabulate _ hi, m.read_setBlock h, if_pos (by omega), e]

/-- Writing a block leaves every block that does not overlap it alone. -/
theorem Memory.block_setBlock_other (m : Memory) (h : m.wf = true) (o : Nat) (v : Block) (x : Nat)
    (hx : x + 16 ≤ o ∨ o + 16 ≤ x) : (m.setBlock o v).block x = m.block x :=
  tabulate_congr fun i hi => by rw [m.read_setBlock h, if_neg (by omega)]

/-- Writing a block leaves every byte outside it alone. -/
theorem Memory.byte_setBlock_other (m : Memory) (h : m.wf = true) (o : Nat) (v : Block) (x : Nat)
    (hx : x < o ∨ o + 16 ≤ x) (hl : x < m.len) : (m.setBlock o v).byte x = m.byte x := by
  have h1 : x < max m.len (o + 16) := Nat.lt_of_lt_of_le hl (Nat.le_max_left _ _)
  simp only [Memory.byte, Memory.len_setBlock, h1, hl, if_true]
  rw [m.read_setBlock h, if_neg (by omega)]

/-- Two canonical cell lists that read the same everywhere are equal. -/
theorem cells_ext (lo hi : Nat) (c d : List Host.Cell) (hc : cellsWf lo hi c = true)
    (hd : cellsWf lo hi d = true) (h : ∀ a, cellsRead c a = cellsRead d a) : c = d := by
  induction c generalizing lo d with
  | nil =>
    cases d with
    | nil => rfl
    | cons e rest =>
      obtain ⟨k, v⟩ := e
      simp only [cellsWf, Bool.and_eq_true, decide_eq_true_eq, bne_iff_ne] at hd
      have := h k
      simp only [cellsRead, if_true] at this
      exact absurd this.symm hd.1.2
  | cons e rest ih =>
    obtain ⟨k, v⟩ := e
    have hc' := hc
    simp only [cellsWf, Bool.and_eq_true, decide_eq_true_eq, bne_iff_ne] at hc
    cases d with
    | nil =>
      have := h k
      simp only [cellsRead, if_true] at this
      exact absurd this hc.1.2
    | cons e' rest' =>
      obtain ⟨k', v'⟩ := e'
      have hd' := hd
      simp only [cellsWf, Bool.and_eq_true, decide_eq_true_eq, bne_iff_ne] at hd
      have hk : k = k' := by
        rcases Nat.lt_trichotomy k k' with hlt | heq | hgt
        · have h1 := h k
          have hne : k ≠ k' := by omega
          simp only [cellsRead, if_true, hne, if_false] at h1
          rw [cellsRead_of_below (k' + 1) hi rest' hd.2 (by omega)] at h1
          exact absurd h1 hc.1.2
        · exact heq
        · have h1 := h k'
          have hne : k' ≠ k := by omega
          simp only [cellsRead, if_true, hne, if_false] at h1
          rw [cellsRead_of_below (k + 1) hi rest hc.2 (by omega)] at h1
          exact absurd h1.symm hd.1.2
      subst hk
      have hv : v = v' := by simpa [cellsRead] using h k
      subst hv
      have hrest : rest = rest' := by
        apply ih (k + 1) rest' hc.2 hd.2
        intro a
        by_cases hak : a = k
        · subst hak
          rw [cellsRead_of_below (a + 1) hi rest hc.2 (by omega),
            cellsRead_of_below (a + 1) hi rest' hd.2 (by omega)]
        · simpa [cellsRead, hak] using h a
      rw [hrest]

/-- Canonical stores of one length that hold the same bytes are equal. -/
theorem Memory.ext_of_reads (m n : Memory) (hm : m.wf = true) (hn : n.wf = true)
    (hl : m.len = n.len) (h : ∀ a, cellsRead m.cells a = cellsRead n.cells a) : m = n := by
  have hc : m.cells = n.cells := cells_ext 0 m.len m.cells n.cells hm (by rw [hl]; exact hn) h
  obtain ⟨ml, mc⟩ := m
  obtain ⟨nl, nc⟩ := n
  simp only at hl hc
  rw [hl, hc]

end Sys2Proof.Machine
end

