-- ==== Sys2Proof/Laws/Commit.lean ====
section
/-! SUPPORT. The commit of FLUSH: `MemWrite`, the chaining value of an encryption, and the loop over
the commit set, each said once (42_channel_commands.md R114, R116; 41_mode_engines.md R77). -/

namespace Sys2Proof.Machine

/-- The state with another store and other store outcomes to come: all a FLUSH in progress changes. -/
def State.withStore (s : State) (m : Memory) (fates : List Fate) : State :=
  { s with store := m, fates := fates }

@[simp] theorem withStore_store (s : State) (m : Memory) (fr : List Fate) : (s.withStore m fr).store = m := rfl
@[simp] theorem withStore_fates (s : State) (m : Memory) (fr : List Fate) : (s.withStore m fr).fates = fr := rfl
@[simp] theorem withStore_cache (s : State) (m : Memory) (fr : List Fate) :
    (s.withStore m fr).cache = s.cache := rfl
@[simp] theorem withStore_fullError (s : State) (m : Memory) (fr : List Fate) :
    (s.withStore m fr).fullError = s.fullError := rfl
@[simp] theorem posLimit_withStore (s : State) (m : Memory) (fr : List Fate) :
    posLimit (s.withStore m fr) = posLimit s := rfl
@[simp] theorem withStore_mode (s : State) (m : Memory) (fr : List Fate) :
    (s.withStore m fr).mode = s.mode := rfl
@[simp] theorem withStore_withStore (s : State) (m m' : Memory) (fr fr' : List Fate) :
    (s.withStore m fr).withStore m' fr' = s.withStore m' fr' := rfl
@[simp] theorem withStore_self (s : State) : s.withStore s.store s.fates = s := rfl
theorem withFates_eq_withStore (s : State) (fr : List Fate) : s.withFates fr = s.withStore s.store fr := rfl
@[simp] theorem commitOne_withStore (s : State) (m m' : Memory) (fr : List Fate) (b : Nat) :
    commitOne (s.withStore m fr) m' b = commitOne s m' b := rfl
@[simp] theorem commitAll_withStore (s : State) (m m' : Memory) (fr : List Fate) (l : List Nat) :
    commitAll (s.withStore m fr) m' l = commitAll s m' l := rfl

@[simp] theorem commitAll_nil (s : State) (m : Memory) : commitAll s m [] = m := rfl
@[simp] theorem commitAll_cons (s : State) (m : Memory) (b : Nat) (rest : List Nat) :
    commitAll s m (b :: rest) = commitAll s (commitOne s m b) rest := rfl

theorem commitOne_wf (s : State) (m : Memory) (b : Nat) (h : m.wf = true) :
    (commitOne s m b).wf = true := m.wf_setBlock h _ _

/-- Committing blocks keeps the store's canonical form. -/
theorem commitAll_wf (s : State) (m : Memory) (blocks : List Nat) (h : m.wf = true) :
    (commitAll s m blocks).wf = true := by
  induction blocks generalizing m with
  | nil => exact h
  | cons b rest ih => exact ih _ (commitOne_wf s m b h)

/-- `last` names the block written just before, which the store holds. -/
def LastWritten (m : Memory) (last : Option (Nat × Block)) : Prop :=
  ∀ k c, last = some (k, c) → m.block (phys k) = c

/-- `ChainEnc(b)` (41_mode_engines.md R77): the register and the store give the same value. -/
theorem reads_chainEnc (last : Option (Nat × Block)) (b : Nat) (s : State)
    (hl : LastWritten s.store last) :
    ReadsAs (chainEnc last b) s (chainIn s s.store b)
      (b = 0 ∨ phys (b - 1) + 16 ≤ storeLen s) := by
  by_cases hb : b = 0
  · have ev : chainIn s s.store b = s.p0 := by simp [chainIn, hb]
    rw [ev]
    exact ((reads_pure s.p0 s).of_eq (by simp [chainEnc, hb])).weaken fun _ => trivial
  · have ev : chainIn s s.store b = s.store.block (phys (b - 1)) := by simp [chainIn, hb]
    have hmem : ReadsAs (memRead (phys (b - 1))) s (s.store.block (phys (b - 1)))
        (b = 0 ∨ phys (b - 1) + 16 ≤ storeLen s) :=
      (reads_memRead (phys (b - 1)) s).weaken fun hq => by
        simp only [phys] at *
        omega
    rw [ev]
    cases last with
    | none => exact hmem.of_eq (by simp [chainEnc, hb])
    | some kc =>
      obtain ⟨k, c⟩ := kc
      by_cases hk : k + 1 = b
      · subst hk
        have hc : s.store.block (phys k) = c := hl k c rfl
        have e : k + 1 - 1 = k := rfl
        rw [e, hc]
        exact ((reads_pure c s).of_eq (by simp [chainEnc])).weaken fun _ => trivial
      · exact hmem.of_eq (by simp [chainEnc, hb, hk])

/-- `Enc(b, p)` (41_mode_engines.md R71, R77). -/
theorem reads_encBlock (last : Option (Nat × Block)) (b : Nat) (p : Block) (s : State)
    (hl : LastWritten s.store last) :
    ReadsAs (encBlock last b p) s (encWith s b (chainIn s s.store b) p)
      (b = 0 ∨ phys (b - 1) + 16 ≤ storeLen s) := by
  have hchain : ReadsAs (encChain last b) s (if s.mode = .cbc then chainIn s s.store b else zeroBlock)
      (b = 0 ∨ phys (b - 1) + 16 ≤ storeLen s) := by
    cases hm : s.mode
    case cbc =>
      simp only [if_true]
      exact (reads_chainEnc last b s hl).of_eq (by simp [encChain, hm])
    all_goals
      simp only [reduceCtorEq, if_false]
      exact ((reads_pure zeroBlock s).of_eq (by simp [encChain, hm, noChain])).weaken fun _ => trivial
  rw [← encWith_chain]
  have h : ReadsAs (encChain last b >>= fun chain => pure (encWith s b chain p)) s
      (encWith s b (if s.mode = .cbc then chainIn s s.store b else zeroBlock) p)
      ((b = 0 ∨ phys (b - 1) + 16 ≤ storeLen s) ∧ True) :=
    ReadsAs.bind hchain fun fr => reads_pure _ _
  have e : encBlock last b p s = (encChain last b >>= fun chain => pure (encWith s b chain p)) s := by
    simp only [encBlock, cmd_get_bind]
  exact (h.of_eq e).weaken fun h => ⟨h, trivial⟩

/-- A write that succeeds has room and an outcome that succeeds. -/
theorem writeFate_succeeds {o : Nat} {s : State} {rest : List Fate}
    (h : writeFate o s = (.succeeds, rest)) :
    nextFate s.fates = (.succeeds, rest) ∧ hasRoom o s = true := by
  unfold writeFate at h
  split at h
  · rename_i fr hn
    cases hr : hasRoom o s with
    | true => simp_all
    | false => simp [hr] at h
  · simp at h

/-- A write fails with an outcome that fails, or for want of room with the value the store has for that. -/
theorem writeFate_fails {o : Nat} {s : State} {w : DWord} {rest : List Fate}
    (h : writeFate o s = (.fails w, rest)) :
    rest <:+ s.fates ∧ (Fate.fails w ∈ s.fates ∨ (w = s.fullError ∧ posLimit s ≤ o + 16)) := by
  unfold writeFate at h
  split at h
  · rename_i fr hn
    cases hr : hasRoom o s with
    | true => simp [hr] at h
    | false =>
      simp only [hr, Bool.false_eq_true, if_false, Prod.mk.injEq, Fate.fails.injEq] at h
      obtain ⟨rfl, rfl⟩ := h
      simp only [hasRoom, Bool.or_eq_false_iff, decide_eq_false_iff_not] at hr
      exact ⟨suffix_of_nextFate hn, .inr ⟨rfl, by omega⟩⟩
  · rename_i e fr hn
    simp only [Prod.mk.injEq, Fate.fails.injEq] at h
    obtain ⟨rfl, rfl⟩ := h
    exact ⟨suffix_of_nextFate hn, .inl (fails_mem_of_nextFate hn)⟩

/-- A write the store has room for leaves its length a stream position (10_state.md R30). -/
theorem len_setBlock_lt {o : Nat} {s : State} (v : Block) (h : hasRoom o s = true)
    (hl : s.store.len < posLimit s) : (s.store.setBlock o v).len < posLimit s := by
  simp only [hasRoom, Bool.or_eq_true, decide_eq_true_eq] at h
  simp only [storeLen] at h
  rw [Memory.len_setBlock]
  omega

/-- `MemWrite` (20_memory.md R41): it writes the block; or fails and leaves the store; or, out of range
only, is the model's fault. -/
theorem memWrite_ok {o : Nat} {v : Block} {s t : State} (h : memWrite o v s = .ok () t) :
    ∃ fr, t = s.withStore (s.store.setBlock o v) fr ∧ fr <:+ s.fates ∧ hasRoom o s = true := by
  unfold memWrite at h
  split at h
  · split at h
    · rename_i rest hn
      simp only [EStateM.Result.ok.injEq, true_and] at h
      obtain ⟨h1, h2⟩ := writeFate_succeeds hn
      exact ⟨rest, h.symm, suffix_of_nextFate h1, h2⟩
    · simp at h
  · simp at h

theorem memWrite_error {o : Nat} {v : Block} {e : Exc} {s t : State}
    (h : memWrite o v s = .error e t) :
    (∃ fr, t = s.withStore s.store fr ∧ fr <:+ s.fates)
      ∧ ((∃ w, e = .raised .ioError w
            ∧ (Fate.fails w ∈ s.fates ∨ (w = s.fullError ∧ posLimit s ≤ o + 16)))
        ∨ (∃ f, e = .fault f) ∧ ¬ (o % 16 = 0 ∧ o ≤ storeLen s)) := by
  unfold memWrite at h
  split at h
  · split at h
    · simp at h
    · rename_i w rest hn
      simp only [EStateM.Result.error.injEq] at h
      obtain ⟨rfl, rfl⟩ := h
      obtain ⟨h1, h2⟩ := writeFate_fails hn
      exact ⟨⟨rest, rfl, h1⟩, .inl ⟨w, rfl, h2⟩⟩
  · rename_i hr
    simp only [EStateM.Result.error.injEq] at h
    obtain ⟨rfl, rfl⟩ := h
    exact ⟨⟨s.fates, rfl, List.suffix_refl _⟩, .inr ⟨⟨_, rfl⟩, hr⟩⟩

/-- The error values a store can report while these blocks are committed: one settled for a coming access,
or, when some block does not fit, the one it has for that (20_memory.md R41; log 12). -/
def CommitErrors (s : State) (blocks : List Nat) (w : DWord) : Prop :=
  Fate.fails w ∈ s.fates ∨ (w = s.fullError ∧ ∃ b ∈ blocks, posLimit s ≤ phys b + 16)

/-- What the store can report after some outcomes and blocks it can report before them. -/
theorem CommitErrors.mono {s t : State} {l l' : List Nat} {w : DWord} (h : CommitErrors t l w)
    (hf : t.fates <:+ s.fates) (he : t.fullError = s.fullError) (hp : posLimit t = posLimit s)
    (hl : ∀ b ∈ l, b ∈ l') : CommitErrors s l' w := by
  rcases h with h | ⟨h, b, hb, hr⟩
  · exact .inl (hf.subset h)
  · exact .inr ⟨h.trans he, b, hl b hb, hp ▸ hr⟩

/-- Blocks that can be committed in this order into a store of `n` blocks: each is inside it or
appends (20_memory.md R41). -/
def Appendable : Nat → List Nat → Prop
  | _, [] => True
  | n, b :: rest => b ≤ n ∧ Appendable (max n (b + 1)) rest

/-- One turn of the commit loop (42_channel_commands.md R114). -/
theorem commitBlocks_cons_apply (b : Nat) (rest : List Nat) (last : Option (Nat × Block)) (s : State) :
    commitBlocks (b :: rest) last s =
      (encBlock last b (commitPlain s b) >>= fun c =>
        memWrite (phys b) c >>= fun _ => commitBlocks rest (some (b, c))) s := rfl

/-- The commit loop when it succeeds (42_channel_commands.md R114). -/
theorem commitBlocks_ok {blocks : List Nat} {last : Option (Nat × Block)} {s t : State}
    (hw : s.store.wf = true) (hl : LastWritten s.store last)
    (h : commitBlocks blocks last s = .ok () t) :
    ∃ fr, t = s.withStore (commitAll s s.store blocks) fr ∧ fr <:+ s.fates := by
  induction blocks generalizing last s with
  | nil =>
    simp only [commitBlocks, cmd_pure, EStateM.Result.ok.injEq, true_and] at h
    exact ⟨s.fates, h.symm, List.suffix_refl _⟩
  | cons b rest ih =>
    rw [commitBlocks_cons_apply] at h
    obtain ⟨c, u, h1, h2⟩ := cmd_bind_ok.mp h
    obtain ⟨rfl, fr, rfl, hfr⟩ := (reads_encBlock last b (commitPlain s b) s hl).onOk h1
    obtain ⟨⟨⟩, u, h3, h4⟩ := cmd_bind_ok.mp h2
    obtain ⟨fr', rfl, hfr', -⟩ := memWrite_ok h3
    have hw' : (s.withStore (commitOne s s.store b) fr').store.wf = true := commitOne_wf s _ b hw
    have hl' : LastWritten (commitOne s s.store b)
        (some (b, encWith s b (chainIn s s.store b) (commitPlain s b))) := by
      intro k c hk
      simp only [Option.some.injEq, Prod.mk.injEq] at hk
      obtain ⟨rfl, rfl⟩ := hk
      exact Memory.block_setBlock_same _ hw _ _
    obtain ⟨fr'', rfl, hfr''⟩ := ih (s := s.withStore (commitOne s s.store b) fr') hw' hl' h4
    exact ⟨fr'', rfl, hfr''.trans (hfr'.trans hfr)⟩

/-- The commit loop when it ends early: a strict part of the list, from its start, is committed
(42_channel_commands.md R116). -/
theorem commitBlocks_error {blocks : List Nat} {last : Option (Nat × Block)} {e : Exc} {s t : State}
    (hw : s.store.wf = true) (hl : LastWritten s.store last)
    (h : commitBlocks blocks last s = .error e t) :
    ∃ n fr, n < blocks.length ∧ t = s.withStore (commitAll s s.store (blocks.take n)) fr
      ∧ fr <:+ s.fates
      ∧ ((∃ w, e = .raised .ioError w ∧ CommitErrors s blocks w)
        ∨ (∃ f, e = .fault f) ∧
          ¬ (storeLen s % 16 = 0 ∧ Appendable (committedBlocks s) blocks)) := by
  induction blocks generalizing last s with
  | nil => simp [commitBlocks] at h
  | cons b rest ih =>
    rw [commitBlocks_cons_apply] at h
    rcases cmd_bind_error.mp h with h1 | ⟨c, u, h1, h2⟩
    · obtain ⟨⟨fr, rfl, hfr⟩, hc⟩ := (reads_encBlock last b (commitPlain s b) s hl).onError h1
      refine ⟨0, fr, by simp, rfl, hfr, ?_⟩
      rcases hc with ⟨w, hc, hw'⟩ | ⟨hc, hr⟩
      · exact .inl ⟨w, hc, .inl hw'⟩
      · refine .inr ⟨hc, fun ⟨h16, ha⟩ => hr ?_⟩
        have := ha.1
        simp only [phys, committedBlocks] at *
        omega
    · obtain ⟨rfl, fr, rfl, hfr⟩ := (reads_encBlock last b (commitPlain s b) s hl).onOk h1
      rcases cmd_bind_error.mp h2 with h3 | ⟨⟨⟩, u, h3, h4⟩
      · obtain ⟨⟨fr', rfl, hfr'⟩, hc⟩ := memWrite_error h3
        refine ⟨0, fr', by simp, rfl, hfr'.trans hfr, ?_⟩
        rcases hc with ⟨w, rfl, hw'⟩ | ⟨hc, hr⟩
        · exact .inl ⟨w, rfl, hw'.imp (hfr.subset ·) fun ⟨h, hr⟩ => ⟨h, b, by simp, hr⟩⟩
        · refine .inr ⟨hc, fun ⟨h16, ha⟩ => hr ?_⟩
          have := ha.1
          simp only [phys, committedBlocks, storeLen_withFates] at *
          omega
      · obtain ⟨fr', rfl, hfr', -⟩ := memWrite_ok h3
        have hw' : (s.withStore (commitOne s s.store b) fr').store.wf = true := commitOne_wf s _ b hw
        have hl' : LastWritten (commitOne s s.store b)
            (some (b, encWith s b (chainIn s s.store b) (commitPlain s b))) := by
          intro k c hk
          simp only [Option.some.injEq, Prod.mk.injEq] at hk
          obtain ⟨rfl, rfl⟩ := hk
          exact Memory.block_setBlock_same _ hw _ _
        obtain ⟨n, fr'', hn, rfl, hfr'', hc⟩ :=
          ih (s := s.withStore (commitOne s s.store b) fr') hw' hl' h4
        refine ⟨n + 1, fr'', by simpa using hn, rfl, hfr''.trans (hfr'.trans hfr), ?_⟩
        rcases hc with ⟨w, rfl, hw''⟩ | ⟨hc, hr⟩
        · exact .inl ⟨w, rfl, hw''.mono (hfr'.trans hfr) rfl rfl fun x hx => by simp [hx]⟩
        · refine .inr ⟨hc, fun ⟨h16, ha⟩ => hr ?_⟩
          have hlen : storeLen (s.withStore (commitOne s s.store b) fr') = max (storeLen s) (phys b + 16) :=
            rfl
          have e : committedBlocks (s.withStore (commitOne s s.store b) fr')
              = max (committedBlocks s) (b + 1) := by
            simp only [committedBlocks, hlen, phys]
            omega
          rw [e]
          refine ⟨?_, ha.2⟩
          rw [hlen]
          simp only [phys]
          omega

end Sys2Proof.Machine
end

