-- ==== Sys2Proof/Laws/Flush.lean ====
section
/-! SUPPORT. FLUSH and DISPOSE as operations, and what committing a rising list of blocks leaves in the
store (42_channel_commands.md R114 to R119). -/

namespace Sys2Proof.Machine

/-! ### The store after blocks are committed -/

theorem block_commitOne_other (s : State) (m : Memory) (hw : m.wf = true) (b x : Nat) (h : x ≠ b) :
    (commitOne s m b).block (phys x) = m.block (phys x) :=
  Memory.block_setBlock_other m hw _ _ _ (by simp only [phys]; omega)

/-- A block outside the list keeps its bytes. -/
theorem block_commitAll_other (s : State) (m : Memory) (hw : m.wf = true) (l : List Nat) (x : Nat)
    (h : x ∉ l) : (commitAll s m l).block (phys x) = m.block (phys x) := by
  induction l generalizing m with
  | nil => rfl
  | cons b rest ih =>
    simp only [List.mem_cons, not_or] at h
    rw [commitAll_cons, ih _ (commitOne_wf s m b hw) h.2, block_commitOne_other s m hw b x h.1]

/-- A committed block holds the encryption of its plaintext under the chaining value that the store
holds afterwards (42_channel_commands.md R114, 41_mode_engines.md R77). -/
theorem block_commitAll_mem (s : State) (m : Memory) (hw : m.wf = true) (l : List Nat)
    (hs : l.Pairwise (· < ·)) (b : Nat) (h : b ∈ l) :
    (commitAll s m l).block (phys b)
      = encWith s b (chainIn s (commitAll s m l) b) (commitPlain s b) := by
  induction l generalizing m with
  | nil => simp at h
  | cons x rest ih =>
    rw [List.pairwise_cons] at hs
    rw [commitAll_cons]
    rcases List.mem_cons.mp h with rfl | hr
    · have hnot : b ∉ rest := fun hb => by have := hs.1 b hb; omega
      have hw' := commitOne_wf s m b hw
      rw [block_commitAll_other s _ hw' rest b hnot]
      have e1 : (commitOne s m b).block (phys b) = encWith s b (chainIn s m b) (commitPlain s b) :=
        Memory.block_setBlock_same m hw _ _
      have e2 : chainIn s (commitAll s (commitOne s m b) rest) b = chainIn s m b := by
        unfold chainIn
        split
        · rfl
        · have hn : b - 1 ∉ rest := fun hb => by have := hs.1 _ hb; omega
          rw [block_commitAll_other s _ hw' rest (b - 1) hn,
            block_commitOne_other s m hw b (b - 1) (by omega)]
      rw [e1, e2]
    · exact ih _ (commitOne_wf s m x hw) hs.2 hr

theorem len_commitAll (s : State) (m : Memory) (l : List Nat) :
    (commitAll s m l).len = l.foldl (fun n b => max n (phys b + 16)) m.len := by
  induction l generalizing m with
  | nil => rfl
  | cons b rest ih => exact ih _

theorem len_le_commitAll (s : State) (m : Memory) (l : List Nat) : m.len ≤ (commitAll s m l).len := by
  induction l generalizing m with
  | nil => exact Nat.le_refl _
  | cons b rest ih => exact Nat.le_trans (Nat.le_max_left _ _) (ih (commitOne s m b))

theorem len_commitAll_le (s : State) (m : Memory) (l : List Nat) (N : Nat) (hm : m.len ≤ N)
    (hl : ∀ b ∈ l, phys b + 16 ≤ N) : (commitAll s m l).len ≤ N := by
  induction l generalizing m with
  | nil => exact hm
  | cons b rest ih =>
    have hb : (commitOne s m b).len ≤ N := Nat.max_le.mpr ⟨hm, hl b (by simp)⟩
    exact ih _ hb fun x hx => hl x (by simp [hx])

theorem mem_le_len_commitAll (s : State) (m : Memory) (l : List Nat) (b : Nat) (h : b ∈ l) :
    phys b + 16 ≤ (commitAll s m l).len := by
  induction l generalizing m with
  | nil => simp at h
  | cons x rest ih =>
    rcases List.mem_cons.mp h with rfl | hr
    · exact Nat.le_trans (Nat.le_max_right m.len _) (len_le_commitAll s (commitOne s m b) rest)
    · exact ih _ hr

theorem len_commitAll_mod (s : State) (m : Memory) (l : List Nat) (h : m.len % 16 = 0) :
    (commitAll s m l).len % 16 = 0 := by
  induction l generalizing m with
  | nil => exact h
  | cons b rest ih =>
    apply ih
    simp only [commitOne, Memory.len_setBlock, phys]
    omega

/-! ### The commit set -/

theorem roundUp_ge (a u : Nat) (h : 0 < u) : a ≤ roundUp a u := by
  have h1 := Nat.div_add_mod (a + u - 1) u
  have h2 := Nat.mod_lt (a + u - 1) h
  simp only [roundUp]
  omega

theorem roundUp_mod (a u k : Nat) (h : u % k = 0) : roundUp a u % k = 0 := by
  simp [roundUp, Nat.mul_mod, h]

theorem roundUp_lt (a u : Nat) (h : 0 < u) : roundUp a u < a + u := by
  have h1 := Nat.div_add_mod (a + u - 1) u
  have h2 := Nat.mod_lt (a + u - 1) h
  simp only [roundUp]
  omega

theorem roundUp_mono (a b u : Nat) (h : a ≤ b) : roundUp a u ≤ roundUp b u :=
  Nat.mul_le_mul_left _ (Nat.div_le_div_right (by omega))

theorem growthUnit_pos {s : State} (h : ReadyInv s) : 0 < growthUnit s := by
  unfold growthUnit
  cases hm : s.mode
  case xts => exact (h.sectorSize hm).1
  all_goals simp

theorem growthUnit_mod {s : State} (h : ReadyInv s) : growthUnit s % 16 = 0 := by
  unfold growthUnit
  cases hm : s.mode
  case xts => exact (h.sectorSize hm).2
  all_goals simp

theorem len_le_newPhys {s : State} (h : ReadyInv s) : s.len ≤ newPhys s :=
  roundUp_ge _ _ (growthUnit_pos h)

theorem newPhys_mod {s : State} (h : ReadyInv s) : newPhys s % 16 = 0 :=
  roundUp_mod _ _ _ (growthUnit_mod h)

/-- The store has no more blocks than it will have after the FLUSH (10_state.md R35 I2'). -/
theorem committedBlocks_le {s : State} (h : ReadyInv s) : committedBlocks s ≤ newPhys s / 16 :=
  Nat.div_le_div_right h.paddedLength

/-- Every pending block is below the new end of the store (10_state.md R35 I5). -/
theorem pending_lt {s : State} (h : ReadyInv s) (b : Nat) (hb : b ∈ s.cache.dom) : b < newPhys s / 16 := by
  have h1 := h.pendingInside b hb
  have h2 := len_le_newPhys h
  have h3 := newPhys_mod h
  omega

/-- The commit set (42_channel_commands.md R115). -/
theorem mem_commitSet {s : State} (h : ReadyInv s) (b : Nat) :
    b ∈ commitSet s ↔ b ∈ s.cache.dom ∨ (committedBlocks s ≤ b ∧ b < newPhys s / 16) := by
  have hle := committedBlocks_le h
  simp only [commitSet, List.mem_append, List.mem_filter, decide_eq_true_eq, List.mem_range'_1]
  constructor
  · rintro ((h1 | h1) | h1)
    · exact .inl h1.1
    · right; omega
    · exact .inl h1.1
  · rintro (h1 | h1)
    · by_cases hb : b < committedBlocks s
      · exact .inl (.inl ⟨h1, hb⟩)
      · have := pending_lt h b h1
        left; right; omega
    · left; right; omega

theorem lt_of_mem_commitSet {s : State} (h : ReadyInv s) (b : Nat) (hb : b ∈ commitSet s) :
    b < newPhys s / 16 := by
  rcases (mem_commitSet h b).mp hb with h1 | h1
  · exact pending_lt h b h1
  · exact h1.2

theorem commitSet_eq {s : State} (h : ReadyInv s) :
    commitSet s = s.cache.dom.filter (fun b => decide (b < committedBlocks s))
      ++ List.range' (committedBlocks s) (newPhys s / 16 - committedBlocks s) := by
  have e : s.cache.dom.filter (fun b => decide (committedBlocks s ≤ b ∧ newPhys s / 16 ≤ b)) = [] := by
    rw [List.filter_eq_nil_iff]
    intro b hb
    have := pending_lt h b hb
    simp only [decide_eq_true_eq]
    omega
  unfold commitSet
  simp only [e, List.append_nil]

/-- The commit set is strictly rising (42_channel_commands.md R114, R115). -/
theorem commitSet_sorted {s : State} (h : ReadyInv s) (hc : s.cache.wf = true) :
    (commitSet s).Pairwise (· < ·) := by
  rw [commitSet_eq h, List.pairwise_append]
  refine ⟨(Cache.dom_sorted _ hc).filter _, List.pairwise_lt_range', ?_⟩
  intro a ha b hb
  simp only [List.mem_filter, decide_eq_true_eq, List.mem_range'_1] at ha hb
  omega

theorem appendable_append (n : Nat) (l l' : List Nat) (hl : ∀ b ∈ l, b < n) (h : Appendable n l') :
    Appendable n (l ++ l') := by
  induction l with
  | nil => exact h
  | cons b rest ih =>
    have hb := hl b (by simp)
    have e : max n (b + 1) = n := by omega
    refine ⟨by omega, ?_⟩
    rw [e]
    exact ih fun x hx => hl x (by simp [hx])

theorem appendable_range' (n k : Nat) : Appendable n (List.range' n k) := by
  induction k generalizing n with
  | zero => trivial
  | succ k ih =>
    have e : max n (n + 1) = n + 1 := by omega
    rw [List.range'_succ]
    refine ⟨Nat.le_refl _, ?_⟩
    rw [e]
    exact ih (n + 1)

/-- Every write of a FLUSH is inside the store or appends to it (20_memory.md R41). -/
theorem commitSet_appendable {s : State} (h : ReadyInv s) :
    Appendable (committedBlocks s) (commitSet s) := by
  rw [commitSet_eq h]
  refine appendable_append _ _ _ ?_ (appendable_range' _ _)
  intro b hb
  simpa using (List.mem_filter.mp hb).2

/-- The store is as long as NEWPHYS after the whole commit set (42_channel_commands.md R114). -/
theorem len_committed {s : State} (h : ReadyInv s) :
    (commitAll s s.store (commitSet s)).len = newPhys s := by
  have hmod := newPhys_mod h
  apply Nat.le_antisymm
  · apply len_commitAll_le
    · exact h.paddedLength
    · intro b hb
      have := lt_of_mem_commitSet h b hb
      simp only [phys]
      omega
  · have h1 := len_le_commitAll s s.store (commitSet s)
    have h16 := h.wholeBlocks
    by_cases hlt : storeLen s < newPhys s
    · have hm : newPhys s / 16 - 1 ∈ commitSet s := (mem_commitSet h _).mpr (.inr (by
        simp only [committedBlocks]; omega))
      have := mem_le_len_commitAll s s.store _ _ hm
      simp only [phys] at this
      omega
    · simp only [storeLen] at hlt h1
      omega

/-! ### FLUSH -/

theorem lastWritten_none (m : Memory) : LastWritten m none := by simp [LastWritten]

/-- `FLUSH` when it succeeds (R114, R117). -/
theorem flushOp_ok {s t : State} {v : DWord} (hw : s.store.wf = true) (h : flushOp s = .ok v t) :
    v = 0#64 ∧ ((s.cache = [] ∧ t = s) ∨ (s.cache ≠ [] ∧ ∃ fr, fr <:+ s.fates ∧
      t = { s with store := commitAll s s.store (commitSet s), fates := fr, cache := [],
                   len := (commitAll s s.store (commitSet s)).len })) := by
  unfold flushOp at h
  rw [cmd_get_bind] at h
  cases hc : s.cache with
  | nil =>
    simp only [hc, List.isEmpty_nil, if_true, cmd_pure, EStateM.Result.ok.injEq] at h
    exact ⟨h.1.symm, .inl ⟨rfl, h.2.symm⟩⟩
  | cons e rest =>
    simp only [hc, List.isEmpty_cons, Bool.false_eq_true, if_false] at h
    obtain ⟨⟨⟩, u, h1, h2⟩ := cmd_bind_ok.mp h
    obtain ⟨fr, rfl, hfr⟩ := commitBlocks_ok hw (lastWritten_none _) h1
    simp only [cmd_modify_bind, cmd_pure, EStateM.Result.ok.injEq] at h2
    obtain ⟨rfl, rfl⟩ := h2
    exact ⟨rfl, .inr ⟨by simp, fr, hfr, rfl⟩⟩

/-- `FLUSH` when it ends early (R116): a strict part of the commit set, from its start, is committed;
nothing else changes. -/
theorem flushOp_error {s t : State} {e : Exc} (hw : s.store.wf = true) (h : flushOp s = .error e t) :
    s.cache ≠ [] ∧ ∃ n fr, n < (commitSet s).length
      ∧ t = s.withStore (commitAll s s.store ((commitSet s).take n)) fr
      ∧ fr <:+ s.fates
      ∧ ((∃ w, e = .raised .ioError w ∧ CommitErrors s (commitSet s) w)
        ∨ (∃ f, e = .fault f) ∧
          ¬ (storeLen s % 16 = 0 ∧ Appendable (committedBlocks s) (commitSet s))) := by
  unfold flushOp at h
  rw [cmd_get_bind] at h
  cases hc : s.cache with
  | nil => simp [hc] at h
  | cons x rest =>
    simp only [hc, List.isEmpty_cons, Bool.false_eq_true, if_false] at h
    rcases cmd_bind_error.mp h with h1 | ⟨a, u, h1, h2⟩
    · exact ⟨by simp, commitBlocks_error hw (lastWritten_none _) h1⟩
    · simp at h2

/-- A block of the commit set does not fit only when the new store does not (R114; log 12). -/
theorem newPhys_of_commitErrors {s : State} (hr : ReadyInv s) {w : DWord}
    (h : CommitErrors s (commitSet s) w) :
    Fate.fails w ∈ s.fates ∨ (w = s.fullError ∧ posLimit s ≤ newPhys s) := by
  refine h.imp_right fun ⟨h1, b, hb, h2⟩ => ⟨h1, ?_⟩
  have := lt_of_mem_commitSet hr b hb
  have := newPhys_mod hr
  simp only [phys] at h2
  omega

/-- In a consistent session a FLUSH whose store accesses all succeed, over a store with room, succeeds
(R114). -/
theorem flushOp_succeeds {s : State} (hw : s.store.wf = true) (hr : ReadyInv s)
    (hf : fatesSucceed s.fates) (hn : newPhys s < posLimit s) : ∃ t, flushOp s = .ok 0#64 t := by
  cases h : flushOp s with
  | ok v t => exact ⟨t, by rw [(flushOp_ok hw h).1]⟩
  | error e t =>
    obtain ⟨-, n, fr, -, -, -, ⟨w, -, hw'⟩ | ⟨-, hx⟩⟩ := flushOp_error hw h
    · rcases newPhys_of_commitErrors hr hw' with h1 | ⟨-, h1⟩
      · exact absurd (hf _ h1) (by simp)
      · omega
    · exact absurd ⟨hr.wholeBlocks, commitSet_appendable hr⟩ hx

/-- In a consistent session a FLUSH makes no access outside the store (20_memory.md R40, R41). -/
theorem flushOp_error_inv {s t : State} {e : Exc} (hw : s.store.wf = true) (hr : ReadyInv s)
    (h : flushOp s = .error e t) :
    s.cache ≠ [] ∧ ∃ n fr w, n < (commitSet s).length
      ∧ t = s.withStore (commitAll s s.store ((commitSet s).take n)) fr
      ∧ fr <:+ s.fates ∧ e = .raised .ioError w
      ∧ (Fate.fails w ∈ s.fates ∨ (w = s.fullError ∧ posLimit s ≤ newPhys s)) := by
  obtain ⟨hc, n, fr, hn, ht, hfr, ⟨w, hw1, hw2⟩ | ⟨-, hx⟩⟩ := flushOp_error hw h
  · exact ⟨hc, n, fr, w, hn, ht, hfr, hw1, newPhys_of_commitErrors hr hw2⟩
  · exact absurd ⟨hr.wholeBlocks, commitSet_appendable hr⟩ hx

/-! ### DISPOSE -/

/-- `DISPOSE` is a FLUSH and the end of the session (R118, R119). -/
theorem disposeOp_apply (s : State) :
    disposeOp s = match flushOp s with
      | .ok _ t => .ok 0#64 (endSession t)
      | .error e t => .error e t := by
  unfold disposeOp
  rw [cmd_bind]
  cases flushOp s <;> rfl

end Sys2Proof.Machine
end

