-- ==== Sys2Proof/Laws/Frame.lean ====
section
/-! SUPPORT. The common frame of a command (42_channel_commands.md R91): what it can answer, said once,
and the operations that touch no store block as plain equations. -/

namespace Sys2Proof.Machine

/-- The state an operation starts from: DOUT is empty (R91). -/
def State.started (s : State) : State := { s with dout := [] }

/-- A well-formed command in the state that accepts it runs its operation (R91). -/
theorem runCommand_accepted {m : State → Bool} {acc : Fsm} (op : Cmd DWord) {s : State}
    (hm : m s = false) (hf : s.fsm = acc) : runCommand m acc op s = finish (op s.started) := by
  unfold runCommand
  rw [if_neg (by simp [hm]), if_neg (by simp [hf])]
  rfl

/-- A well-formed command in another state is a `StateError` (R91, 60_exceptions.md R142). -/
theorem runCommand_stateError {m : State → Bool} {acc : Fsm} (op : Cmd DWord) {s : State}
    (hm : m s = false) (hf : s.fsm ≠ acc) :
    runCommand m acc op s = .next (raise .stateError 0#64 s.started) := by
  unfold runCommand
  rw [if_neg (by simp [hm]), if_pos hf]
  rfl

/-- A malformed command is an `IllegalCommand` in every state (R91, 60_exceptions.md R138). -/
theorem runCommand_malformed {m : State → Bool} {acc : Fsm} (op : Cmd DWord) {s : State}
    (hm : m s = true) : runCommand m acc op s = .next (illegalCommand s) := by
  unfold runCommand
  rw [if_pos hm]

/-- How a command's operation answers a next state. -/
theorem finish_next {r : EStateM.Result Exc State DWord} {t : State} :
    finish r = .next t ↔ (∃ v u, r = .ok v u ∧ t = complete v u)
      ∨ ∃ e info u, r = .error (.raised e info) u ∧ t = raise e info u := by
  cases r with
  | ok v u => simp [finish, eq_comm]
  | error e u => cases e <;> simp [finish, eq_comm]

/-- How a command can answer a next state (R91): malformed; not accepted by the session state; its
operation succeeded; its operation raised a fault. -/
theorem runCommand_next {m : State → Bool} {acc : Fsm} {op : Cmd DWord} {s t : State} :
    runCommand m acc op s = .next t ↔
      (m s = true ∧ t = illegalCommand s)
      ∨ (m s = false ∧ s.fsm ≠ acc ∧ t = raise .stateError 0#64 s.started)
      ∨ (m s = false ∧ s.fsm = acc ∧ ∃ v u, op s.started = .ok v u ∧ t = complete v u)
      ∨ (m s = false ∧ s.fsm = acc ∧
          ∃ e info u, op s.started = .error (.raised e info) u ∧ t = raise e info u) := by
  cases hm : m s with
  | true =>
    rw [runCommand_malformed op hm]
    simp [eq_comm]
  | false =>
    by_cases hf : s.fsm = acc
    · rw [runCommand_accepted op hm hf, finish_next]
      simp [hf]
    · rw [runCommand_stateError op hm hf]
      simp [hf, eq_comm]

/-- The operation of a command stopped the model (R91). -/
theorem runCommand_fault {m : State → Bool} {acc : Fsm} {op : Cmd DWord} {s : State} {f : Fault}
    (h : runCommand m acc op s = .fault f) :
    s.fsm = acc ∧ ∃ u, op s.started = .error (.fault f) u := by
  cases hm : m s with
  | true => simp [runCommand_malformed op hm] at h
  | false =>
    by_cases hf : s.fsm = acc
    · rw [runCommand_accepted op hm hf] at h
      refine ⟨hf, ?_⟩
      cases hr : op s.started with
      | ok v u => simp [hr, finish] at h
      | error e u => cases e <;> simp_all [finish]
    · simp [runCommand_stateError op hm hf] at h

/-- `OPEN` (R92). -/
theorem openOp_apply (mode : Mode) (lo : Bool) (s : State) :
    openOp mode lo s =
      if operandsOk mode s then
        if s.storeOpen then
          if lengthOk mode s then .ok 0#64 (openSession mode lo s)
          else .error (.raised .configurationError 0#64) { s with fsm := .rejected }
        else .error (.refused .storeNotOpen) s
      else .error (.raised .configurationError 0#64) { s with fsm := .rejected } := by
  simp only [openOp, cmd_get_bind, cmd_ite, rejectSession, cmd_modify_bind, cmd_raiseFault,
    cmd_set_bind, cmd_pure, cmd_throw]

/-- The common tail of `SEEK` and `SETPOS` (R105). -/
theorem moveTo_apply (target : State → Int) (s : State) :
    moveTo target s =
      if target s < 0 ∨ (posLimit s : Int) ≤ target s then
        .error (.raised .argumentError 0#64) s
      else .ok (BitVec.ofInt 64 (target s)) { s with pos := (target s).toNat } := by
  simp only [moveTo, cmd_get_bind, cmd_ite, cmd_raiseFault, cmd_set_bind, cmd_pure]

/-- `GETPOS` and `GETLEN` (R107, R108). -/
theorem report_apply (value : State → Nat) (s : State) :
    report value s = .ok (BitVec.ofNat 64 (value s)) s := by
  simp only [report, cmd_get_bind, cmd_pure]

end Sys2Proof.Machine
end

