-- ==== Sys2Proof/Laws/Commands.lean ====
section
/-! SUPPORT. Every command is one operation in the common frame (42_channel_commands.md R91), and what
the operations can change. -/

namespace Sys2Proof.Machine

/-- The operation of a command (42_channel_commands.md R92 to R119). -/
def operation : Instr → Cmd DWord
  | .openEcb lo => openOp .ecb lo
  | .openCbc lo => openOp .cbc lo
  | .openCtr lo => openOp .ctr lo
  | .openXts lo => openOp .xts lo
  | .seekSet => moveTo argSigned
  | .seekCur => moveTo fun s => s.pos + argSigned s
  | .seekEnd => moveTo fun s => s.len + argSigned s
  | .setpos => moveTo argSigned
  | .getpos => report State.pos
  | .getlen => report State.len
  | .read => readOp
  | .write => writeOp
  | .flush => flushOp
  | .dispose => disposeOp

/-- Every command runs its operation in the common frame (R91). -/
theorem exec_eq (i : Instr) (s : State) :
    exec i s = runCommand (malformed i) (acceptingState i) (operation i) s := by
  cases i <;> rfl

theorem exec_openCommand (mode : Mode) (lo : Bool) (s : State) :
    exec (mode.openCommand lo) s = runCommand noPayload .uninitialized (openOp mode lo) s := by
  cases mode <;> rfl

/-- How a command can answer a next state: malformed, in the wrong state, done, or a raised fault. -/
theorem exec_next {i : Instr} {s t : State} :
    exec i s = .next t ↔
      (malformed i s = true ∧ t = illegalCommand s)
      ∨ (malformed i s = false ∧ s.fsm ≠ acceptingState i ∧ t = raise .stateError 0#64 s.started)
      ∨ (malformed i s = false ∧ s.fsm = acceptingState i ∧
          ∃ v u, operation i s.started = .ok v u ∧ t = complete v u)
      ∨ (malformed i s = false ∧ s.fsm = acceptingState i ∧
          ∃ e info u, operation i s.started = .error (.raised e info) u ∧ t = raise e info u) := by
  rw [exec_eq]
  exact runCommand_next

/-- A command in the state that accepts it. -/
theorem exec_accepted {i : Instr} {s : State} (hm : malformed i s = false)
    (hf : s.fsm = acceptingState i) : exec i s = finish (operation i s.started) := by
  rw [exec_eq, runCommand_accepted _ hm hf]

/-- The store `m` keeps the length of the store of `s` a stream position (10_state.md R30). -/
def KeepsRange (s : State) (m : Memory) : Prop := s.store.len < posLimit s → m.len < posLimit s

/-- The commit loop changes the store, whose length stays a stream position, and uses up store outcomes,
nothing else, whatever the state. -/
theorem commitBlocks_state (blocks : List Nat) (last : Option (Nat × Block)) (s : State) :
    (∀ t, commitBlocks blocks last s = .ok () t →
      ∃ m fr, fr <:+ s.fates ∧ t = s.withStore m fr ∧ KeepsRange s m)
    ∧ ∀ e t, commitBlocks blocks last s = .error e t →
        (∃ m fr, fr <:+ s.fates ∧ t = s.withStore m fr ∧ KeepsRange s m)
        ∧ ((∃ w, e = .raised .ioError w ∧ (Fate.fails w ∈ s.fates ∨ w = s.fullError)) ∨ ∃ f, e = .fault f) := by
  have hread : ∀ (x : Option (Nat × Block)) (b : Nat) (u : State),
      ∃ v P, ReadsAs (encChain x b) u v P := by
    intro x b u
    cases hm : u.mode
    case cbc =>
      by_cases hb : b = 0
      · exact ⟨u.p0, True, (reads_pure u.p0 u).of_eq (by
          simp only [encChain, chainEnc, cmd_get_bind, hm, hb, if_true])⟩
      · cases x with
        | none => exact ⟨_, _, (reads_memRead (phys (b - 1)) u).of_eq (by simp [encChain, chainEnc, hm, hb])⟩
        | some kc =>
          obtain ⟨k, c⟩ := kc
          by_cases hk : k + 1 = b
          · exact ⟨c, True, (reads_pure c u).of_eq (by simp [encChain, chainEnc, hm, hb, hk])⟩
          · exact ⟨_, _, (reads_memRead (phys (b - 1)) u).of_eq
              (by simp [encChain, chainEnc, hm, hb, hk])⟩
    all_goals exact ⟨zeroBlock, True, (reads_pure zeroBlock u).of_eq (by simp [encChain, noChain, hm])⟩
  have henc : ∀ (x : Option (Nat × Block)) (b : Nat) (p : Block) (u : State),
      ∃ v P, ReadsAs (encBlock x b p) u v P := by
    intro x b p u
    obtain ⟨v, P, hv⟩ := hread x b u
    have h : ReadsAs (encChain x b >>= fun chain => pure (encWith u b chain p)) u
        (encWith u b v p) (P ∧ True) := ReadsAs.bind hv fun fr => reads_pure _ _
    exact ⟨_, _, h.of_eq (by simp only [encBlock, cmd_get_bind])⟩
  induction blocks generalizing last s with
  | nil =>
    constructor
    · intro t h
      simp only [commitBlocks, cmd_pure, EStateM.Result.ok.injEq, true_and] at h
      exact ⟨s.store, s.fates, List.suffix_refl _, h.symm, id⟩
    · intro e t h
      simp [commitBlocks] at h
  | cons b rest ih =>
    obtain ⟨v, P, hv⟩ := henc last b (commitPlain s b) s
    constructor
    · intro t h
      rw [commitBlocks_cons_apply] at h
      obtain ⟨c, u, h1, h2⟩ := cmd_bind_ok.mp h
      obtain ⟨rfl, fr, rfl, hfr⟩ := hv.onOk h1
      obtain ⟨⟨⟩, u, h3, h4⟩ := cmd_bind_ok.mp h2
      obtain ⟨fr', rfl, hfr', hroom⟩ := memWrite_ok h3
      obtain ⟨m, fr'', hfr'', rfl, hk⟩ := (ih _ _).1 _ h4
      exact ⟨m, fr'', hfr''.trans (hfr'.trans hfr), rfl, fun hl => hk (len_setBlock_lt _ hroom hl)⟩
    · intro e t h
      rw [commitBlocks_cons_apply] at h
      rcases cmd_bind_error.mp h with h1 | ⟨c, u, h1, h2⟩
      · obtain ⟨⟨fr, rfl, hfr⟩, ⟨w, hc, hw⟩ | ⟨hc, -⟩⟩ := hv.onError h1
        · exact ⟨⟨s.store, fr, hfr, rfl, id⟩, .inl ⟨w, hc, .inl hw⟩⟩
        · exact ⟨⟨s.store, fr, hfr, rfl, id⟩, .inr hc⟩
      · obtain ⟨rfl, fr, rfl, hfr⟩ := hv.onOk h1
        rcases cmd_bind_error.mp h2 with h3 | ⟨⟨⟩, u, h3, h4⟩
        · obtain ⟨⟨fr', rfl, hfr'⟩, ⟨w, rfl, hw⟩ | ⟨hc, -⟩⟩ := memWrite_error h3
          · exact ⟨⟨s.store, fr', hfr'.trans hfr, rfl, id⟩, .inl ⟨w, rfl, hw.imp (hfr.subset ·) (·.1)⟩⟩
          · exact ⟨⟨s.store, fr', hfr'.trans hfr, rfl, id⟩, .inr hc⟩
        · obtain ⟨fr', rfl, hfr', hroom⟩ := memWrite_ok h3
          obtain ⟨⟨m, fr'', hfr'', rfl, hk⟩, hc⟩ := (ih _ _).2 _ _ h4
          refine ⟨⟨m, fr'', hfr''.trans (hfr'.trans hfr), rfl, fun hl => hk (len_setBlock_lt _ hroom hl)⟩, ?_⟩
          exact hc.imp_left fun ⟨w, h, hw⟩ => ⟨w, h, hw.imp_left fun hw => hfr.subset (hfr'.subset hw)⟩

/-- `FLUSH` from any state: a success changes only the store, CACHE and LEN, a failure only the store
(R114, R116). -/
theorem flushOp_state (s : State) :
    (∀ v t, flushOp s = .ok v t → v = 0#64 ∧ (t = s ∨ (s.cache ≠ [] ∧
      ∃ m fr, fr <:+ s.fates ∧ KeepsRange s m
        ∧ t = { s with store := m, fates := fr, cache := [], len := m.len })))
    ∧ ∀ e t, flushOp s = .error e t → s.cache ≠ []
        ∧ (∃ m fr, fr <:+ s.fates ∧ t = s.withStore m fr ∧ KeepsRange s m)
        ∧ ((∃ w, e = .raised .ioError w ∧ (Fate.fails w ∈ s.fates ∨ w = s.fullError)) ∨ ∃ f, e = .fault f) := by
  have hb := commitBlocks_state (commitSet s) none s
  unfold flushOp
  rw [cmd_get_bind]
  cases hc : s.cache with
  | nil =>
    simp only [List.isEmpty_nil, if_true, cmd_pure]
    refine ⟨fun v t h => ?_, fun e t h => by simp at h⟩
    simp only [EStateM.Result.ok.injEq] at h
    exact ⟨h.1.symm, .inl h.2.symm⟩
  | cons x rest =>
    simp only [List.isEmpty_cons, Bool.false_eq_true, if_false]
    constructor
    · intro v t h
      obtain ⟨⟨⟩, u, h1, h2⟩ := cmd_bind_ok.mp h
      obtain ⟨m, fr, hfr, rfl, hk⟩ := hb.1 _ h1
      simp only [cmd_modify_bind, cmd_pure, EStateM.Result.ok.injEq] at h2
      obtain ⟨rfl, rfl⟩ := h2
      exact ⟨rfl, .inr ⟨by simp, m, fr, hfr, hk, rfl⟩⟩
    · intro e t h
      rcases cmd_bind_error.mp h with h1 | ⟨a, u, h1, h2⟩
      · exact ⟨by simp, hb.2 _ _ h1⟩
      · simp at h2

/-- What an operation leaves alone when it answers: the operand registers, DIN, the record of the last
command, the parameters and the model's own fields; of the store outcomes it uses up some, from the
first on. -/
theorem operation_state (i : Instr) (s : State) :
    (∀ v t, operation i s = .ok v t →
      t = { s with fsm := t.fsm, mode := t.mode, kd := t.kd, kt := t.kt, p0 := t.p0, ss := t.ss,
                   lo := t.lo, pos := t.pos, len := t.len, cache := t.cache, dout := t.dout,
                   store := t.store, storeOpen := t.storeOpen, fates := t.fates }
        ∧ t.fates <:+ s.fates)
    ∧ ∀ e t, operation i s = .error e t →
      t = { s with fsm := t.fsm, store := t.store, fates := t.fates } ∧ t.fates <:+ s.fates := by
  cases i
  case read =>
    refine ⟨fun v t h => ?_, fun e t h => ?_⟩
    · rcases readOp_ok h with ⟨-, -, rfl⟩ | ⟨-, -, -, fr, hfr, rfl⟩
      · exact ⟨rfl, List.suffix_refl _⟩
      · exact ⟨rfl, hfr⟩
    · obtain ⟨⟨fr, rfl, hfr⟩, -⟩ := readOp_error h
      exact ⟨rfl, hfr⟩
  case write =>
    refine ⟨fun v t h => ?_, fun e t h => ?_⟩
    · rcases writeOp_ok h with ⟨-, ⟨-, rfl⟩ | ⟨-, -, fr, hfr, rfl⟩⟩
      · exact ⟨rfl, List.suffix_refl _⟩
      · exact ⟨rfl, hfr⟩
    · obtain ⟨⟨fr, rfl, hfr⟩, -⟩ := writeOp_error h
      exact ⟨rfl, hfr⟩
  case flush =>
    refine ⟨fun v t h => ?_, fun e t h => ?_⟩
    · rcases (flushOp_state s).1 v t h with ⟨-, rfl | ⟨-, m, fr, hfr, -, rfl⟩⟩
      · exact ⟨rfl, List.suffix_refl _⟩
      · exact ⟨rfl, hfr⟩
    · obtain ⟨-, ⟨m, fr, hfr, rfl, -⟩, -⟩ := (flushOp_state s).2 e t h
      exact ⟨rfl, hfr⟩
  case dispose =>
    have h0 : operation .dispose s = disposeOp s := rfl
    rw [h0, disposeOp_apply]
    cases hf : flushOp s with
    | ok v u =>
      refine ⟨fun v' t h => ?_, fun e t h => by simp at h⟩
      simp only [EStateM.Result.ok.injEq] at h
      obtain ⟨-, rfl⟩ := h
      unfold endSession storeClose
      rcases (flushOp_state s).1 v u hf with ⟨-, rfl | ⟨-, m, fr, hfr, -, rfl⟩⟩
      · split <;> exact ⟨rfl, List.suffix_refl _⟩
      · split <;> exact ⟨rfl, hfr⟩
    | error e u =>
      refine ⟨fun v' t h => by simp at h, fun e' t h => ?_⟩
      simp only [EStateM.Result.error.injEq] at h
      obtain ⟨-, rfl⟩ := h
      obtain ⟨-, ⟨m, fr, hfr, rfl, -⟩, -⟩ := (flushOp_state s).2 e u hf
      exact ⟨rfl, hfr⟩
  case getpos | getlen =>
    simp only [operation, report_apply]
    refine ⟨fun v t h => ?_, fun e t h => by simp at h⟩
    simp only [EStateM.Result.ok.injEq] at h
    obtain ⟨-, rfl⟩ := h
    exact ⟨rfl, List.suffix_refl _⟩
  case seekSet | seekCur | seekEnd | setpos =>
    simp only [operation, moveTo_apply]
    refine ⟨fun v t h => ?_, fun e t h => ?_⟩
    · split at h
      · simp at h
      · simp only [EStateM.Result.ok.injEq] at h
        obtain ⟨-, rfl⟩ := h
        exact ⟨rfl, List.suffix_refl _⟩
    · split at h
      · simp only [EStateM.Result.error.injEq] at h
        obtain ⟨-, rfl⟩ := h
        exact ⟨rfl, List.suffix_refl _⟩
      · simp at h
  all_goals
    simp only [operation, openOp_apply]
    refine ⟨fun v t h => ?_, fun e t h => ?_⟩
    · split at h
      · split at h
        · split at h
          · simp only [EStateM.Result.ok.injEq] at h
            obtain ⟨-, rfl⟩ := h
            exact ⟨rfl, List.suffix_refl _⟩
          · simp at h
        · simp at h
      · simp at h
    · split at h
      · split at h
        · split at h
          · simp at h
          · simp only [EStateM.Result.error.injEq] at h
            obtain ⟨-, rfl⟩ := h
            exact ⟨rfl, List.suffix_refl _⟩
        · simp only [EStateM.Result.error.injEq] at h
          obtain ⟨-, rfl⟩ := h
          exact ⟨rfl, List.suffix_refl _⟩
      · simp only [EStateM.Result.error.injEq] at h
        obtain ⟨-, rfl⟩ := h
        exact ⟨rfl, List.suffix_refl _⟩

/-- The commands that move POS by a given target (42_channel_commands.md R105). -/
def positions : Instr → Bool
  | .seekSet | .seekCur | .seekEnd | .setpos => true
  | .openEcb _ | .openCbc _ | .openCtr _ | .openXts _ | .getpos | .getlen
  | .read | .write | .flush | .dispose => false

/-- How an operation can end early, and in which command (60_exceptions.md R136). -/
theorem operation_error {i : Instr} {s t : State} {e : Exc} (h : operation i s = .error e t) :
    (opens i = true ∧ e = .raised .configurationError 0#64 ∧ t = { s with fsm := .rejected })
    ∨ (opens i = true ∧ e = .refused .storeNotOpen ∧ t = s)
    ∨ ((positions i = true ∨ i = .write) ∧ e = .raised .argumentError 0#64)
    ∨ (i = .read ∧ e = .raised .endOfStreamError 0#64 ∧ 0 < argCount s ∧ s.len < s.pos + argCount s)
    ∨ (i = .write ∧ e = .raised .illegalCommand 0#64)
    ∨ ((i = .read ∨ i = .write ∨ i = .flush ∨ i = .dispose)
        ∧ ∃ w, e = .raised .ioError w
          ∧ (Fate.fails w ∈ s.fates ∨ ((i = .flush ∨ i = .dispose) ∧ w = s.fullError)))
    ∨ ((i = .flush ∨ i = .dispose) ∧ ∃ f, e = .fault f) := by
  cases i
  case read =>
    rcases (readOp_error h).2 with ⟨h1, -, h2, h3⟩ | ⟨w, h1, h2⟩
    · simp [h1, h2, h3]
    · simp [h1, h2]
  case write =>
    rcases (writeOp_error h).2 with h1 | h1 | ⟨w, h1, h2⟩
    · simp [h1]
    · simp [h1]
    · simp [h1, h2]
  case flush =>
    rcases ((flushOp_state s).2 e t h).2.2 with ⟨w, h1, h2⟩ | ⟨f, h1⟩
    · simp [h1, h2]
    · simp [h1]
  case dispose =>
    have h0 : operation .dispose s = disposeOp s := rfl
    rw [h0, disposeOp_apply] at h
    cases hf : flushOp s with
    | ok v u => simp [hf] at h
    | error e' u =>
      simp only [hf, EStateM.Result.error.injEq] at h
      obtain ⟨rfl, rfl⟩ := h
      rcases ((flushOp_state s).2 _ _ hf).2.2 with ⟨w, h1, h2⟩ | ⟨f, h1⟩
      · simp [h1, h2]
      · simp [h1]
  case getpos | getlen => simp [operation, report_apply] at h
  case seekSet | seekCur | seekEnd | setpos =>
    simp only [operation, moveTo_apply] at h
    split at h
    · simp only [EStateM.Result.error.injEq] at h
      simp [positions, ← h.1]
    · simp at h
  all_goals
    simp only [operation, openOp_apply] at h
    split at h
    · split at h
      · split at h
        · simp at h
        · simp only [EStateM.Result.error.injEq] at h
          exact .inl ⟨rfl, h.1.symm, h.2.symm⟩
      · simp only [EStateM.Result.error.injEq] at h
        exact .inr (.inl ⟨rfl, h.1.symm, h.2.symm⟩)
    · simp only [EStateM.Result.error.injEq] at h
      exact .inl ⟨rfl, h.1.symm, h.2.symm⟩

/-- Only FLUSH and DISPOSE change the store (20_memory.md R41), and an operation other than `OPEN` that
ends early leaves the session state (60_exceptions.md R146). -/
theorem operation_store (i : Instr) (s : State) :
    (∀ v t, operation i s = .ok v t → i ≠ .flush → i ≠ .dispose → t.store = s.store)
    ∧ ∀ e t, operation i s = .error e t →
      (opens i = false → t.fsm = s.fsm) ∧ (i ≠ .flush → i ≠ .dispose → t.store = s.store) := by
  cases i
  case read =>
    refine ⟨fun v t h _ _ => ?_, fun e t h => ?_⟩
    · rcases readOp_ok h with ⟨-, -, rfl⟩ | ⟨-, -, -, fr, -, rfl⟩ <;> rfl
    · obtain ⟨⟨fr, rfl, -⟩, -⟩ := readOp_error h
      exact ⟨fun _ => rfl, fun _ _ => rfl⟩
  case write =>
    refine ⟨fun v t h _ _ => ?_, fun e t h => ?_⟩
    · rcases writeOp_ok h with ⟨-, ⟨-, rfl⟩ | ⟨-, -, fr, -, rfl⟩⟩ <;> rfl
    · obtain ⟨⟨fr, rfl, -⟩, -⟩ := writeOp_error h
      exact ⟨fun _ => rfl, fun _ _ => rfl⟩
  case flush =>
    refine ⟨fun v t h h1 _ => absurd rfl h1, fun e t h => ?_⟩
    obtain ⟨-, ⟨m, fr, -, rfl, -⟩, -⟩ := (flushOp_state s).2 e t h
    exact ⟨fun _ => rfl, fun h1 _ => absurd rfl h1⟩
  case dispose =>
    refine ⟨fun v t h _ h1 => absurd rfl h1, fun e t h => ⟨fun _ => ?_, fun _ h1 => absurd rfl h1⟩⟩
    have h0 : operation .dispose s = disposeOp s := rfl
    rw [h0, disposeOp_apply] at h
    cases hf : flushOp s with
    | ok v u => simp [hf] at h
    | error e' u =>
      simp only [hf, EStateM.Result.error.injEq] at h
      obtain ⟨-, rfl⟩ := h
      obtain ⟨-, ⟨m, fr, -, rfl, -⟩, -⟩ := (flushOp_state s).2 _ _ hf
      rfl
  case getpos | getlen =>
    simp only [operation, report_apply]
    refine ⟨fun v t h _ _ => ?_, fun e t h => by simp at h⟩
    simp only [EStateM.Result.ok.injEq] at h
    rw [← h.2]
  case seekSet | seekCur | seekEnd | setpos =>
    simp only [operation, moveTo_apply]
    refine ⟨fun v t h _ _ => ?_, fun e t h => ?_⟩
    · split at h
      · simp at h
      · simp only [EStateM.Result.ok.injEq] at h
        rw [← h.2]
    · split at h
      · simp only [EStateM.Result.error.injEq] at h
        rw [← h.2]
        exact ⟨fun _ => rfl, fun _ _ => rfl⟩
      · simp at h
  all_goals
    refine ⟨fun v t h _ _ => ?_, fun e t h => ⟨fun h1 => by simp [opens] at h1, fun _ _ => ?_⟩⟩
    · simp only [operation, openOp_apply] at h
      split at h
      · split at h
        · split at h
          · simp only [EStateM.Result.ok.injEq] at h
            rw [← h.2]
            rfl
          · simp at h
        · simp at h
      · simp at h
    · rcases operation_error h with ⟨-, -, rfl⟩ | ⟨-, -, rfl⟩ | ⟨h1, -⟩ | ⟨h1, -⟩ | ⟨h1, -⟩ | ⟨h1, -⟩ | ⟨h1, -⟩
      · rfl
      · rfl
      all_goals simp [positions] at h1

end Sys2Proof.Machine
end

