-- ==== Sys2Proof/Laws/Failing.lean ====
section
/-! SUPPORT. What ends a command with `IoError`: the parts that pass the failure of the next store access
on, and the commit loop, which meets every outcome it needs (60_exceptions.md R141). -/

namespace Sys2Proof.Machine

/-- When the next store access fails, the part ends with `IoError` of that access and changes nothing but
the outcome used up. -/
def FailsFirst {α : Type} (x : Cmd α) (s : State) : Prop :=
  ∀ e rest, s.fates = .fails e :: rest → x s = .error (.raised .ioError e) (s.withFates rest)

/-- A sequence fails where its first part does. -/
theorem FailsFirst.bind {α β : Type} {x : Cmd α} {s : State} (h : FailsFirst x s) (f : α → Cmd β) :
    FailsFirst (x >>= f) s := fun e rest hf => by rw [cmd_bind, h e rest hf]

/-- A sequence fails where its second part does when the first makes no access. -/
theorem FailsFirst.after {α β : Type} {x : Cmd α} {s : State} {a : α} {f : α → Cmd β}
    (hx : x s = .ok a s) (h : FailsFirst (f a) s) : FailsFirst (x >>= f) s := fun e rest hf => by
  rw [cmd_bind, hx]
  exact h e rest hf

/-- A part that runs as a failing part does fails as it. -/
theorem FailsFirst.of_eq {α : Type} {x y : Cmd α} {s : State} (h : FailsFirst x s) (e : y s = x s) :
    FailsFirst y s := fun w rest hf => e.trans (h w rest hf)

theorem failsFirst_memRead {s : State} {o : Nat} (h : o % 16 = 0 ∧ o + 16 ≤ storeLen s) :
    FailsFirst (memRead o) s := fun e rest hf => by
  simp only [memRead, if_pos h, hf, nextFate, State.withFates]

theorem failsFirst_memWrite {s : State} {o : Nat} (v : Block) (h : o % 16 = 0 ∧ o ≤ storeLen s) :
    FailsFirst (memWrite o v) s := fun e rest hf => by
  simp only [memWrite, if_pos h, writeFate, hf, nextFate, State.withFates]

theorem failsFirst_committedPlain {s : State} {b : Nat} (h : b < committedBlocks s) :
    FailsFirst (committedPlain b) s := (failsFirst_memRead (phys_in_range h)).bind _

/-! ### READ and WRITE -/

/-- Reading blocks fails first when one of them has to be read from the store (20_memory.md R52). -/
theorem failsFirst_readBlocks {s : State} (n b : Nat)
    (h : ∃ x, b ≤ x ∧ x < b + n ∧ s.cache.get x = none ∧ x < committedBlocks s) :
    FailsFirst (readBlocks n b) s := by
  induction n generalizing b with
  | zero => obtain ⟨x, h1, h2, -⟩ := h; omega
  | succ n ih =>
    obtain ⟨x, h1, h2, h3, h4⟩ := h
    have hrest : x ≠ b → FailsFirst (readBlocks n (b + 1)) s := fun hx =>
      ih (b + 1) ⟨x, by omega, by omega, h3, h4⟩
    cases hg : s.cache.get b with
    | some p =>
      have hx : x ≠ b := fun e => by rw [e, hg] at h3; cases h3
      exact FailsFirst.after (x := plainBlock b) (a := p) (by simp [plainBlock, hg])
        ((hrest hx).bind _)
    | none =>
      by_cases hb : b < committedBlocks s
      · exact FailsFirst.bind (x := plainBlock b)
          ((failsFirst_committedPlain hb).of_eq (by simp [plainBlock, hg, hb])) _
      · exact FailsFirst.after (x := plainBlock b) (a := zeroBlock) (by simp [plainBlock, hg, hb])
          ((hrest (by omega)).bind _)

/-- Seeding blocks fails first when one of them is committed (42_channel_commands.md R111). -/
theorem failsFirst_seedBlocks {s : State} (l : List Nat) (c : Cache)
    (h : ∃ x ∈ l, x < committedBlocks s) : FailsFirst (seedBlocks l c) s := by
  induction l generalizing c with
  | nil => obtain ⟨x, h1, -⟩ := h; cases h1
  | cons b rest ih =>
    by_cases hb : b < committedBlocks s
    · exact FailsFirst.bind (x := seedBlock b)
        ((failsFirst_committedPlain hb).of_eq (by simp [seedBlock, hb])) _
    · obtain ⟨x, h1, h2⟩ := h
      rcases List.mem_cons.mp h1 with rfl | h1
      · exact absurd h2 hb
      · exact FailsFirst.after (x := seedBlock b) (a := zeroBlock) (by simp [seedBlock, hb])
          (ih _ ⟨x, h1, h2⟩)

/-- `READ` fails first when a touched block has to be read (R109). -/
theorem failsFirst_readOp {s : State} (h0 : 0 < argCount s) (hl : s.pos + argCount s ≤ s.len)
    (h : ∃ x, blk s.pos ≤ x ∧ x ≤ blk (s.pos + argCount s - 1) ∧ s.cache.get x = none
      ∧ x < committedBlocks s) : FailsFirst readOp s := by
  obtain ⟨x, h1, h2, h3, h4⟩ := h
  have hx := failsFirst_readBlocks (s := s) (touchedBlocks s.pos (argCount s)) (blk s.pos)
    ⟨x, h1, by simp only [touchedBlocks]; omega, h3, h4⟩
  intro e rest hf
  unfold readOp
  rw [cmd_get_bind]
  simp only [Nat.ne_of_gt h0, if_false, Nat.not_lt.mpr hl]
  exact hx.bind _ e rest hf

/-- `WRITE` fails first when a block it has to seed is committed (R111). -/
theorem failsFirst_writeOp {s : State} (h0 : 0 < argCount s) (hl : s.pos + argCount s < posLimit s)
    (h : ∃ x ∈ seedSet s (blk s.pos) (blk (s.pos + argCount s - 1)), x < committedBlocks s) :
    FailsFirst writeOp s := by
  intro e rest hf
  unfold writeOp
  rw [cmd_get_bind]
  simp only [Nat.ne_of_gt h0, if_false, Nat.not_le.mpr hl]
  exact (failsFirst_seedBlocks _ s.cache h).bind _ e rest hf

/-! ### FLUSH and DISPOSE -/

/-- The chaining value of an encryption makes no access, or one in range, when the block appends to the
store or lies inside it (41_mode_engines.md R77). -/
theorem encChain_cases (s : State) (last : Option (Nat × Block)) (b : Nat) :
    (∃ v, encChain last b s = .ok v s)
      ∨ encChain last b s = memRead (phys (b - 1)) s ∧ b ≠ 0 := by
  unfold encChain
  rw [cmd_get_bind]
  cases s.mode with
  | cbc =>
    simp only [chainEnc, cmd_get_bind, cmd_ite]
    split
    · exact .inl ⟨s.p0, rfl⟩
    · rename_i hb
      cases last with
      | none => exact .inr ⟨rfl, hb⟩
      | some kc =>
        obtain ⟨k, c⟩ := kc
        simp only [cmd_ite]
        split
        · exact .inl ⟨c, rfl⟩
        · exact .inr ⟨rfl, hb⟩
  | ecb => exact .inl ⟨zeroBlock, rfl⟩
  | ctr => exact .inl ⟨zeroBlock, rfl⟩
  | xts => exact .inl ⟨zeroBlock, rfl⟩

/-- The encryption of a block answers without an access, or as its one read of the store does. -/
theorem encBlock_cases (s : State) (last : Option (Nat × Block)) (b : Nat) (p : Block) :
    (∃ c, encBlock last b p s = .ok c s)
      ∨ encBlock last b p s = (memRead (phys (b - 1)) >>= fun ch => pure (encWith s b ch p)) s ∧ b ≠ 0 := by
  have e : encBlock last b p s = (encChain last b >>= fun ch => pure (encWith s b ch p)) s := by
    simp only [encBlock, cmd_get_bind]
  rw [e, cmd_bind, cmd_bind]
  rcases encChain_cases s last b with ⟨v, h⟩ | ⟨h, hb⟩
  · exact .inl ⟨encWith s b v p, by rw [h]; rfl⟩
  · exact .inr ⟨by rw [h], hb⟩

/-- The commit of a block fails first when it is inside the store or appends to it (R114). -/
theorem failsFirst_commitBlocks {s : State} (b : Nat) (rest : List Nat) (last : Option (Nat × Block))
    (h16 : storeLen s % 16 = 0) (hb : b ≤ committedBlocks s) :
    FailsFirst (commitBlocks (b :: rest) last) s := by
  have hrange : phys b % 16 = 0 ∧ phys b ≤ storeLen s := by
    simp only [phys, committedBlocks] at *
    omega
  refine FailsFirst.of_eq ?_ (commitBlocks_cons_apply b rest last s)
  rcases encBlock_cases s last b (commitPlain s b) with ⟨c, h⟩ | ⟨h, h0⟩
  · exact FailsFirst.after h ((failsFirst_memWrite c hrange).bind _)
  · refine FailsFirst.bind (FailsFirst.of_eq (FailsFirst.bind (failsFirst_memRead ?_) _) h) _
    simp only [phys, committedBlocks] at *
    omega

/-- `FLUSH` of a consistent session with pending blocks fails first (R116). -/
theorem failsFirst_flushOp {s : State} (hr : ReadyInv s) (hc : s.cache ≠ []) :
    FailsFirst flushOp s := by
  have hne : commitSet s ≠ [] := by
    cases hx : s.cache with
    | nil => exact absurd hx hc
    | cons e l =>
      have hm : e.1 ∈ commitSet s := (mem_commitSet hr _).mpr (.inl (by simp [hx, Cache.dom]))
      exact List.ne_nil_of_mem hm
  have ha := commitSet_appendable hr
  cases hl : commitSet s with
  | nil => exact absurd hl hne
  | cons b rest =>
    rw [hl] at ha
    intro e fr hf
    unfold flushOp
    rw [cmd_get_bind]
    simp only [hl, List.isEmpty_iff, hc, if_false]
    exact (failsFirst_commitBlocks b rest none hr.wholeBlocks ha.1).bind _ e fr hf

/-- `DISPOSE` fails as its implicit `FLUSH` does (R119). -/
theorem failsFirst_disposeOp {s : State} (h : FailsFirst flushOp s) : FailsFirst disposeOp s :=
  h.bind _

/-! ### No failure is passed over -/

/-- The outcomes a part that succeeds used up all succeeded: a failure among the first `n + k` coming
outcomes is among the first `n` remaining ones, where the part met at least `k` accesses. -/
def Consumed (k : Nat) (before after : List Fate) : Prop :=
  ∀ e n, Fate.fails e ∈ before.take (n + k) → Fate.fails e ∈ after.take n

theorem Consumed.trans {j k : Nat} {a b c : List Fate} (h1 : Consumed j a b) (h2 : Consumed k b c) :
    Consumed (j + k) a c := fun e n h => h2 e n (h1 e (n + k) (by rwa [show n + k + j = n + (j + k) by omega]))

theorem Consumed.fewer {j k : Nat} {a b : List Fate} (h : Consumed k a b) (hk : j ≤ k) :
    Consumed j a b := fun e n hm => h e n (List.take_subset_take_left _ (by omega) hm)

theorem consumed_refl (l : List Fate) : Consumed 0 l l := fun _ _ h => h

theorem consumed_of_nextFate {l rest : List Fate} (h : nextFate l = (.succeeds, rest)) :
    Consumed 1 l rest := fun e n hm => by
  cases l with
  | nil => simp at hm
  | cons f tail =>
    simp only [nextFate, Prod.mk.injEq] at h
    obtain ⟨rfl, rfl⟩ := h
    simpa using hm

theorem memRead_consumed {o : Nat} {s t : State} {v : Block} (h : memRead o s = .ok v t) :
    Consumed 1 s.fates t.fates := by
  unfold memRead at h
  split at h
  · split at h
    · rename_i rest hn
      simp only [EStateM.Result.ok.injEq] at h
      rw [← h.2]
      exact consumed_of_nextFate hn
    · simp at h
  · simp at h

theorem memWrite_consumed {o : Nat} {v : Block} {s t : State} (h : memWrite o v s = .ok () t) :
    Consumed 1 s.fates t.fates := by
  unfold memWrite at h
  split at h
  · split at h
    · rename_i rest hn
      simp only [EStateM.Result.ok.injEq, true_and] at h
      rw [← h]
      exact consumed_of_nextFate (writeFate_succeeds hn).1
    · simp at h
  · simp at h

theorem encBlock_consumed {last : Option (Nat × Block)} {b : Nat} {p c : Block} {s t : State}
    (h : encBlock last b p s = .ok c t) : Consumed 0 s.fates t.fates := by
  rcases encBlock_cases s last b p with ⟨c', h'⟩ | ⟨h', -⟩
  · rw [h'] at h
    simp only [EStateM.Result.ok.injEq] at h
    rw [← h.2]
    exact consumed_refl _
  · rw [h'] at h
    obtain ⟨a, u, h1, h2⟩ := cmd_bind_ok.mp h
    simp only [cmd_pure, EStateM.Result.ok.injEq] at h2
    rw [← h2.2]
    exact (memRead_consumed h1).fewer (by omega)

/-- A commit loop that succeeds met at least one outcome for each block (R114). -/
theorem commitBlocks_consumed {blocks : List Nat} {last : Option (Nat × Block)} {s t : State}
    (h : commitBlocks blocks last s = .ok () t) : Consumed blocks.length s.fates t.fates := by
  induction blocks generalizing last s with
  | nil =>
    simp only [commitBlocks, cmd_pure, EStateM.Result.ok.injEq, true_and] at h
    rw [← h]
    exact consumed_refl _
  | cons b rest ih =>
    rw [commitBlocks_cons_apply] at h
    obtain ⟨c, u, h1, h2⟩ := cmd_bind_ok.mp h
    obtain ⟨⟨⟩, w, h3, h4⟩ := cmd_bind_ok.mp h2
    exact (((encBlock_consumed h1).trans (memWrite_consumed h3)).trans (ih h4)).fewer (by simp)

/-- A `FLUSH` with pending blocks that succeeds met no failure among as many outcomes as it commits
blocks (R114). -/
theorem flushOp_consumed {s t : State} {v : DWord} (hc : s.cache ≠ []) (h : flushOp s = .ok v t) (e : DWord) :
    Fate.fails e ∉ s.fates.take (commitSet s).length := fun hm => by
  unfold flushOp at h
  rw [cmd_get_bind] at h
  simp only [List.isEmpty_iff, hc, if_false] at h
  obtain ⟨⟨⟩, u, h1, -⟩ := cmd_bind_ok.mp h
  have := commitBlocks_consumed h1 e 0 (by simpa using hm)
  simp at this

/-- A `FLUSH` with pending blocks succeeds only when LEN can hold the new length (10_state.md R30, R35 I7;
log 12). -/
theorem flushOp_room {s t : State} {v : DWord} (hw : s.store.wf = true) (hr : ReadyInv s)
    (hc : s.cache ≠ []) (hl : storeLen s < posLimit s) (h : flushOp s = .ok v t) :
    newPhys s < posLimit s := by
  obtain ⟨-, ⟨h1, -⟩ | ⟨-, fr, -, ht⟩⟩ := flushOp_ok hw h
  · exact absurd h1 hc
  · rcases ((flushOp_state s).1 v t h).2 with rfl | ⟨-, m, fr', -, hk, ht'⟩
    · exact absurd (congrArg State.cache ht) hc
    · have hm : commitAll s s.store (commitSet s) = m := by
        have := congrArg State.store (ht.symm.trans ht')
        exact this
      rw [← len_committed hr, hm]
      exact hk hl

end Sys2Proof.Machine
end

