-- ==== Sys2Proof/Laws/PerInstr.lean ====
section
/-! SUPPORT. One family of lemmas per command: the word of every command is legal. -/

namespace Sys2Proof.Laws

/-- The command is well formed and its word satisfies the five clauses of 30_encoding.md R184. -/
def EncodeLegal.Statement (i : Instr) : Prop := i.wellFormed = true ∧ legalWord (encodeWord i) = true

theorem EncodeLegal.openEcb (lo : Bool) : EncodeLegal.Statement (.openEcb lo) := by
  cases lo <;> exact ⟨rfl, by decide⟩

theorem EncodeLegal.openCbc (lo : Bool) : EncodeLegal.Statement (.openCbc lo) := by
  cases lo <;> exact ⟨rfl, by decide⟩

theorem EncodeLegal.openCtr (lo : Bool) : EncodeLegal.Statement (.openCtr lo) := by
  cases lo <;> exact ⟨rfl, by decide⟩

theorem EncodeLegal.openXts (lo : Bool) : EncodeLegal.Statement (.openXts lo) := by
  cases lo <;> exact ⟨rfl, by decide⟩

theorem EncodeLegal.seekSet : EncodeLegal.Statement .seekSet := ⟨rfl, by decide⟩

theorem EncodeLegal.seekCur : EncodeLegal.Statement .seekCur := ⟨rfl, by decide⟩

theorem EncodeLegal.seekEnd : EncodeLegal.Statement .seekEnd := ⟨rfl, by decide⟩

theorem EncodeLegal.setpos : EncodeLegal.Statement .setpos := ⟨rfl, by decide⟩

theorem EncodeLegal.getpos : EncodeLegal.Statement .getpos := ⟨rfl, by decide⟩

theorem EncodeLegal.getlen : EncodeLegal.Statement .getlen := ⟨rfl, by decide⟩

theorem EncodeLegal.read : EncodeLegal.Statement .read := ⟨rfl, by decide⟩

theorem EncodeLegal.write : EncodeLegal.Statement .write := ⟨rfl, by decide⟩

theorem EncodeLegal.flush : EncodeLegal.Statement .flush := ⟨rfl, by decide⟩

theorem EncodeLegal.dispose : EncodeLegal.Statement .dispose := ⟨rfl, by decide⟩

end Sys2Proof.Laws
end

