-- ==== Sys2Proof/Laws/State.lean ====
section
/-! SUPPORT. One lemma per field per named update of the state, so that no proof unfolds a record
update. The fields whose reset value the spec leaves open have no lemma about reset. -/

namespace Sys2Proof.Machine

/-! ### `raise` -/

@[simp] theorem raise_keylen (e : ErrCode) (info : DWord) (s : State) : (raise e info s).keylen = s.keylen := rfl
@[simp] theorem raise_key (e : ErrCode) (info : DWord) (s : State) : (raise e info s).key = s.key := rfl
@[simp] theorem raise_param (e : ErrCode) (info : DWord) (s : State) : (raise e info s).param = s.param := rfl
@[simp] theorem raise_secsz (e : ErrCode) (info : DWord) (s : State) : (raise e info s).secsz = s.secsz := rfl
@[simp] theorem raise_arg (e : ErrCode) (info : DWord) (s : State) : (raise e info s).arg = s.arg := rfl
@[simp] theorem raise_result (e : ErrCode) (info : DWord) (s : State) : (raise e info s).result = info := rfl
@[simp] theorem raise_lastErr (e : ErrCode) (info : DWord) (s : State) : (raise e info s).lastErr = e := rfl
@[simp] theorem raise_fsm (e : ErrCode) (info : DWord) (s : State) : (raise e info s).fsm = s.fsm := rfl
@[simp] theorem raise_mode (e : ErrCode) (info : DWord) (s : State) : (raise e info s).mode = s.mode := rfl
@[simp] theorem raise_kd (e : ErrCode) (info : DWord) (s : State) : (raise e info s).kd = s.kd := rfl
@[simp] theorem raise_kt (e : ErrCode) (info : DWord) (s : State) : (raise e info s).kt = s.kt := rfl
@[simp] theorem raise_p0 (e : ErrCode) (info : DWord) (s : State) : (raise e info s).p0 = s.p0 := rfl
@[simp] theorem raise_ss (e : ErrCode) (info : DWord) (s : State) : (raise e info s).ss = s.ss := rfl
@[simp] theorem raise_lo (e : ErrCode) (info : DWord) (s : State) : (raise e info s).lo = s.lo := rfl
@[simp] theorem raise_pos (e : ErrCode) (info : DWord) (s : State) : (raise e info s).pos = s.pos := rfl
@[simp] theorem raise_len (e : ErrCode) (info : DWord) (s : State) : (raise e info s).len = s.len := rfl
@[simp] theorem raise_cache (e : ErrCode) (info : DWord) (s : State) : (raise e info s).cache = s.cache := rfl
@[simp] theorem raise_din (e : ErrCode) (info : DWord) (s : State) : (raise e info s).din = [] := rfl
@[simp] theorem raise_dout (e : ErrCode) (info : DWord) (s : State) : (raise e info s).dout = s.dout := rfl
@[simp] theorem raise_store (e : ErrCode) (info : DWord) (s : State) : (raise e info s).store = s.store := rfl
@[simp] theorem raise_storeOpen (e : ErrCode) (info : DWord) (s : State) : (raise e info s).storeOpen = s.storeOpen := rfl
@[simp] theorem raise_fates (e : ErrCode) (info : DWord) (s : State) : (raise e info s).fates = s.fates := rfl
@[simp] theorem raise_fullError (e : ErrCode) (info : DWord) (s : State) : (raise e info s).fullError = s.fullError := rfl
@[simp] theorem raise_inbox (e : ErrCode) (info : DWord) (s : State) : (raise e info s).inbox = s.inbox := rfl
@[simp] theorem raise_rdata (e : ErrCode) (info : DWord) (s : State) : (raise e info s).rdata = s.rdata := rfl
@[simp] theorem raise_cacheCap (e : ErrCode) (info : DWord) (s : State) : (raise e info s).cacheCap = s.cacheCap := rfl
@[simp] theorem raise_bufCap (e : ErrCode) (info : DWord) (s : State) : (raise e info s).bufCap = s.bufCap := rfl
@[simp] theorem raise_posBits (e : ErrCode) (info : DWord) (s : State) : (raise e info s).posBits = s.posBits := rfl
@[simp] theorem raise_secszBits (e : ErrCode) (info : DWord) (s : State) : (raise e info s).secszBits = s.secszBits := rfl
@[simp] theorem raise_keylenBits (e : ErrCode) (info : DWord) (s : State) : (raise e info s).keylenBits = s.keylenBits := rfl
@[simp] theorem raise_sidOrder (e : ErrCode) (info : DWord) (s : State) : (raise e info s).sidOrder = s.sidOrder := rfl

/-! ### `complete` -/

@[simp] theorem complete_keylen (v : DWord) (s : State) : (complete v s).keylen = s.keylen := rfl
@[simp] theorem complete_key (v : DWord) (s : State) : (complete v s).key = s.key := rfl
@[simp] theorem complete_param (v : DWord) (s : State) : (complete v s).param = s.param := rfl
@[simp] theorem complete_secsz (v : DWord) (s : State) : (complete v s).secsz = s.secsz := rfl
@[simp] theorem complete_arg (v : DWord) (s : State) : (complete v s).arg = s.arg := rfl
@[simp] theorem complete_result (v : DWord) (s : State) : (complete v s).result = v := rfl
@[simp] theorem complete_lastErr (v : DWord) (s : State) : (complete v s).lastErr = .ok := rfl
@[simp] theorem complete_fsm (v : DWord) (s : State) : (complete v s).fsm = s.fsm := rfl
@[simp] theorem complete_mode (v : DWord) (s : State) : (complete v s).mode = s.mode := rfl
@[simp] theorem complete_kd (v : DWord) (s : State) : (complete v s).kd = s.kd := rfl
@[simp] theorem complete_kt (v : DWord) (s : State) : (complete v s).kt = s.kt := rfl
@[simp] theorem complete_p0 (v : DWord) (s : State) : (complete v s).p0 = s.p0 := rfl
@[simp] theorem complete_ss (v : DWord) (s : State) : (complete v s).ss = s.ss := rfl
@[simp] theorem complete_lo (v : DWord) (s : State) : (complete v s).lo = s.lo := rfl
@[simp] theorem complete_pos (v : DWord) (s : State) : (complete v s).pos = s.pos := rfl
@[simp] theorem complete_len (v : DWord) (s : State) : (complete v s).len = s.len := rfl
@[simp] theorem complete_cache (v : DWord) (s : State) : (complete v s).cache = s.cache := rfl
@[simp] theorem complete_din (v : DWord) (s : State) : (complete v s).din = [] := rfl
@[simp] theorem complete_dout (v : DWord) (s : State) : (complete v s).dout = s.dout := rfl
@[simp] theorem complete_store (v : DWord) (s : State) : (complete v s).store = s.store := rfl
@[simp] theorem complete_storeOpen (v : DWord) (s : State) : (complete v s).storeOpen = s.storeOpen := rfl
@[simp] theorem complete_fates (v : DWord) (s : State) : (complete v s).fates = s.fates := rfl
@[simp] theorem complete_fullError (v : DWord) (s : State) : (complete v s).fullError = s.fullError := rfl
@[simp] theorem complete_inbox (v : DWord) (s : State) : (complete v s).inbox = s.inbox := rfl
@[simp] theorem complete_rdata (v : DWord) (s : State) : (complete v s).rdata = s.rdata := rfl
@[simp] theorem complete_cacheCap (v : DWord) (s : State) : (complete v s).cacheCap = s.cacheCap := rfl
@[simp] theorem complete_bufCap (v : DWord) (s : State) : (complete v s).bufCap = s.bufCap := rfl
@[simp] theorem complete_posBits (v : DWord) (s : State) : (complete v s).posBits = s.posBits := rfl
@[simp] theorem complete_secszBits (v : DWord) (s : State) : (complete v s).secszBits = s.secszBits := rfl
@[simp] theorem complete_keylenBits (v : DWord) (s : State) : (complete v s).keylenBits = s.keylenBits := rfl
@[simp] theorem complete_sidOrder (v : DWord) (s : State) : (complete v s).sidOrder = s.sidOrder := rfl

/-! ### `illegalCommand` -/

@[simp] theorem illegalCommand_keylen (s : State) : (illegalCommand s).keylen = s.keylen := rfl
@[simp] theorem illegalCommand_key (s : State) : (illegalCommand s).key = s.key := rfl
@[simp] theorem illegalCommand_param (s : State) : (illegalCommand s).param = s.param := rfl
@[simp] theorem illegalCommand_secsz (s : State) : (illegalCommand s).secsz = s.secsz := rfl
@[simp] theorem illegalCommand_arg (s : State) : (illegalCommand s).arg = s.arg := rfl
@[simp] theorem illegalCommand_result (s : State) : (illegalCommand s).result = 0#64 := rfl
@[simp] theorem illegalCommand_lastErr (s : State) : (illegalCommand s).lastErr = .illegalCommand := rfl
@[simp] theorem illegalCommand_fsm (s : State) : (illegalCommand s).fsm = s.fsm := rfl
@[simp] theorem illegalCommand_mode (s : State) : (illegalCommand s).mode = s.mode := rfl
@[simp] theorem illegalCommand_kd (s : State) : (illegalCommand s).kd = s.kd := rfl
@[simp] theorem illegalCommand_kt (s : State) : (illegalCommand s).kt = s.kt := rfl
@[simp] theorem illegalCommand_p0 (s : State) : (illegalCommand s).p0 = s.p0 := rfl
@[simp] theorem illegalCommand_ss (s : State) : (illegalCommand s).ss = s.ss := rfl
@[simp] theorem illegalCommand_lo (s : State) : (illegalCommand s).lo = s.lo := rfl
@[simp] theorem illegalCommand_pos (s : State) : (illegalCommand s).pos = s.pos := rfl
@[simp] theorem illegalCommand_len (s : State) : (illegalCommand s).len = s.len := rfl
@[simp] theorem illegalCommand_cache (s : State) : (illegalCommand s).cache = s.cache := rfl
@[simp] theorem illegalCommand_din (s : State) : (illegalCommand s).din = [] := rfl
@[simp] theorem illegalCommand_dout (s : State) : (illegalCommand s).dout = [] := rfl
@[simp] theorem illegalCommand_store (s : State) : (illegalCommand s).store = s.store := rfl
@[simp] theorem illegalCommand_storeOpen (s : State) : (illegalCommand s).storeOpen = s.storeOpen := rfl
@[simp] theorem illegalCommand_fates (s : State) : (illegalCommand s).fates = s.fates := rfl
@[simp] theorem illegalCommand_fullError (s : State) : (illegalCommand s).fullError = s.fullError := rfl
@[simp] theorem illegalCommand_inbox (s : State) : (illegalCommand s).inbox = s.inbox := rfl
@[simp] theorem illegalCommand_rdata (s : State) : (illegalCommand s).rdata = s.rdata := rfl
@[simp] theorem illegalCommand_cacheCap (s : State) : (illegalCommand s).cacheCap = s.cacheCap := rfl
@[simp] theorem illegalCommand_bufCap (s : State) : (illegalCommand s).bufCap = s.bufCap := rfl
@[simp] theorem illegalCommand_posBits (s : State) : (illegalCommand s).posBits = s.posBits := rfl
@[simp] theorem illegalCommand_secszBits (s : State) : (illegalCommand s).secszBits = s.secszBits := rfl
@[simp] theorem illegalCommand_keylenBits (s : State) : (illegalCommand s).keylenBits = s.keylenBits := rfl
@[simp] theorem illegalCommand_sidOrder (s : State) : (illegalCommand s).sidOrder = s.sidOrder := rfl

/-! ### `storeClose` -/

@[simp] theorem storeClose_keylen (s : State) : (storeClose s).keylen = s.keylen := rfl
@[simp] theorem storeClose_key (s : State) : (storeClose s).key = s.key := rfl
@[simp] theorem storeClose_param (s : State) : (storeClose s).param = s.param := rfl
@[simp] theorem storeClose_secsz (s : State) : (storeClose s).secsz = s.secsz := rfl
@[simp] theorem storeClose_arg (s : State) : (storeClose s).arg = s.arg := rfl
@[simp] theorem storeClose_result (s : State) : (storeClose s).result = s.result := rfl
@[simp] theorem storeClose_lastErr (s : State) : (storeClose s).lastErr = s.lastErr := rfl
@[simp] theorem storeClose_fsm (s : State) : (storeClose s).fsm = s.fsm := rfl
@[simp] theorem storeClose_mode (s : State) : (storeClose s).mode = s.mode := rfl
@[simp] theorem storeClose_kd (s : State) : (storeClose s).kd = s.kd := rfl
@[simp] theorem storeClose_kt (s : State) : (storeClose s).kt = s.kt := rfl
@[simp] theorem storeClose_p0 (s : State) : (storeClose s).p0 = s.p0 := rfl
@[simp] theorem storeClose_ss (s : State) : (storeClose s).ss = s.ss := rfl
@[simp] theorem storeClose_lo (s : State) : (storeClose s).lo = s.lo := rfl
@[simp] theorem storeClose_pos (s : State) : (storeClose s).pos = s.pos := rfl
@[simp] theorem storeClose_len (s : State) : (storeClose s).len = s.len := rfl
@[simp] theorem storeClose_cache (s : State) : (storeClose s).cache = s.cache := rfl
@[simp] theorem storeClose_din (s : State) : (storeClose s).din = s.din := rfl
@[simp] theorem storeClose_dout (s : State) : (storeClose s).dout = s.dout := rfl
@[simp] theorem storeClose_store (s : State) : (storeClose s).store = s.store := rfl
@[simp] theorem storeClose_storeOpen (s : State) : (storeClose s).storeOpen = false := rfl
@[simp] theorem storeClose_fates (s : State) : (storeClose s).fates = s.fates := rfl
@[simp] theorem storeClose_fullError (s : State) : (storeClose s).fullError = s.fullError := rfl
@[simp] theorem storeClose_inbox (s : State) : (storeClose s).inbox = s.inbox := rfl
@[simp] theorem storeClose_rdata (s : State) : (storeClose s).rdata = s.rdata := rfl
@[simp] theorem storeClose_cacheCap (s : State) : (storeClose s).cacheCap = s.cacheCap := rfl
@[simp] theorem storeClose_bufCap (s : State) : (storeClose s).bufCap = s.bufCap := rfl
@[simp] theorem storeClose_posBits (s : State) : (storeClose s).posBits = s.posBits := rfl
@[simp] theorem storeClose_secszBits (s : State) : (storeClose s).secszBits = s.secszBits := rfl
@[simp] theorem storeClose_keylenBits (s : State) : (storeClose s).keylenBits = s.keylenBits := rfl
@[simp] theorem storeClose_sidOrder (s : State) : (storeClose s).sidOrder = s.sidOrder := rfl

/-! ### `openSession` -/

@[simp] theorem openSession_keylen (m : Mode) (l : Bool) (s : State) : (openSession m l s).keylen = s.keylen := rfl
@[simp] theorem openSession_key (m : Mode) (l : Bool) (s : State) : (openSession m l s).key = s.key := rfl
@[simp] theorem openSession_param (m : Mode) (l : Bool) (s : State) : (openSession m l s).param = s.param := rfl
@[simp] theorem openSession_secsz (m : Mode) (l : Bool) (s : State) : (openSession m l s).secsz = s.secsz := rfl
@[simp] theorem openSession_arg (m : Mode) (l : Bool) (s : State) : (openSession m l s).arg = s.arg := rfl
@[simp] theorem openSession_result (m : Mode) (l : Bool) (s : State) : (openSession m l s).result = s.result := rfl
@[simp] theorem openSession_lastErr (m : Mode) (l : Bool) (s : State) : (openSession m l s).lastErr = s.lastErr := rfl
@[simp] theorem openSession_fsm (m : Mode) (l : Bool) (s : State) : (openSession m l s).fsm = .ready := rfl
@[simp] theorem openSession_mode (m : Mode) (l : Bool) (s : State) : (openSession m l s).mode = m := rfl
@[simp] theorem openSession_kd (m : Mode) (l : Bool) (s : State) : (openSession m l s).kd = dataKey m s := rfl
@[simp] theorem openSession_kt (m : Mode) (l : Bool) (s : State) :
    (openSession m l s).kt = if m = .xts then tweakKey s else s.kt := rfl
@[simp] theorem openSession_p0 (m : Mode) (l : Bool) (s : State) : (openSession m l s).p0 = s.param := rfl
@[simp] theorem openSession_ss (m : Mode) (l : Bool) (s : State) :
    (openSession m l s).ss = if m = .xts then (secszValue s).toNat else s.ss := rfl
@[simp] theorem openSession_lo (m : Mode) (l : Bool) (s : State) : (openSession m l s).lo = l := rfl
@[simp] theorem openSession_pos (m : Mode) (l : Bool) (s : State) : (openSession m l s).pos = 0 := rfl
@[simp] theorem openSession_len (m : Mode) (l : Bool) (s : State) : (openSession m l s).len = storeLen s := rfl
@[simp] theorem openSession_cache (m : Mode) (l : Bool) (s : State) : (openSession m l s).cache = [] := rfl
@[simp] theorem openSession_din (m : Mode) (l : Bool) (s : State) : (openSession m l s).din = s.din := rfl
@[simp] theorem openSession_dout (m : Mode) (l : Bool) (s : State) : (openSession m l s).dout = s.dout := rfl
@[simp] theorem openSession_store (m : Mode) (l : Bool) (s : State) : (openSession m l s).store = s.store := rfl
@[simp] theorem openSession_storeOpen (m : Mode) (l : Bool) (s : State) : (openSession m l s).storeOpen = s.storeOpen := rfl
@[simp] theorem openSession_fates (m : Mode) (l : Bool) (s : State) : (openSession m l s).fates = s.fates := rfl
@[simp] theorem openSession_fullError (m : Mode) (l : Bool) (s : State) : (openSession m l s).fullError = s.fullError := rfl
@[simp] theorem openSession_inbox (m : Mode) (l : Bool) (s : State) : (openSession m l s).inbox = s.inbox := rfl
@[simp] theorem openSession_rdata (m : Mode) (l : Bool) (s : State) : (openSession m l s).rdata = s.rdata := rfl
@[simp] theorem openSession_cacheCap (m : Mode) (l : Bool) (s : State) : (openSession m l s).cacheCap = s.cacheCap := rfl
@[simp] theorem openSession_bufCap (m : Mode) (l : Bool) (s : State) : (openSession m l s).bufCap = s.bufCap := rfl
@[simp] theorem openSession_posBits (m : Mode) (l : Bool) (s : State) : (openSession m l s).posBits = s.posBits := rfl
@[simp] theorem openSession_secszBits (m : Mode) (l : Bool) (s : State) : (openSession m l s).secszBits = s.secszBits := rfl
@[simp] theorem openSession_keylenBits (m : Mode) (l : Bool) (s : State) : (openSession m l s).keylenBits = s.keylenBits := rfl
@[simp] theorem openSession_sidOrder (m : Mode) (l : Bool) (s : State) : (openSession m l s).sidOrder = s.sidOrder := rfl

/-! ### `resetEngine` -/

@[simp] theorem resetEngine_keylen (s : State) : (resetEngine s).keylen = 0#32 := rfl
@[simp] theorem resetEngine_key (s : State) : (resetEngine s).key = Vector.replicate 64 0#8 := rfl
@[simp] theorem resetEngine_param (s : State) : (resetEngine s).param = zeroBlock := rfl
@[simp] theorem resetEngine_secsz (s : State) : (resetEngine s).secsz = 0#32 := rfl
@[simp] theorem resetEngine_arg (s : State) : (resetEngine s).arg = 0#64 := rfl
@[simp] theorem resetEngine_result (s : State) : (resetEngine s).result = 0#64 := rfl
@[simp] theorem resetEngine_lastErr (s : State) : (resetEngine s).lastErr = .ok := rfl
@[simp] theorem resetEngine_fsm (s : State) : (resetEngine s).fsm = .uninitialized := rfl
@[simp] theorem resetEngine_mode (s : State) : (resetEngine s).mode = .ecb := rfl
@[simp] theorem resetEngine_lo (s : State) : (resetEngine s).lo = false := rfl
@[simp] theorem resetEngine_pos (s : State) : (resetEngine s).pos = 0 := rfl
@[simp] theorem resetEngine_len (s : State) : (resetEngine s).len = 0 := rfl
@[simp] theorem resetEngine_cache (s : State) : (resetEngine s).cache = [] := rfl
@[simp] theorem resetEngine_din (s : State) : (resetEngine s).din = [] := rfl
@[simp] theorem resetEngine_dout (s : State) : (resetEngine s).dout = [] := rfl
@[simp] theorem resetEngine_store (s : State) : (resetEngine s).store = s.store := rfl
@[simp] theorem resetEngine_storeOpen (s : State) : (resetEngine s).storeOpen = s.storeOpen := rfl
@[simp] theorem resetEngine_fates (s : State) : (resetEngine s).fates = s.fates := rfl
@[simp] theorem resetEngine_fullError (s : State) : (resetEngine s).fullError = s.fullError := rfl
@[simp] theorem resetEngine_inbox (s : State) : (resetEngine s).inbox = s.inbox := rfl
@[simp] theorem resetEngine_rdata (s : State) : (resetEngine s).rdata = s.rdata := rfl
@[simp] theorem resetEngine_cacheCap (s : State) : (resetEngine s).cacheCap = s.cacheCap := rfl
@[simp] theorem resetEngine_bufCap (s : State) : (resetEngine s).bufCap = s.bufCap := rfl
@[simp] theorem resetEngine_posBits (s : State) : (resetEngine s).posBits = s.posBits := rfl
@[simp] theorem resetEngine_secszBits (s : State) : (resetEngine s).secszBits = s.secszBits := rfl
@[simp] theorem resetEngine_keylenBits (s : State) : (resetEngine s).keylenBits = s.keylenBits := rfl
@[simp] theorem resetEngine_sidOrder (s : State) : (resetEngine s).sidOrder = s.sidOrder := rfl

/-! ### `windowRead` -/

@[simp] theorem windowRead_keylen (o n : Nat) (s : State) : (windowRead o n s).keylen = s.keylen := rfl
@[simp] theorem windowRead_key (o n : Nat) (s : State) : (windowRead o n s).key = s.key := rfl
@[simp] theorem windowRead_param (o n : Nat) (s : State) : (windowRead o n s).param = s.param := rfl
@[simp] theorem windowRead_secsz (o n : Nat) (s : State) : (windowRead o n s).secsz = s.secsz := rfl
@[simp] theorem windowRead_arg (o n : Nat) (s : State) : (windowRead o n s).arg = s.arg := rfl
@[simp] theorem windowRead_result (o n : Nat) (s : State) : (windowRead o n s).result = s.result := rfl
@[simp] theorem windowRead_lastErr (o n : Nat) (s : State) : (windowRead o n s).lastErr = s.lastErr := rfl
@[simp] theorem windowRead_fsm (o n : Nat) (s : State) : (windowRead o n s).fsm = s.fsm := rfl
@[simp] theorem windowRead_mode (o n : Nat) (s : State) : (windowRead o n s).mode = s.mode := rfl
@[simp] theorem windowRead_kd (o n : Nat) (s : State) : (windowRead o n s).kd = s.kd := rfl
@[simp] theorem windowRead_kt (o n : Nat) (s : State) : (windowRead o n s).kt = s.kt := rfl
@[simp] theorem windowRead_p0 (o n : Nat) (s : State) : (windowRead o n s).p0 = s.p0 := rfl
@[simp] theorem windowRead_ss (o n : Nat) (s : State) : (windowRead o n s).ss = s.ss := rfl
@[simp] theorem windowRead_lo (o n : Nat) (s : State) : (windowRead o n s).lo = s.lo := rfl
@[simp] theorem windowRead_pos (o n : Nat) (s : State) : (windowRead o n s).pos = s.pos := rfl
@[simp] theorem windowRead_len (o n : Nat) (s : State) : (windowRead o n s).len = s.len := rfl
@[simp] theorem windowRead_cache (o n : Nat) (s : State) : (windowRead o n s).cache = s.cache := rfl
@[simp] theorem windowRead_din (o n : Nat) (s : State) : (windowRead o n s).din = s.din := rfl
@[simp] theorem windowRead_dout (o n : Nat) (s : State) :
    (windowRead o n s).dout = if coversDout o n then s.dout.tail else s.dout := rfl
@[simp] theorem windowRead_store (o n : Nat) (s : State) : (windowRead o n s).store = s.store := rfl
@[simp] theorem windowRead_storeOpen (o n : Nat) (s : State) : (windowRead o n s).storeOpen = s.storeOpen := rfl
@[simp] theorem windowRead_fates (o n : Nat) (s : State) : (windowRead o n s).fates = s.fates := rfl
@[simp] theorem windowRead_fullError (o n : Nat) (s : State) : (windowRead o n s).fullError = s.fullError := rfl
@[simp] theorem windowRead_inbox (o n : Nat) (s : State) : (windowRead o n s).inbox = s.inbox := rfl
@[simp] theorem windowRead_rdata (o n : Nat) (s : State) :
    (windowRead o n s).rdata = (List.range n).map fun k => windowByte s (o + k) := rfl
@[simp] theorem windowRead_cacheCap (o n : Nat) (s : State) : (windowRead o n s).cacheCap = s.cacheCap := rfl
@[simp] theorem windowRead_bufCap (o n : Nat) (s : State) : (windowRead o n s).bufCap = s.bufCap := rfl
@[simp] theorem windowRead_posBits (o n : Nat) (s : State) : (windowRead o n s).posBits = s.posBits := rfl
@[simp] theorem windowRead_secszBits (o n : Nat) (s : State) : (windowRead o n s).secszBits = s.secszBits := rfl
@[simp] theorem windowRead_keylenBits (o n : Nat) (s : State) : (windowRead o n s).keylenBits = s.keylenBits := rfl
@[simp] theorem windowRead_sidOrder (o n : Nat) (s : State) : (windowRead o n s).sidOrder = s.sidOrder := rfl

/-! ### `endSession` -/

@[simp] theorem endSession_keylen (s : State) : (endSession s).keylen = s.keylen := by
  unfold endSession; split <;> rfl
@[simp] theorem endSession_key (s : State) : (endSession s).key = s.key := by
  unfold endSession; split <;> rfl
@[simp] theorem endSession_param (s : State) : (endSession s).param = s.param := by
  unfold endSession; split <;> rfl
@[simp] theorem endSession_secsz (s : State) : (endSession s).secsz = s.secsz := by
  unfold endSession; split <;> rfl
@[simp] theorem endSession_arg (s : State) : (endSession s).arg = s.arg := by
  unfold endSession; split <;> rfl
@[simp] theorem endSession_result (s : State) : (endSession s).result = s.result := by
  unfold endSession; split <;> rfl
@[simp] theorem endSession_lastErr (s : State) : (endSession s).lastErr = s.lastErr := by
  unfold endSession; split <;> rfl
@[simp] theorem endSession_fsm (s : State) : (endSession s).fsm = .disposed := rfl
@[simp] theorem endSession_mode (s : State) : (endSession s).mode = s.mode := by
  unfold endSession; split <;> rfl
@[simp] theorem endSession_kd (s : State) : (endSession s).kd = s.kd := by
  unfold endSession; split <;> rfl
@[simp] theorem endSession_kt (s : State) : (endSession s).kt = s.kt := by
  unfold endSession; split <;> rfl
@[simp] theorem endSession_p0 (s : State) : (endSession s).p0 = s.p0 := by
  unfold endSession; split <;> rfl
@[simp] theorem endSession_ss (s : State) : (endSession s).ss = s.ss := by
  unfold endSession; split <;> rfl
@[simp] theorem endSession_lo (s : State) : (endSession s).lo = s.lo := by
  unfold endSession; split <;> rfl
@[simp] theorem endSession_pos (s : State) : (endSession s).pos = s.pos := by
  unfold endSession; split <;> rfl
@[simp] theorem endSession_len (s : State) : (endSession s).len = s.len := by
  unfold endSession; split <;> rfl
@[simp] theorem endSession_cache (s : State) : (endSession s).cache = s.cache := by
  unfold endSession; split <;> rfl
@[simp] theorem endSession_din (s : State) : (endSession s).din = s.din := by
  unfold endSession; split <;> rfl
@[simp] theorem endSession_dout (s : State) : (endSession s).dout = s.dout := by
  unfold endSession; split <;> rfl
@[simp] theorem endSession_store (s : State) : (endSession s).store = s.store := by
  unfold endSession; split <;> rfl
@[simp] theorem endSession_storeOpen (s : State) :
    (endSession s).storeOpen = (s.lo && s.storeOpen) := by
  unfold endSession; cases h : s.lo <;> simp
@[simp] theorem endSession_fates (s : State) : (endSession s).fates = s.fates := by
  unfold endSession; split <;> rfl
@[simp] theorem endSession_fullError (s : State) : (endSession s).fullError = s.fullError := by
  unfold endSession; split <;> rfl
@[simp] theorem endSession_inbox (s : State) : (endSession s).inbox = s.inbox := by
  unfold endSession; split <;> rfl
@[simp] theorem endSession_rdata (s : State) : (endSession s).rdata = s.rdata := by
  unfold endSession; split <;> rfl
@[simp] theorem endSession_cacheCap (s : State) : (endSession s).cacheCap = s.cacheCap := by
  unfold endSession; split <;> rfl
@[simp] theorem endSession_bufCap (s : State) : (endSession s).bufCap = s.bufCap := by
  unfold endSession; split <;> rfl
@[simp] theorem endSession_posBits (s : State) : (endSession s).posBits = s.posBits := by
  unfold endSession; split <;> rfl
@[simp] theorem endSession_secszBits (s : State) : (endSession s).secszBits = s.secszBits := by
  unfold endSession; split <;> rfl
@[simp] theorem endSession_keylenBits (s : State) : (endSession s).keylenBits = s.keylenBits := by
  unfold endSession; split <;> rfl
@[simp] theorem endSession_sidOrder (s : State) : (endSession s).sidOrder = s.sidOrder := by
  unfold endSession; split <;> rfl

/-! ### The length of the store and what hangs on it -/

@[simp] theorem storeLen_raise (e : ErrCode) (info : DWord) (s : State) :
    storeLen (raise e info s) = storeLen s := rfl
@[simp] theorem storeLen_complete (v : DWord) (s : State) : storeLen (complete v s) = storeLen s := rfl
@[simp] theorem storeLen_endSession (s : State) : storeLen (endSession s) = storeLen s := by
  simp [storeLen]

end Sys2Proof.Machine
end

