-- ==== Sys2Proof/Laws/Step.lean ====
section
/-! SUPPORT. What a step can be, what the register window can change, and what the invariants of a
session look at. -/

namespace Sys2Proof.Machine

/-- The state after the host's next action is taken from the list. -/
def State.taken (s : State) (rest : List HostAction) : State := { s with inbox := rest }

/-- How a step can answer a next state: the engine is idle; a command ran; a word was illegal; the host
did something else (60_exceptions.md R152, 42_channel_commands.md R91, 30_encoding.md R176). -/
theorem step_next {s t : State} (h : step s = .next t) :
    (s.inbox = [] ∧ t = s)
    ∨ ∃ a rest, s.inbox = a :: rest ∧
      ((∃ i, exec i (s.taken rest) = .next t)
        ∨ t = illegalCommand (s.taken rest)
        ∨ (commandBytes a = none ∧ hostAct a (s.taken rest) = .next t)) := by
  unfold step at h
  split at h
  · rename_i hi
    simp only [Host.Outcome.next.injEq] at h
    exact .inl ⟨hi, h.symm⟩
  · rename_i a rest hi
    refine .inr ⟨a, rest, hi, ?_⟩
    split at h
    · rename_i hc
      exact .inr (.inr ⟨hc, h⟩)
    · split at h
      · rename_i i _ _
        exact .inl ⟨i, h⟩
      · simp only [Host.Outcome.next.injEq] at h
        exact .inr (.inl h.symm)

/-- Only a command can stop the model with a fault (20_memory.md R40, R41). -/
theorem step_fault {s : State} {f : Fault} (h : step s = .fault f) :
    ∃ a rest i, s.inbox = a :: rest ∧ exec i (s.taken rest) = .fault f := by
  unfold step at h
  split at h
  · simp at h
  · rename_i a rest hi
    split at h
    · cases a <;> simp only [hostAct, outsideSession, presentStore] at h <;> repeat (first | cases h | split at h)
    · split at h
      · rename_i i _ _
        exact ⟨a, rest, i, hi, h⟩
      · simp at h

/-- A byte written over the window changes operand registers and DIN only (30_encoding.md R176). -/
theorem setWindowByte_frame (o : Nat) (b : Byte) (s : State) :
    ∃ kl k p ss a d, setWindowByte o b s
      = { s with keylen := kl, key := k, param := p, secsz := ss, arg := a, din := d } := by
  unfold setWindowByte pushDin
  split
  · exact ⟨s.keylen, s.key, s.param, s.secsz, _, s.din, rfl⟩
  · split
    · exact ⟨_, s.key, s.param, s.secsz, s.arg, s.din, rfl⟩
    · split
      · exact ⟨s.keylen, s.key, s.param, _, s.arg, s.din, rfl⟩
      · split
        · exact ⟨s.keylen, s.key, _, s.secsz, s.arg, s.din, rfl⟩
        · split
          · exact ⟨s.keylen, _, s.param, s.secsz, s.arg, s.din, rfl⟩
          · split
            · split
              · exact ⟨s.keylen, s.key, s.param, s.secsz, s.arg, s.din, rfl⟩
              · exact ⟨s.keylen, s.key, s.param, s.secsz, s.arg, _, rfl⟩
            · exact ⟨s.keylen, s.key, s.param, s.secsz, s.arg, s.din, rfl⟩

/-- Bytes written over the window change operand registers and DIN only (30_encoding.md R176). -/
theorem windowWrite_frame (o : Nat) (bytes : List Byte) (s : State) :
    ∃ kl k p ss a d, windowWrite o bytes s
      = { s with keylen := kl, key := k, param := p, secsz := ss, arg := a, din := d } := by
  induction bytes generalizing o s with
  | nil => exact ⟨s.keylen, s.key, s.param, s.secsz, s.arg, s.din, rfl⟩
  | cons b rest ih =>
    obtain ⟨kl, k, p, ss, a, d, h1⟩ := setWindowByte_frame o b s
    obtain ⟨kl', k', p', ss', a', d', h2⟩ := ih (o + 1) (setWindowByte o b s)
    refine ⟨kl', k', p', ss', a', d', ?_⟩
    rw [windowWrite, h2, h1]

/-- What a host action that is no command can do (30_encoding.md R176; 70_reset_and_hazards.md R156, R159,
R160): write operand registers and DIN; read the window; reset; open or, outside a session, close the
store; outside a session present one that LEN can measure; settle what the store does. -/
theorem hostAct_next {a : HostAction} {s t : State} (h : hostAct a s = .next t) :
    (∃ kl k p ss g d,
      t = { s with keylen := kl, key := k, param := p, secsz := ss, arg := g, din := d })
    ∨ (∃ o n, t = windowRead o n s)
    ∨ t = resetEngine s
    ∨ (∃ b, (b = true ∨ s.fsm ≠ .ready) ∧ t = { s with storeOpen := b })
    ∨ (∃ bytes, s.fsm ≠ .ready ∧ bytes.length < posLimit s
        ∧ t = { s with store := Memory.ofBytes bytes, storeOpen := true })
    ∨ ∃ fr e, t = { s with fates := fr, fullError := e } := by
  cases a with
  | write o bytes =>
    cases h
    exact .inl (windowWrite_frame o.toNat bytes s)
  | read o n =>
    cases h
    exact .inr (.inl ⟨_, _, rfl⟩)
  | reset =>
    cases h
    exact .inr (.inr (.inl rfl))
  | openStore =>
    cases h
    exact .inr (.inr (.inr (.inl ⟨true, .inl rfl, rfl⟩)))
  | closeStore =>
    simp only [hostAct, outsideSession] at h
    split at h
    · cases h
    · rename_i hf
      cases h
      exact .inr (.inr (.inr (.inl ⟨false, .inr hf, rfl⟩)))
  | replaceStore bytes =>
    simp only [hostAct, outsideSession, presentStore] at h
    split at h
    · cases h
    · rename_i hf
      split at h
      · cases h
      · rename_i hl
        cases h
        exact .inr (.inr (.inr (.inr (.inl ⟨bytes, hf, by omega, rfl⟩))))
  | settleFates fr =>
    cases h
    exact .inr (.inr (.inr (.inr (.inr ⟨_, s.fullError, rfl⟩))))
  | settleFullError e =>
    cases h
    exact .inr (.inr (.inr (.inr (.inr ⟨s.fates, _, rfl⟩))))

/-- What the consistency of a session looks at (10_state.md R35). -/
structure SameSession (s t : State) : Prop where
  storeOpen : t.storeOpen = s.storeOpen
  cache : t.cache = s.cache
  len : t.len = s.len
  store : t.store = s.store
  mode : t.mode = s.mode
  kd : t.kd = s.kd
  kt : t.kt = s.kt
  p0 : t.p0 = s.p0
  ss : t.ss = s.ss
  sidOrder : t.sidOrder = s.sidOrder

theorem SameSession.newPhys {s t : State} (h : SameSession s t) : newPhys t = newPhys s := by
  simp only [Machine.newPhys, growthUnit, h.len, h.mode, h.ss]

theorem SameSession.ready {s t : State} (h : SameSession s t) (hr : ReadyInv s) : ReadyInv t where
  storeIsOpen := by rw [h.storeOpen]; exact hr.storeIsOpen
  cleanLength := by simp only [storeLen, h.cache, h.len, h.store]; exact hr.cleanLength
  paddedLength := by rw [h.newPhys]; simp only [storeLen, h.store]; exact hr.paddedLength
  logicalLength := by simp only [storeLen, h.mode, h.len, h.store]; exact hr.logicalLength
  wholeBlocks := by simp only [storeLen, h.store]; exact hr.wholeBlocks
  xtsStore := by simp only [storeLen, h.mode, h.store]; exact hr.xtsStore
  lastPending := by simp only [storeLen, h.cache, h.len, h.store]; exact hr.lastPending
  pendingInside := by simp only [h.cache, h.len]; exact hr.pendingInside
  sectorSize := by simp only [h.mode, h.ss]; exact hr.sectorSize

theorem SameSession.encWith {s t : State} (h : SameSession s t) : encWith t = encWith s := by
  funext b c p
  simp only [Machine.encWith, h.mode, h.kd, h.kt, h.p0, h.ss, h.sidOrder]

theorem SameSession.decWith {s t : State} (h : SameSession s t) : decWith t = decWith s := by
  funext b c p
  simp only [Machine.decWith, h.mode, h.kd, h.kt, h.p0, h.ss, h.sidOrder]

/-- The plaintext view looks at the session only (20_memory.md R52, R53). -/
theorem SameSession.plainOf {s t : State} (h : SameSession s t) (b : Nat) : plainOf t b = plainOf s b := by
  simp only [Machine.plainOf, committedBlocks, storeLen, storedPlain, storedChain, chainIn, h.decWith,
    h.cache, h.store, h.p0]
  rfl

theorem SameSession.view {s t : State} (h : SameSession s t) (p : Nat) : view t p = view s p := by
  simp only [Machine.view, h.plainOf]

end Sys2Proof.Machine
end

