-- ==== Sys2Proof/Tests/Slice0.lean ====
section
/-! SUPPORT. Tests and witnesses. Expected values come from 95_test_vectors.md (the ids S, V and P are
its), so from outside the model. A `witness` theorem shows concrete states and operands that meet the
hypotheses of the statement it is named after. -/

set_option Elab.async false

namespace Sys2Proof.Tests

open Sys2Proof Sys2Proof.Machine

/-! ### Helpers -/

/-- A store of whole blocks. -/
def blocksStore (blocks : List Block) : Memory := Memory.ofBytes (blocks.flatMap blockBytes)

/-- A Ready session as an `OPEN` over a store of these blocks leaves it. -/
def session (mode : Mode) (kd : AesKey) (p0 : Block) (blocks : List Block) : State :=
  { State.reset with
    fsm := .ready
    mode := mode
    kd := kd
    p0 := p0
    len := 16 * blocks.length
    store := blocksStore blocks }

/-- The Ecb session of programs P1, P2 and P10. -/
def ecb : State := session .ecb (.aes128 0#128) zeroBlock [0x66e94bd4ef8a2c3b884cfa59ca342b2e#128]

/-- The Cbc session of programs P5 and P9. -/
def cbc : State :=
  session .cbc (.aes128 0x000102030405060708090a0b0c0d0e0f#128) 0xa0a1a2a3a4a5a6a7a8a9aaabacadaeaf#128
    [0xfef1a8b625f0c43a7108b623a6fb90ca#128, 0x81be93897d16fa4aa347f381e169776a#128,
      0xcc46fe5e4e4d1456ce9f53cd2e5116eb#128]

/-- The Ctr session of program P6. -/
def ctr : State :=
  session .ctr (.aes128 0x2b7e151628aed2a6abf7158809cf4f3c#128) 0xf0f1f2f3f4f5f6f7f8f9fafbfcfdfeff#128
    [0x874d6191b620e3261bef6864990db6ce#128]

/-- The Xts session of programs P3, P7 and P13, with sector size `ss`. -/
def xts (ss : Nat) : State :=
  { session .xts (.aes128 0#128) zeroBlock [0x3a18daa2ca3b3a6458e5afacbc48958e#128] with ss := ss }

/-- The Cbc session of program P12 before its first `FLUSH`. -/
def gapped : State :=
  { session .cbc (.aes128 0x000102030405060708090a0b0c0d0e0f#128)
      0xa0a1a2a3a4a5a6a7a8a9aaabacadaeaf#128 [0xfef1a8b625f0c43a7108b623a6fb90ca#128] with
    cache := [(0, 0xff0102030405060708090a0b0c0d0e0f#128), (2, 0x00000000000000007700000000000000#128)]
    len := 41
    pos := 41 }

/-- The same session with the third store access failing, as P12 has it. -/
def gappedFailing : State := { gapped with fates := [.succeeds, .succeeds, .fails 0xE5#64] }

/-- An Ecb session whose `FLUSH` appends a block, over a store with error value 0xE5 for want of room. -/
def overfull : State :=
  { ecb with
    cache := [(0, 0#128), (1, 0#128)]
    len := 17
    pos := 17
    fullError := 0xE5#64 }

/-- The state with ARG and DIN set. -/
def withOperands (s : State) (arg : DWord) (din : List Byte) : State :=
  { s with
    arg := arg
    din := din }

/-- The state with one host action to take. -/
def withAction (s : State) (a : HostAction) : State := { s with inbox := [a] }

/-- The outcome is a next state. -/
def isNext : Host.Outcome State Fault Refusal → Bool
  | .next _ => true
  | .fault _ => false
  | .refused _ => false

/-- The next state of an outcome that has one. -/
def stateOf : Host.Outcome State Fault Refusal → State
  | .next t => t
  | .fault _ => State.reset
  | .refused _ => State.reset

theorem next_stateOf {o : Host.Outcome State Fault Refusal} (h : isNext o = true) :
    o = .next (stateOf o) := by
  cases o with
  | next t => rfl
  | fault f => cases h
  | refused r => cases h

/-- What a test looks at in the next state, none when there is no next state. -/
def look {α : Type} (f : State → α) (o : Host.Outcome State Fault Refusal) : Option α :=
  if isNext o then some (f (stateOf o)) else none

/-- The blocks of the store. -/
def storeBlocks (s : State) : List Block :=
  (List.range (s.store.len / 16)).map fun b => s.store.block (16 * b)

/-! ### Well-formedness: one illegal word for each clause of 30_encoding.md R184 -/

theorem test_reserved_bit_refused : legalWord 0x00000809#32 = false ∧ reservedOk 0x00000809#32 = false := by
  decide

theorem test_opcode_refused : legalWord 0x0000000A#32 = false ∧ opcOk 0x0000000A#32 = false := by decide

theorem test_lo_refused : legalWord 0x00000406#32 = false ∧ loOk 0x00000406#32 = false := by decide

theorem test_sub_refused : legalWord 0x00000107#32 = false ∧ subOk 0x00000107#32 = false := by decide

theorem test_origin_refused : legalWord 0x00000302#32 = false ∧ originOk 0x00000302#32 = false := by decide

theorem test_all_commands_well_formed : (Instr.openXts true).wellFormed = true
    ∧ legalWord 0x00000701#32 = true := by decide

/-! ### Decoding: each command's word written out from the fields of 30_encoding.md R177 to R181 -/

/-- The bits of each word from the left: 31:11, LO, SUB, OPC. -/
theorem test_decode_open :
    decodeWord 0b000000000000000000000_0_00_00000001#32 = .ok (.openEcb false)
    ∧ decodeWord 0b000000000000000000000_1_01_00000001#32 = .ok (.openCbc true)
    ∧ decodeWord 0b000000000000000000000_0_10_00000001#32 = .ok (.openCtr false)
    ∧ decodeWord 0b000000000000000000000_1_11_00000001#32 = .ok (.openXts true) := by decide

theorem test_decode_seek :
    decodeWord 0b000000000000000000000_0_00_00000010#32 = .ok .seekSet
    ∧ decodeWord 0b000000000000000000000_0_01_00000010#32 = .ok .seekCur
    ∧ decodeWord 0b000000000000000000000_0_10_00000010#32 = .ok .seekEnd
    ∧ decodeWord 0b000000000000000000000_0_00_00000011#32 = .ok .setpos := by decide

theorem test_decode_report :
    decodeWord 0b000000000000000000000_0_00_00000100#32 = .ok .getpos
    ∧ decodeWord 0b000000000000000000000_0_00_00000101#32 = .ok .getlen := by decide

theorem test_decode_data :
    decodeWord 0b000000000000000000000_0_00_00000110#32 = .ok .read
    ∧ decodeWord 0b000000000000000000000_0_00_00000111#32 = .ok .write
    ∧ decodeWord 0b000000000000000000000_0_00_00001000#32 = .ok .flush
    ∧ decodeWord 0b000000000000000000000_0_00_00001001#32 = .ok .dispose := by decide

/-- VD2. -/
theorem test_decode_illegal :
    [0x00000000, 0x0000000A, 0x000000FF, 0xFFFFFFFF, 0x00000302, 0x00000402, 0x00000103, 0x00000406,
      0x00000107, 0x00000208, 0x00000409, 0x00000809, 0x80000001, 0x00010008].map
      (fun w => decodeTableWord 32 w) = List.replicate 14 none := by decide

/-! ### Block primitives and AES (VA1 to VA5) -/

/-- VA1. -/
theorem test_add_be :
    add128be 0xffffffffffffffffffffffffffffffff#128 2 = 1#128
    ∧ add128be 0xf0f1f2f3f4f5f6f7f8f9fafbfcfdfeff#128 1 = 0xf0f1f2f3f4f5f6f7f8f9fafbfcfdff00#128
    ∧ add128be 0x000000000000000000000000fffffffe#128 0x100000003
      = 0x00000000000000000000000200000001#128 := by decide +kernel

/-- VA2. -/
theorem test_add_le :
    add128le 0xff000000000000000000000000000000#128 1 = 0x00010000000000000000000000000000#128
    ∧ add128le 0x000102030405060708090a0b0c0d0e0f#128 0x1ff = 0xff0202030405060708090a0b0c0d0e0f#128
    ∧ add128le 0xffffffffffffffff0000000000000000#128 1 = 0x00000000000000000100000000000000#128 := by
  decide +kernel

/-- VA3. -/
theorem test_gf_double :
    gfDouble 0x80000000000000000000000000000000#128 = 0x00010000000000000000000000000000#128
    ∧ gfDouble 0x00000000000000000000000000000080#128 = 0x87000000000000000000000000000000#128
    ∧ gfDouble 0xccd295a9df14595a10990cb394d1565c#128 = 0x98a52b53bf29b2b42032196629a3adb8#128 := by
  decide +kernel

/-- VA4. -/
theorem test_gf_double_pow :
    gfDoublePow 0x66e94bd4ef8a2c3b884cfa59ca342b2e#128 3 = 0xb74b5fa27e5764d94164d2cf52a65971#128 := by
  decide +kernel

/-- VA5. -/
theorem test_aes128 :
    aesEnc (.aes128 0x000102030405060708090a0b0c0d0e0f#128) 0x00112233445566778899aabbccddeeff#128
      = 0x69c4e0d86a7b0430d8cdb78070b4c55a#128
    ∧ aesDec (.aes128 0x000102030405060708090a0b0c0d0e0f#128) 0x69c4e0d86a7b0430d8cdb78070b4c55a#128
      = 0x00112233445566778899aabbccddeeff#128 := by decide +kernel

/-- VA5. -/
theorem test_aes256 :
    aesEnc (.aes256 0x000102030405060708090a0b0c0d0e0f101112131415161718191a1b1c1d1e1f#256)
        0x00112233445566778899aabbccddeeff#128 = 0x8ea2b7ca516745bfeafc49904b496089#128
    ∧ aesEnc (.aes256 0#256) zeroBlock = 0xdc95c078a2408989ad48a21492842087#128 := by decide +kernel

/-- VB1, blocks 0 and 1; VC1 and VC3, one block each. -/
theorem test_cbc_ctr :
    cbcEnc (.aes128 0x2b7e151628aed2a6abf7158809cf4f3c#128) 0x000102030405060708090a0b0c0d0e0f#128
        0x6bc1bee22e409f96e93d7e117393172a#128 = 0x7649abac8119b246cee98e9b12e9197d#128
    ∧ cbcEnc (.aes128 0x2b7e151628aed2a6abf7158809cf4f3c#128) 0x7649abac8119b246cee98e9b12e9197d#128
        0xae2d8a571e03ac9c9eb76fac45af8e51#128 = 0x5086cb9b507219ee95db113a917678b2#128
    ∧ ctrEnc (.aes128 0x2b7e151628aed2a6abf7158809cf4f3c#128) 0xf0f1f2f3f4f5f6f7f8f9fafbfcfdfeff#128 1
        0xae2d8a571e03ac9c9eb76fac45af8e51#128 = 0x9806f66b7970fdff8617187bb9fffdff#128
    ∧ keystream (.aes128 0#128) 0xfffffffffffffffffffffffffffffffe#128 2
      = 0x66e94bd4ef8a2c3b884cfa59ca342b2e#128 := by decide +kernel

/-- VX4, block 2: a sector identifier whose addition carries across bytes, under 32-byte keys. -/
theorem test_xts_sector_carry :
    tweak .little (.aes256 0x202122232425262728292a2b2c2d2e2f303132333435363738393a3b3c3d3e3f#256)
        0xffffffffffffffff0000000000000000#128 0x20 2 = 0x6751bd031356fd3590aec8660e8d6809#128
    ∧ xtsEnc (.aes256 0x000102030405060708090a0b0c0d0e0f101112131415161718191a1b1c1d1e1f#256)
        0x6751bd031356fd3590aec8660e8d6809#128 0x00112233445566778899aabbccddeeff#128
      = 0x57be9c10d489655cecaea78ee6bf5d65#128 := by decide +kernel

/-- VX5: the doubling of the tweak reduces (an IEEE Std 1619 vector). -/
theorem test_xts_reduction :
    tweak .little (.aes128 0x22222222222222222222222222222222#128) 0x33333333330000000000000000000000#128 0x20 1
      = 0xf900779a1bfea467ebb0823eb3aa9b4d#128
    ∧ xtsEnc (.aes128 0x11111111111111111111111111111111#128) 0xf900779a1bfea467ebb0823eb3aa9b4d#128
        0x44444444444444444444444444444444#128 = 0xfb186fff7480adc4289382ecd6d394f0#128 := by
  decide +kernel

/-- VX6: both columns, the sector identifier added in one byte order and in the other (00_scope.md R9). -/
theorem test_sid_order :
    encWith (xts 0x20) 2 zeroBlock zeroBlock = 0xc4cfc5a38b758430d51651187f65bbe6#128
    ∧ encWith { xts 0x20 with sidOrder := .big } 2 zeroBlock zeroBlock
      = 0x1a8bbf023c9ea34d53b178e2f78a311f#128 := by decide +kernel

/-- A narrower POS_BITS moves the range check of a cursor move with it (00_scope.md R9, R105). -/
theorem test_pos_bits :
    look (fun t => (t.lastErr, t.pos)) (exec .setpos (withOperands { ecb with posBits := 8 } 256#64 []))
      = some (.argumentError, 0)
    ∧ look (fun t => (t.lastErr, t.pos)) (exec .setpos (withOperands { ecb with posBits := 8 } 255#64 []))
      = some (.ok, 255) := by decide +kernel

/-- VM4. -/
theorem test_round_up : [roundUp 0 16, roundUp 16 16, roundUp 17 16, roundUp 34 0x20, roundUp 49 0x30]
    = [0, 16, 32, 64, 96] := by decide

/-! ### One step of each command -/

/-- The operands of an OPEN over a store of `blocks`. -/
def opening (keylen secsz : Word) (store : Memory) : State :=
  { State.reset with
    keylen := keylen
    secsz := secsz
    key := Vector.ofFn fun i => BitVec.ofNat 8 i.val
    store := store }

/-- P1. -/
theorem test_open_ecb :
    look (fun t => (statusWord t, t.len)) (exec (.openEcb false) (opening 16#32 0#32 ecb.store))
      = some (0x00000001#32, 16) := by decide +kernel

/-- VK1 row 14: 17 bytes. -/
theorem test_open_ecb_rejects :
    look (fun t => (statusWord t, t.result))
      (exec (.openEcb true) (opening 16#32 0#32 { len := 17, cells := [] }))
      = some (0x00000102#32, 0#64) := by decide +kernel

/-- VK1 row 12, a 32-byte key. -/
theorem test_open_cbc :
    look (fun t => (statusWord t, t.kd)) (exec (.openCbc false) (opening 32#32 0#32 ecb.store))
      = some (0x00000005#32, .aes256 0x000102030405060708090a0b0c0d0e0f101112131415161718191a1b1c1d1e1f#256)
      := by decide +kernel

/-- VK1 row 13: an empty store, and the leave-open flag. -/
theorem test_open_ctr :
    look (fun t => (statusWord t, t.len)) (exec (.openCtr true) (opening 16#32 0#32 { len := 0, cells := [] }))
      = some (0x00000019#32, 0) := by decide +kernel

/-- VK1 row 5 and VX4: the two halves of a 64-byte key. -/
theorem test_open_xts :
    look (fun t => (statusWord t, t.kt, t.ss)) (exec (.openXts true) (opening 64#32 0x20#32 ecb.store))
      = some (0x0000001D#32,
          .aes256 0x202122232425262728292a2b2c2d2e2f303132333435363738393a3b3c3d3e3f#256, 32) := by
  decide +kernel

/-- VK1 rows 1, 2 and 8 (P8). -/
theorem test_open_xts_rejects :
    look statusWord (exec (.openXts false) (opening 32#32 0x30#32 { len := 2, cells := [] }))
      = some 0x00000102#32
    ∧ look statusWord (exec (.openXts false) (opening 32#32 0x27#32 ecb.store)) = some 0x00000102#32
    ∧ look statusWord (exec (.openXts false) (opening 32#32 0xFFFFFFF0#32 ecb.store)) = some 0x00000102#32 := by
  decide +kernel

/-- VK2: an offset that is negative as a signed number. -/
theorem test_seek_set :
    look (fun t => (t.lastErr, t.result, t.pos))
      (exec .seekSet (withOperands { ecb with pos := 132 } 0x8000000000000000#64 []))
      = some (.argumentError, 0#64, 132) := by decide +kernel

/-- VK2: the last position. -/
theorem test_seek_cur :
    look (fun t => (t.lastErr, t.result))
      (exec .seekCur (withOperands { ecb with pos := 132 } 0x7FFFFFFFFFFFFF7B#64 []))
      = some (.ok, 0x7FFFFFFFFFFFFFFF#64) := by decide +kernel

/-- VK2, one beyond the last position. -/
theorem test_seek_cur_beyond :
    look (fun t => t.lastErr)
      (exec .seekCur (withOperands { ecb with pos := 2 ^ 63 - 1 } 1#64 [])) = some .argumentError := by
  decide +kernel

/-- VK2: `seek.end -1` with LEN = 32. -/
theorem test_seek_end :
    look (fun t => (t.result, t.pos))
      (exec .seekEnd (withOperands { ecb with len := 32 } 0xFFFFFFFFFFFFFFFF#64 [])) = some (31#64, 31) := by
  decide +kernel

/-- VK2. -/
theorem test_setpos :
    look (fun t => (t.result, t.pos)) (exec .setpos (withOperands { ecb with pos := 5 } 32#64 []))
      = some (32#64, 32) := by decide +kernel

/-- P1. -/
theorem test_getpos : look (fun t => t.result) (exec .getpos { ecb with pos := 5 }) = some 5#64 := by decide +kernel

/-- P2 run a: GETLEN before the FLUSH. -/
theorem test_getlen : look (fun t => t.result) (exec .getlen { ecb with len := 17 }) = some 17#64 := by
  decide +kernel

/-- P3, source example S3. -/
theorem test_read_xts :
    look (fun t => (t.dout, t.result, t.pos)) (exec .read (withOperands (xts 48) 16#64 []))
      = some (List.replicate 15 0#8 ++ [1#8], 16#64, 16) := by decide +kernel

/-- P6: a range over a store block, a gap block and a pending block. -/
theorem test_read_gap :
    look (fun t => (t.dout, t.pos))
      (exec .read (withOperands { ctr with
        cache := [(2, 0x0000000000000000dead000000000000#128)]
        len := 42
        pos := 14 } 22#64 []))
      = some ([0x17#8, 0x2a#8] ++ List.replicate 20 0#8, 36) := by decide +kernel

/-- P5: the write seeds every committed block above the written one. -/
theorem test_write_cbc :
    look (fun t => (t.cache, t.pos, t.len)) (exec .write (withOperands { cbc with pos := 5 } 1#64 [0xee#8]))
      = some ([(0, 0x0001020304ee060708090a0b0c0d0e0f#128), (1, 0x101112131415161718191a1b1c1d1e1f#128),
          (2, 0x202122232425262728292a2b2c2d2e2f#128)], 6, 48) := by decide +kernel

/-- P2 run a: two blocks, the second beyond the store. -/
theorem test_write_ecb :
    look (fun t => (t.cache, t.len))
      (exec .write (withOperands { ecb with pos := 15 } 2#64 [0xaa#8, 0xbb#8]))
      = some ([(0, 0xaa#128), (1, 0xbb000000000000000000000000000000#128)], 17) := by decide +kernel

/-- P1, source example S5. -/
theorem test_flush_ecb :
    look (fun t => (storeBlocks t, t.cache, t.len))
      (exec .flush { ecb with cache := [(0, 0x00000011110000000000000000000000#128)] })
      = some ([0x4015aff56fb5b920c955449035daa741#128], [], 16) := by decide +kernel

/-- P12: the third write fails; block 1 was a gap block. -/
theorem test_flush_fails :
    look (fun t => (statusWord t, t.result, storeBlocks t, t.cache.dom, t.len)) (exec .flush gappedFailing)
      = some (0x00000325#32, 0xE5#64, [0x6f79c9cecd49d4cb4814beb93c73f7b8#128,
          0xdde669e8bc0a6e7ea99e6082f821c1d0#128], [0, 2], 41) := by decide +kernel

/-- P10: DISPOSE closes the store. -/
theorem test_dispose :
    look (fun t => (statusWord t, t.storeOpen, storeBlocks t))
      (exec .dispose { ecb with cache := [(0, 0x01000000000000000000000000000000#128)] })
      = some (0x00000003#32, false, [0x47711816e91d6ff059bbbf2bf58e0fd3#128]) := by decide +kernel

/-- P10 with LO. -/
theorem test_dispose_leaves_open :
    look (fun t => (statusWord t, t.storeOpen)) (exec .dispose { ecb with lo := true })
      = some (0x00000013#32, true) := by decide +kernel

/-! ### Other steps -/

/-- P7 run a: the store grows to a sector multiple with a padding block. -/
theorem test_flush_pads_sector :
    look storeBlocks (exec .flush { xts 48 with
        cache := [(1, 0x01000000000000000000000000000000#128)]
        len := 17 })
      = some [0x3a18daa2ca3b3a6458e5afacbc48958e#128, 0x1baac3d08be72b62a2e16fb1510f780b#128,
          0x734867fd279b516a094b9713c18e7729#128] := by decide +kernel

/-- P12: the retried FLUSH, whose commit set is not contiguous. -/
theorem test_flush_retried :
    look storeBlocks (exec .flush (stateOf (exec .flush gappedFailing)))
      = some [0x6f79c9cecd49d4cb4814beb93c73f7b8#128, 0xdde669e8bc0a6e7ea99e6082f821c1d0#128,
          0x63fb8eca5c780fe0ef3faa07472afe3e#128] := by decide +kernel

/-- VK5: the error value of the store arrives in RESULT and nothing is delivered. -/
theorem test_store_failure :
    look (fun t => (t.lastErr, t.result, t.dout, t.pos))
      (exec .read (withOperands { ecb with fates := [.fails 0xE5#64] } 4#64 []))
      = some (.ioError, 0xE5#64, [], 0) := by decide +kernel

/-- 42_channel_commands.md R116 where the new block would make the store as long as 2^POS_BITS, which LEN
cannot hold (10_state.md R30): the FLUSH fails, CACHE and LEN stay; with one more bit it succeeds. -/
theorem test_flush_full_store :
    look (fun t => (statusWord t, t.result, t.len)) (exec .flush { overfull with posBits := 5 })
      = some (0x00000321#32, 0xE5#64, 17) := by decide +kernel

theorem test_flush_fits_store :
    look (fun t => (statusWord t, t.store.len, t.len)) (exec .flush { overfull with posBits := 6 })
      = some (0x00000001#32, 32, 32) := by decide +kernel

/-- VK4: in Disposed an illegal word is code 6; in Ready a short payload is 6 at any POS. -/
theorem test_fault_priority :
    look (fun t => t.lastErr) (step ({ ecb with fsm := .disposed }.withFetchWord 32 0x0000000A))
      = some .illegalCommand
    ∧ look (fun t => t.lastErr)
      (exec .write (withOperands { ecb with pos := 2 ^ 63 - 1 } 3#64 [0xaa#8, 0xbb#8]))
      = some .illegalCommand := by decide +kernel

/-- 30_encoding.md R176: the lanes of ARG over the window, and a byte of KEY. -/
theorem test_window_write :
    look (fun t => t.arg) (step (withAction State.reset (.write 0x08#8
      [0x01#8, 0x02#8, 0x03#8, 0x04#8, 0x05#8, 0x06#8, 0x07#8, 0x08#8])))
      = some 0x0807060504030201#64
    ∧ look (fun t => (t.key[63], t.key[62])) (step (withAction State.reset (.write 0x7F#8 [0xAB#8])))
      = some (0xAB#8, 0#8)
    ∧ look (fun t => t.param) (step (withAction State.reset (.write 0x20#8 [0xAB#8])))
      = some 0xAB000000000000000000000000000000#128 := by decide +kernel

/-- P1: STATUS over the window after the write, DIRTY set. -/
theorem test_window_read :
    look (fun t => t.rdata)
      (step (withAction { ecb with cache := [(0, 0#128)] } (.read 0x04#8 4)))
      = some [0x21#8, 0#8, 0#8, 0#8] := by decide +kernel

/-- 10_state.md R36: the memory of the state after reset is in canonical form. -/
theorem test_reset_memory_wf : State.reset.store.wf = true ∧ State.reset.cache.wf = true := by decide

/-! ### Witnesses: what they share -/

/-- `Inv` of a Ready session from checks that can be evaluated. -/
theorem inv_of_checks (s : State) (h : s.store.wf = true ∧ s.cache.wf = true ∧ s.storeOpen = true
    ∧ (s.cache = [] → s.len = storeLen s) ∧ storeLen s ≤ newPhys s
    ∧ (s.mode ≠ .xts → storeLen s ≤ s.len) ∧ storeLen s % 16 = 0 ∧ (s.mode = .xts → 16 ≤ storeLen s)
    ∧ (storeLen s < s.len → (s.len - 1) / 16 ∈ s.cache.dom) ∧ (∀ b ∈ s.cache.dom, 16 * b < s.len)
    ∧ (s.mode = .xts → 0 < s.ss ∧ s.ss % 16 = 0)) : Inv s := by
  obtain ⟨h1, h2, h3, h4, h5, h6, h7, h8, h9, h10, h11⟩ := h
  exact ⟨h1, h2, fun _ => ⟨h3, h4, h5, h6, h7, h8, h9, h10, h11⟩⟩

/-- `ChainConsistent` from a check of the pending blocks. -/
theorem chain_of_check (s : State) (h : ∀ b ∈ s.cache.dom,
    (∃ b' ∈ List.range (committedBlocks s), b < b' ∧ s.cache.get b' = none) →
    s.store.block (phys b) = cbcEnc s.kd (storedChain s b) ((s.cache.get b).getD zeroBlock)) :
    ChainConsistent s := by
  intro _ _ b p hp ⟨b', h1, h2, h3⟩
  have hb : b ∈ s.cache.dom := by rw [Cache.mem_dom, hp]; rfl
  rw [h b hb ⟨b', by simpa using h2, h1, h3⟩, hp]
  rfl

/-- `CascadeComplete` from a check of the pending blocks. -/
theorem cascade_of_check (s : State)
    (h : ∀ b ∈ s.cache.dom, ∀ b' ∈ List.range (committedBlocks s), b < b' → b' ∈ s.cache.dom) :
    CascadeComplete s := by
  intro _ _ b b' hb hlt hc
  exact h b hb b' (by simpa using hc) hlt

/-- `ZeroBeyondLength` from a check of the first `n` blocks, which hold every pending and every
committed one. -/
theorem zero_of_check (s : State) (n : Nat) (hd : ∀ b ∈ s.cache.dom, b < n) (hc : committedBlocks s ≤ n)
    (h : ∀ p ∈ List.range (16 * n), s.len ≤ p → view s p = 0#8) : ZeroBeyondLength s := by
  intro _ p hp
  by_cases hlt : p < 16 * n
  · exact h p (by simpa using hlt) hp
  · have hb : n ≤ blk p := by simp only [blk]; omega
    have hg : s.cache.get (blk p) = none := by
      rw [← Cache.not_mem_dom]
      intro hm
      exact absurd (hd _ hm) (by omega)
    simp [view, plainOf, hg, Nat.not_lt.mpr (Nat.le_trans hc hb), byteAt]

/-- `StoreWorks` from a check of the listed outcomes. -/
theorem works_of_check (s : State) (h : s.fates.all (fun f => f == .succeeds) = true) : StoreWorks s := by
  intro f hf
  simpa using List.all_eq_true.mp h f hf

/-- The Xts session of program P13 before its `FLUSH`. -/
def grown : State :=
  { xts 64 with
    cache := [(1, 0x01000000000000000000000000000000#128)]
    len := 17
    pos := 17 }

/-- The Ecb session of program P1 before its `FLUSH`. -/
def edited : State :=
  { ecb with
    cache := [(0, 0x00000011110000000000000000000000#128)]
    pos := 5 }

/-- The session of program P12 after the failed `FLUSH`. -/
def halfFlushed : State := stateOf (exec .flush gappedFailing)

theorem inv_ecb : Inv ecb := inv_of_checks _ (by decide +kernel)

theorem inv_edited : Inv edited := inv_of_checks _ (by decide +kernel)

theorem inv_grown : Inv grown := inv_of_checks _ (by decide +kernel)

theorem inv_gapped : Inv gapped := inv_of_checks _ (by decide +kernel)

theorem inv_gappedFailing : Inv gappedFailing := inv_of_checks _ (by decide +kernel)

theorem inv_halfFlushed : Inv halfFlushed := inv_of_checks _ (by decide +kernel)

theorem chain_gapped : ChainConsistent gapped := chain_of_check _ (by decide +kernel)

theorem chain_gappedFailing : ChainConsistent gappedFailing := chain_of_check _ (by decide +kernel)

/-- P12: after the failed `FLUSH` block 1 is committed and not pending above pending block 0. -/
theorem chain_halfFlushed : ChainConsistent halfFlushed
    ∧ ∃ b', 0 < b' ∧ b' < committedBlocks halfFlushed ∧ halfFlushed.cache.get b' = none :=
  ⟨chain_of_check _ (by decide +kernel), 1, by decide +kernel⟩

/-! ### Witnesses: commands, reset, OPEN -/

/-- Legal words, the least and the greatest opcode among them. -/
theorem witness_LegalWordsAreTheCommands (w : Word)
    (h : w ∈ [0x00000001#32, 0x00000701#32, 0x00000202#32, 0x00000009#32]) :
    (withAction State.reset (.write 0#8 (wordBytes w))).inbox = .write 0#8 (wordBytes w) :: []
      ∧ w.toNat / 2048 = 0 ∧ 1 ≤ w.toNat % 256 ∧ w.toNat % 256 ≤ 9
      ∧ (w.toNat % 256 ≠ 1 → w.toNat / 1024 % 2 = 0)
      ∧ (w.toNat % 256 ≠ 1 ∧ w.toNat % 256 ≠ 2 → w.toNat / 256 % 4 = 0)
      ∧ (w.toNat % 256 = 2 → w.toNat / 256 % 4 ≠ 3) := by
  refine ⟨rfl, ?_⟩
  simp only [List.mem_cons, List.not_mem_nil, or_false] at h
  rcases h with rfl | rfl | rfl | rfl <;> decide

/-- The words just beside them, one for each clause that fails. -/
theorem witness_LegalWordsAreTheCommands_illegal (w : Word)
    (h : w ∈ [0x00000000#32, 0x0000000A#32, 0x00000801#32, 0x00000302#32, 0x00000402#32, 0x00000103#32]) :
    (withAction State.reset (.write 0#8 (wordBytes w))).inbox = .write 0#8 (wordBytes w) :: []
      ∧ ¬ (w.toNat / 2048 = 0 ∧ 1 ≤ w.toNat % 256 ∧ w.toNat % 256 ≤ 9
      ∧ (w.toNat % 256 ≠ 1 → w.toNat / 1024 % 2 = 0)
      ∧ (w.toNat % 256 ≠ 1 ∧ w.toNat % 256 ≠ 2 → w.toNat / 256 % 4 = 0)
      ∧ (w.toNat % 256 = 2 → w.toNat / 256 % 4 ≠ 3)) := by
  refine ⟨rfl, ?_⟩
  simp only [List.mem_cons, List.not_mem_nil, or_false] at h
  rcases h with rfl | rfl | rfl | rfl | rfl | rfl <;> decide

theorem witness_StepRunsTheDecodedCommand :
    (withAction edited (.write 0#8 [0x08#8, 0#8, 0#8, 0#8])).inbox = .write 0#8 [0x08#8, 0#8, 0#8, 0#8] :: []
    ∧ decode [0x08#8, 0#8, 0#8, 0#8] = .ok (.flush, [])
    ∧ edited.inbox = [] := ⟨rfl, by decide, rfl⟩

theorem witness_ResetInputRestoresTheEngine : (withAction edited .reset).inbox = .reset :: [] := rfl

/-- An OPEN that passes and one that fails each check at its boundary, for Ecb and Xts. -/
theorem witness_OpenLatchesOrRejects :
    (opening 16#32 0#32 ecb.store).fsm = .uninitialized ∧ (opening 16#32 0#32 ecb.store).storeOpen = true
    ∧ (16#32).toNat = 16 ∧ ecb.store.len % 16 = 0
    ∧ (opening 32#32 0x10#32 ecb.store).fsm = .uninitialized
    ∧ 0 < (0x10#32).toInt ∧ (0x10#32).toInt % 16 = 0 ∧ 16 ≤ ecb.store.len
    ∧ (15#32).toNat ≠ 16 ∧ (15#32).toNat ≠ 32 ∧ ¬ 0 < (0#32).toInt ∧ (17 % 16 ≠ 0) := by decide +kernel

theorem witness_OpenOverAClosedStore :
    ({ opening 16#32 0#32 ecb.store with storeOpen := false } : State).fsm = .uninitialized
    ∧ operandsOk .ecb { opening 16#32 0#32 ecb.store with storeOpen := false } = true
    ∧ operandsOk .ecb { opening 15#32 0#32 ecb.store with storeOpen := false } = false := by decide +kernel

/-! ### Witnesses: the frame of a command -/

theorem witness_StateErrorExactlyInOtherStates :
    malformed .flush State.reset = false ∧ State.reset.fsm ≠ acceptingState .flush
    ∧ malformed (.openEcb false) ecb = false ∧ ecb.fsm ≠ acceptingState (.openEcb false)
    ∧ ∃ t, exec .flush State.reset = .next t ∧ t.lastErr = .stateError :=
  ⟨by decide, by decide, by decide, by decide, _, next_stateOf (by decide +kernel), by decide +kernel⟩

/-- One byte too few, one too many, and a count just above a finite BUF_CAP. -/
theorem witness_MalformedPayloadIsIllegal :
    (withOperands ecb 2#64 [0xaa#8]).din.length ≠ (withOperands ecb 2#64 [0xaa#8]).arg.toNat
    ∧ (withOperands ecb 0#64 [0xaa#8]).din.length ≠ (withOperands ecb 0#64 [0xaa#8]).arg.toNat
    ∧ (withOperands { ecb with bufCap := some 4 } 5#64 []).bufCap = some 4
    ∧ 4 < (withOperands { ecb with bufCap := some 4 } 5#64 []).arg.toNat := by decide

theorem witness_SessionStateTransitions :
    (∃ t, exec (.openEcb false) (opening 16#32 0#32 ecb.store) = .next t ∧ t.fsm = .ready)
    ∧ (∃ t, exec (.openEcb false) (opening 15#32 0#32 ecb.store) = .next t ∧ t.fsm = .rejected)
    ∧ (∃ t, exec .dispose edited = .next t ∧ t.fsm = .disposed)
    ∧ (∃ t, exec .dispose gappedFailing = .next t ∧ t.fsm = .ready)
    ∧ (∃ t, exec .flush edited = .next t ∧ malformed .flush edited = false ∧ edited.fsm = .ready)
    ∧ (∃ t, exec .flush { edited with fsm := .disposed } = .next t ∧ t.fsm = .disposed)
    ∧ (∃ t, exec .write (withOperands ecb 2#64 []) = .next t
      ∧ malformed .write (withOperands ecb 2#64 []) = true)
    ∧ decode (wordBytes 0x0000000A#32) = .error .reservedOpcode
    ∧ ∃ t, step (withAction ecb (.write 0#8 (wordBytes 0x0000000A#32))) = .next t :=
  ⟨⟨_, next_stateOf (by decide +kernel), by decide +kernel⟩,
    ⟨_, next_stateOf (by decide +kernel), by decide +kernel⟩,
    ⟨_, next_stateOf (by decide +kernel), by decide +kernel⟩,
    ⟨_, next_stateOf (by decide +kernel), by decide +kernel⟩,
    ⟨_, next_stateOf (by decide +kernel), by decide +kernel⟩,
    ⟨_, next_stateOf (by decide +kernel), by decide +kernel⟩,
    ⟨_, next_stateOf (by decide +kernel), by decide +kernel⟩,
    by decide, _, next_stateOf (by decide +kernel)⟩

theorem witness_OnlyResetLeavesTerminalStates :
    (∃ t, step (withAction { ecb with fsm := .rejected } (.write 0#8 (wordBytes 0x00000001#32))) = .next t)
    ∧ ∃ t, step (withAction { ecb with fsm := .disposed } .openStore) = .next t :=
  ⟨⟨_, next_stateOf (by decide +kernel)⟩, _, next_stateOf (by decide +kernel)⟩

/-! ### Witnesses: positioning and READ -/

/-- Both ends of the range, and the values just outside it. -/
theorem witness_SeekAndSetposMoveTheCursor :
    ecb.fsm = .ready
    ∧ (0 : Int) = (withOperands ecb 0#64 []).arg.toInt
    ∧ (2 ^ 63 - 1 : Int) = (withOperands ecb 0x7FFFFFFFFFFFFFFF#64 []).arg.toInt
    ∧ (-1 : Int) = (withOperands ecb 0xFFFFFFFFFFFFFFFF#64 []).arg.toInt
    ∧ (2 ^ 63 : Int) = ({ ecb with pos := 1 }).pos + (withOperands ecb 0x7FFFFFFFFFFFFFFF#64 []).arg.toInt
    ∧ (0 : Int) = ecb.len + (withOperands ecb 0xFFFFFFFFFFFFFFF0#64 []).arg.toInt := by decide +kernel

theorem witness_GetposAndGetlenReport : ecb.fsm = .ready := rfl

/-- A read that ends exactly at LEN. -/
theorem witness_ReadReturnsTheView :
    StoreWorks (withOperands gapped 41#64 []) ∧ ∃ s : State, s = withOperands { gapped with pos := 0 } 41#64 []
      ∧ s.fsm = .ready ∧ readMalformed s = false ∧ StoreWorks s ∧ 0 < s.arg.toNat
      ∧ s.pos + s.arg.toNat ≤ s.len :=
  ⟨works_of_check _ rfl, _, rfl, rfl, rfl, works_of_check _ rfl, by decide, by decide⟩

/-- A read that ends one byte beyond LEN. -/
theorem witness_EndOfStreamExactlyPastTheLength :
    (∃ s : State, s = withOperands ecb 17#64 [] ∧ s.fsm = .ready ∧ readMalformed s = false
      ∧ 0 < s.arg.toNat ∧ s.len < s.pos + s.arg.toNat)
    ∧ ∃ t, exec .read (withOperands ecb 17#64 []) = .next t ∧ t.lastErr = .endOfStreamError :=
  ⟨⟨_, rfl, rfl, rfl, by decide, by decide +kernel⟩, _, next_stateOf (by decide +kernel), by decide +kernel⟩

/-- The next access fails where a block has to be read: the one committed block of a READ, and for a WRITE in
Cbc a later one only; a FLUSH and a DISPOSE with pending blocks; a later failure that a FLUSH meets; and a store one block too short for it. -/
theorem witness_FailingAccessEndsTheCommand :
    (∃ s : State, s = withOperands { gapped with cache := [(1, 0#128), (2, 0#128)], pos := 0, fates := [.fails 0xE5#64] }
        41#64 [] ∧ s.fsm = .ready ∧ s.fates = .fails 0xE5#64 :: [] ∧ readMalformed s = false ∧ 0 < s.arg.toNat
      ∧ s.pos + s.arg.toNat ≤ s.len ∧ s.cache.get 0 = none ∧ 0 < s.store.len / 16)
    ∧ (∃ s : State, s = withOperands { cbc with cache := [(0, 0#128)], pos := 5, fates := [.fails 0xE5#64] }
        1#64 [0xee#8] ∧ s.fsm = .ready ∧ s.fates = .fails 0xE5#64 :: [] ∧ writeMalformed s = false
      ∧ 0 < s.arg.toNat ∧ s.pos + s.arg.toNat < 2 ^ s.posBits ∧ s.mode = .cbc
      ∧ 0 ≤ 2 ∧ 2 ≤ max ((s.pos + s.arg.toNat - 1) / 16) (s.store.len / 16 - 1)
      ∧ s.cache.get 2 = none ∧ 2 < s.store.len / 16)
    ∧ (∃ s : State, s = { edited with fates := [.fails 0xE5#64] } ∧ Inv s ∧ s.fsm = .ready ∧ s.cache ≠ []
      ∧ s.fates = .fails 0xE5#64 :: [])
    ∧ Inv gappedFailing ∧ gappedFailing.fsm = .ready ∧ gappedFailing.cache ≠ []
      ∧ Fate.fails 0xE5#64 ∈ gappedFailing.fates.take (commitSet gappedFailing).length
    ∧ ∃ s : State, s = { overfull with posBits := 5 } ∧ Inv s ∧ s.fsm = .ready ∧ s.cache ≠ []
      ∧ s.store.len < 2 ^ s.posBits ∧ 2 ^ s.posBits ≤ newPhys s :=
  ⟨⟨_, rfl, by decide +kernel⟩, ⟨_, rfl, by decide +kernel⟩,
    ⟨_, rfl, inv_of_checks _ (by decide +kernel), rfl, by decide, rfl⟩,
    inv_gappedFailing, rfl, by decide, by decide +kernel,
    _, rfl, inv_of_checks _ (by decide +kernel), rfl, by decide, by decide +kernel, by decide +kernel⟩

/-! ### Witnesses: WRITE -/

/-- In Cbc at the start of a longer stream with an unbounded cache, and in Ecb across the end of the store
with a capacity that the two added blocks just meet. -/
theorem witness_WriteOverlaysTheView :
    (∃ s : State, s = withOperands cbc 1#64 [0xee#8] ∧ s.mode = .cbc ∧ s.fsm = .ready
      ∧ s.din.length = s.arg.toNat ∧ writeMalformed s = false ∧ StoreWorks s
      ∧ 0 < s.arg.toNat ∧ s.pos + s.arg.toNat < 2 ^ s.posBits
      ∧ (∀ cap, s.cacheCap = some cap → 3 ≤ cap) ∧ s.cache.wf = true)
    ∧ ∃ s : State, s = withOperands { ecb with
          pos := 15
          cacheCap := some 2 } 2#64 [0xaa#8, 0xbb#8] ∧ s.mode ≠ .cbc
      ∧ s.fsm = .ready ∧ s.din.length = s.arg.toNat ∧ writeMalformed s = false
      ∧ StoreWorks s ∧ 0 < s.arg.toNat ∧ s.pos + s.arg.toNat < 2 ^ s.posBits
      ∧ (∀ cap, s.cacheCap = some cap →
          s.cache.length + ((List.range' 0 2).filter fun b => decide (b ∉ s.cache.dom)).length ≤ cap)
      ∧ s.cache.wf = true :=
  ⟨⟨_, rfl, rfl, rfl, rfl, by decide, works_of_check _ rfl, by decide, by decide, fun _ h => (nomatch h), rfl⟩,
    _, rfl, by decide, rfl, rfl, by decide, works_of_check _ rfl, by decide, by decide,
    fun cap h => by injection h with h; subst h; decide, rfl⟩

theorem witness_EmptyTransfersChangeNothing :
    ∃ s : State, s = withOperands { ecb with pos := 500 } 0#64 [] ∧ s.din = [] ∧ s.fsm = .ready
      ∧ s.arg = 0#64 := ⟨_, rfl, rfl, rfl, rfl⟩

/-- The first end that is out of range. -/
theorem witness_WritePastTheLastPosition :
    ∃ s : State, s = withOperands { ecb with pos := 2 ^ 63 - 1 } 1#64 [0#8] ∧ s.fsm = .ready
      ∧ writeMalformed s = false ∧ 0 < s.arg.toNat ∧ 2 ^ s.posBits ≤ s.pos + s.arg.toNat :=
  ⟨_, rfl, rfl, by decide, by decide, by decide⟩

/-- Two blocks are added: one more than a capacity of one, exactly a capacity of two. -/
theorem witness_CacheCapacityIsNeverExceeded :
    (∃ s : State, s = withOperands { ecb with
          pos := 15
          cacheCap := some 1 } 2#64 [0xaa#8, 0xbb#8]
      ∧ s.cache.wf = true ∧ s.fsm = .ready ∧ writeMalformed s = false ∧ s.cacheCap = some 1
      ∧ StoreWorks s ∧ 0 < s.arg.toNat ∧ s.pos + s.arg.toNat < 2 ^ s.posBits
      ∧ 1 < s.cache.length + ((List.range' 0 2).filter fun b => decide (b ∉ s.cache.dom)).length)
    ∧ ∃ s : State, s = withOperands { ecb with
          pos := 15
          cacheCap := some 2 } 2#64 [0xaa#8, 0xbb#8]
      ∧ s.cache.wf = true ∧ s.fsm = .ready ∧ writeMalformed s = false ∧ s.cacheCap = some 2
      ∧ StoreWorks s ∧ 0 < s.arg.toNat ∧ s.pos + s.arg.toNat < 2 ^ s.posBits
      ∧ s.cache.length + ((List.range' 0 2).filter fun b => decide (b ∉ s.cache.dom)).length ≤ 2 :=
  ⟨⟨_, rfl, rfl, rfl, by decide, rfl, works_of_check _ rfl, by decide, by decide, by decide⟩,
    _, rfl, rfl, rfl, by decide, rfl, works_of_check _ rfl, by decide, by decide, by decide⟩

/-! ### Witnesses: FLUSH and DISPOSE -/

/-- A Cbc session with a gap block and an Xts session with padding blocks. -/
theorem witness_FlushCommitsTheStream :
    (Inv gapped ∧ gapped.fsm = .ready ∧ gapped.cache ≠ [] ∧ StoreWorks gapped
      ∧ newPhys gapped < 2 ^ gapped.posBits)
    ∧ Inv grown ∧ grown.fsm = .ready ∧ grown.cache ≠ [] ∧ StoreWorks grown
      ∧ newPhys grown < 2 ^ grown.posBits :=
  ⟨⟨inv_gapped, rfl, by decide, works_of_check _ rfl, by decide +kernel⟩,
    inv_grown, rfl, by decide, works_of_check _ rfl, by decide +kernel⟩

theorem witness_FlushOfAnEmptyCache : ecb.fsm = .ready ∧ ecb.cache = [] := ⟨rfl, rfl⟩

theorem witness_CommitSetIsPendingAndNewBlocks :
    Inv grown ∧ grown.fsm = .ready ∧ commitSet grown = [1, 2, 3] := ⟨inv_grown, rfl, by decide +kernel⟩

theorem witness_FailedFlushCommitsAPrefix :
    Inv gappedFailing ∧ gappedFailing.fsm = .ready
    ∧ ∃ t, exec .flush gappedFailing = .next t ∧ t.lastErr ≠ .ok :=
  ⟨inv_gappedFailing, rfl, _, next_stateOf (by decide +kernel), by decide +kernel⟩

theorem witness_FlushPreservesTheView :
    Inv halfFlushed ∧ ChainConsistent halfFlushed ∧ halfFlushed.fsm = .ready
    ∧ ∃ t, exec .flush halfFlushed = .next t :=
  ⟨inv_halfFlushed, chain_halfFlushed.1, by decide +kernel, _, next_stateOf (by decide +kernel)⟩

theorem witness_RetriedFlushLeavesTheSameStore :
    Inv gappedFailing ∧ ChainConsistent gappedFailing ∧ gappedFailing.fsm = .ready
    ∧ (exec .flush gappedFailing = .next halfFlushed ∧ halfFlushed.lastErr = .ioError)
    ∧ (∃ u, exec .flush halfFlushed = .next u ∧ u.lastErr = .ok)
    ∧ ∃ v, exec .flush { gappedFailing with fates := [] } = .next v ∧ v.lastErr = .ok :=
  ⟨inv_gappedFailing, chain_gappedFailing, rfl, ⟨next_stateOf (by decide +kernel), by decide +kernel⟩,
    ⟨_, next_stateOf (by decide +kernel), by decide +kernel⟩,
    _, next_stateOf (by decide +kernel), by decide +kernel⟩

theorem witness_FlushedStoreHoldsTheStream :
    Inv gapped ∧ ChainConsistent gapped ∧ gapped.fsm = .ready
    ∧ ∃ t, exec .flush gapped = .next t ∧ t.lastErr = .ok ∧ 16 * 2 < t.store.len :=
  ⟨inv_gapped, chain_gapped, rfl, _, next_stateOf (by decide +kernel), by decide +kernel, by decide +kernel⟩

/-- The last byte of a block that the FLUSH leaves alone. -/
theorem witness_StoreChangesOnlyInTheCommitSet :
    (∃ t, exec .getlen ecb = .next t)
    ∧ Inv grown ∧ (∃ t, exec .flush grown = .next t) ∧ 15 < grown.store.len ∧ 15 / 16 ∉ commitSet grown :=
  ⟨⟨_, next_stateOf (by decide +kernel)⟩, inv_grown, ⟨_, next_stateOf (by decide +kernel)⟩,
    by decide +kernel, by decide +kernel⟩

theorem witness_DisposeFlushesThenCloses :
    (∃ t, edited.fsm = .ready ∧ exec .flush edited = .next t ∧ t.lastErr = .ok)
    ∧ ∃ t, gappedFailing.fsm = .ready ∧ exec .flush gappedFailing = .next t ∧ t.lastErr ≠ .ok :=
  ⟨⟨_, rfl, next_stateOf (by decide +kernel), by decide +kernel⟩,
    _, rfl, next_stateOf (by decide +kernel), by decide +kernel⟩

theorem witness_DisposeCompletes :
    Inv gapped ∧ gapped.fsm = .ready ∧ StoreWorks gapped ∧ newPhys gapped < 2 ^ gapped.posBits
    ∧ Inv ecb ∧ ecb.cache = [] :=
  ⟨inv_gapped, rfl, works_of_check _ rfl, by decide +kernel, inv_ecb, rfl⟩

/-- The state before a new session over the store that `t` left. -/
def reopening (t : State) : State :=
  { opening 16#32 0#32 t.store with param := 0xa0a1a2a3a4a5a6a7a8a9aaabacadaeaf#128 }

theorem witness_StreamPersistsAcrossSessions :
    Inv gapped ∧ ChainConsistent gapped ∧ gapped.fsm = .ready ∧ ∃ t v,
      exec .dispose gapped = .next t ∧ t.lastErr = .ok ∧ (reopening t).store = t.store
      ∧ exec (gapped.mode.openCommand true) (reopening t) = .next v ∧ v.lastErr = .ok
      ∧ v.kd = gapped.kd ∧ v.p0 = gapped.p0 ∧ gapped.mode ≠ .xts :=
  ⟨inv_gapped, chain_gapped, rfl, _, _, next_stateOf (by decide +kernel), by decide +kernel, rfl,
    next_stateOf (by decide +kernel), by decide +kernel, by decide +kernel, by decide +kernel, by decide⟩

/-! ### Witnesses: invariants and faults -/

/-- A step that commits blocks and one whose flush fails. -/
theorem witness_InvariantKeptByEveryStep :
    Inv (gapped.withFetchWord 32 8) ∧ (∃ t, step (gapped.withFetchWord 32 8) = .next t)
    ∧ Inv (gappedFailing.withFetchWord 32 8) ∧ ∃ t, step (gappedFailing.withFetchWord 32 8) = .next t :=
  ⟨inv_of_checks _ (by decide +kernel), ⟨_, next_stateOf (by decide +kernel)⟩,
    inv_of_checks _ (by decide +kernel), _, next_stateOf (by decide +kernel)⟩

theorem witness_NoAccessOutsideTheStore : Inv (gapped.withFetchWord 32 8) :=
  inv_of_checks _ (by decide +kernel)

theorem witness_ChainConsistencyKept :
    Inv (gappedFailing.withFetchWord 32 8) ∧ ChainConsistent (gappedFailing.withFetchWord 32 8)
    ∧ ∃ t, step (gappedFailing.withFetchWord 32 8) = .next t ∧ t.lastErr = .ioError :=
  ⟨inv_of_checks _ (by decide +kernel), chain_of_check _ (by decide +kernel),
    _, next_stateOf (by decide +kernel), by decide +kernel⟩

/-- A WRITE in Cbc (no `IoError`), a command whose `IoError` leaves the store as it was, a FLUSH whose
`IoError` appends a gap block below LEN, and one that succeeds. -/
theorem witness_CascadeAndLengthKeptWithoutIoError :
    (∃ s t, s = (withOperands cbc 1#64 [0xee#8]).withFetchWord 32 7 ∧ Inv s ∧ CascadeComplete s
      ∧ LogicalLength s ∧ step s = .next t ∧ t.lastErr ≠ .ioError)
    ∧ (∃ s t, s = (withOperands { cbc with fates := [.fails 0xE5#64] } 1#64 []).withFetchWord 32 6
      ∧ Inv s ∧ CascadeComplete s ∧ step s = .next t ∧ t.store = s.store)
    ∧ (∃ s t, s = gappedFailing.withFetchWord 32 8 ∧ Inv s ∧ LogicalLength s ∧ step s = .next t
      ∧ t.lastErr = .ioError ∧ t.store.len ≤ s.len)
    ∧ ∃ t, Inv gapped ∧ gapped.fsm = .ready ∧ exec .flush gapped = .next t ∧ t.lastErr = .ok :=
  ⟨⟨_, _, rfl, inv_of_checks _ (by decide +kernel), cascade_of_check _ (by decide +kernel),
      fun _ => by decide +kernel, next_stateOf (by decide +kernel), by decide +kernel⟩,
    ⟨_, _, rfl, inv_of_checks _ (by decide +kernel), cascade_of_check _ (by decide +kernel),
      next_stateOf (by decide +kernel), by decide +kernel⟩,
    ⟨_, _, rfl, inv_of_checks _ (by decide +kernel), fun _ => by decide +kernel,
      next_stateOf (by decide +kernel), by decide +kernel, by decide +kernel⟩,
    _, inv_gapped, rfl, next_stateOf (by decide +kernel), by decide +kernel⟩

theorem witness_ZeroBeyondLengthKept :
    Inv (gapped.withFetchWord 32 8) ∧ ChainConsistent (gapped.withFetchWord 32 8)
    ∧ ZeroBeyondLength (gapped.withFetchWord 32 8) ∧ ∃ t, step (gapped.withFetchWord 32 8) = .next t :=
  ⟨inv_of_checks _ (by decide +kernel), chain_of_check _ (by decide +kernel),
    zero_of_check _ 3 (by decide +kernel) (by decide +kernel) (by decide +kernel),
    _, next_stateOf (by decide +kernel)⟩

/-- A SEEK to the last position, a FLUSH that gives LEN the store's length, and one that may not. -/
theorem witness_PositionAndLengthStayInRange :
    (∃ s t, s = (withOperands ecb 0x7FFFFFFFFFFFFFFF#64 []).withFetchWord 32 2 ∧ PositionsInRange s
      ∧ step s = .next t ∧ t.pos = 2 ^ 63 - 1)
    ∧ (∃ s t, s = gapped.withFetchWord 32 8 ∧ PositionsInRange s ∧ step s = .next t ∧ t.len = 48)
    ∧ ∃ s t, s = { overfull with posBits := 5 }.withFetchWord 32 8 ∧ PositionsInRange s ∧ step s = .next t
      ∧ t.lastErr = .ioError :=
  ⟨⟨_, _, rfl, ⟨by decide +kernel, fun _ => by decide +kernel, fun _ => by decide +kernel⟩,
      next_stateOf (by decide +kernel), by decide +kernel⟩,
    ⟨_, _, rfl, ⟨by decide +kernel, fun _ => by decide +kernel, fun _ => by decide +kernel⟩,
      next_stateOf (by decide +kernel), by decide +kernel⟩,
    _, _, rfl, ⟨by decide +kernel, fun _ => by decide +kernel, fun _ => by decide +kernel⟩,
    next_stateOf (by decide +kernel), by decide +kernel⟩

theorem witness_CommandsKeepOperandRegisters :
    (∃ t, exec .flush edited = .next t) ∧ ∃ t, step (withAction edited .reset) = .next t :=
  ⟨⟨_, next_stateOf (by decide +kernel)⟩, _, next_stateOf (by decide +kernel)⟩

theorem witness_SessionRegistersAreConstant :
    ∃ t, (edited.withFetchWord 32 9).inbox = .write 0#8 (wordBytes 9#32) :: [] ∧ edited.fsm = .ready
      ∧ step (edited.withFetchWord 32 9) = .next t :=
  ⟨_, rfl, rfl, next_stateOf (by decide +kernel)⟩

/-- An OPEN that changes FSM, and a FLUSH that changes the store. -/
theorem witness_FaultsChangeOnlyTheTable :
    (∃ t, exec (.openEcb false) State.reset = .next t ∧ t.lastErr ≠ .ok ∧ t.fsm ≠ State.reset.fsm)
    ∧ ∃ t, exec .flush gappedFailing = .next t ∧ t.lastErr ≠ .ok ∧ t.store ≠ gappedFailing.store :=
  ⟨⟨_, next_stateOf (by decide +kernel), by decide +kernel, by decide +kernel⟩,
    _, next_stateOf (by decide +kernel), by decide +kernel, by decide +kernel⟩

theorem witness_IoErrorCarriesTheStoreValue :
    (∃ t, exec .flush gappedFailing = .next t ∧ t.lastErr = .ioError)
    ∧ ∃ t, exec .flush State.reset = .next t ∧ t.lastErr ≠ .ok ∧ t.lastErr ≠ .ioError :=
  ⟨⟨_, next_stateOf (by decide +kernel), by decide +kernel⟩,
    _, next_stateOf (by decide +kernel), by decide +kernel, by decide +kernel⟩

theorem witness_ArgumentAndConfigurationErrors :
    (∃ t, exec (.openXts true) State.reset = .next t ∧ t.lastErr = .configurationError)
    ∧ ∃ t, exec .setpos (withOperands ecb 0xFFFFFFFFFFFFFFFF#64 []) = .next t ∧ t.lastErr = .argumentError :=
  ⟨⟨_, next_stateOf (by decide +kernel), by decide +kernel⟩,
    _, next_stateOf (by decide +kernel), by decide +kernel⟩

/-! ### Witnesses: the register window and the store actions -/

/-- A write over read-only registers, a write of three bytes at CMD, and writes just below and just above
KEY and the DIN port. -/
theorem witness_WindowWritesTouchOnlyOperands :
    commandBytes (.write 0x10#8 (List.replicate 16 0xFF#8)) = none
    ∧ commandBytes (.write 0x00#8 [1#8, 0#8, 0#8]) = none
    ∧ (withAction ecb (.write 0xFF#8 [1#8])).inbox = .write 0xFF#8 [1#8] :: []
    ∧ (0x3F#8).toNat + 1 ≤ 0x40 + 0 ∧ 0x40 + 63 < (0x80#8).toNat
    ∧ (0x7F#8).toNat + 1 ≤ 0x80 ∧ 0x80 < (0x81#8).toNat := by decide

theorem witness_WindowWritesSetTheRegisters :
    (withAction ecb (.write 0x18#8 (wordBytes 64#32))).inbox = .write 0x18#8 (wordBytes 64#32) :: []
    ∧ (withAction ecb (.write 0x80#8 [0xFF#8])).inbox = .write 0x80#8 [0xFF#8] :: []
    ∧ (withAction ecb (.write 0x80#8 [0xFF#8])).bufCap = none := ⟨rfl, rfl, rfl⟩

theorem witness_WindowReadsReturnTheRegisters :
    (withAction ecb (.read 0x04#8 4)).inbox = .read 0x04#8 4 :: []
    ∧ (withAction ecb (.read 0x40#8 64)).inbox = .read 0x40#8 64 :: []
    ∧ (withAction ecb (.read 0x2F#8 0x56)).inbox = .read 0x2F#8 0x56 :: []
    ∧ 0x2F + 0 < 0x30 ∧ 0x2F + 0x55 = 0x84 := by decide

theorem witness_DoutPortPops :
    (withAction { ecb with dout := [0xAB#8, 1#8] } (.read 0x84#8 1)).inbox = .read 0x84#8 1 :: []
    ∧ ({ ecb with dout := [0xAB#8, 1#8] } : State).dout = 0xAB#8 :: [1#8] ∧ ecb.dout = [] := ⟨rfl, rfl, rfl⟩

theorem witness_StoreIsNotChangedBehindASession :
    (withAction ecb .closeStore).inbox = .closeStore :: [] ∧ ecb.fsm = .ready
    ∧ (withAction State.reset (.replaceStore [1#8])).inbox = .replaceStore [1#8] :: []
    ∧ State.reset.fsm ≠ .ready ∧ (withAction ecb .openStore).inbox = .openStore :: []
    ∧ ([1#8] : List Byte).length < 2 ^ ({ State.reset with posBits := 1 } : State).posBits
    ∧ 2 ^ ({ State.reset with posBits := 0 } : State).posBits ≤ ([1#8] : List Byte).length :=
  ⟨rfl, rfl, rfl, by decide, rfl, by decide, by decide⟩

/-- A key line of 64 bytes, and a line with payload, operand and command (P1). -/
theorem witness_ScriptLinesRunTheirCommands :
    (∃ s : State, s = { State.reset with inbox := (ScriptLine.key (List.replicate 64 1#8)).actions }
      ∧ s.inbox = (ScriptLine.key (List.replicate 64 1#8)).actions ++ [] ∧ s.bufCap = none
      ∧ (List.replicate 64 (1#8)).length ≤ 64)
    ∧ (ScriptLine.write [0x11#8, 0x11#8]).actions = [.write 0x80#8 [0x11#8], .write 0x80#8 [0x11#8],
      .write 0x08#8 [2#8, 0#8, 0#8, 0#8, 0#8, 0#8, 0#8, 0#8], .write 0x00#8 [7#8, 0#8, 0#8, 0#8]] :=
  ⟨⟨_, rfl, by simp, rfl, by simp⟩, by decide +kernel⟩

/-! ### Witnesses: modes -/

theorem witness_GfDoubleBytewise : 1 ≤ 1 ∧ 1 ≤ 15 ∧ 15 ≤ 15 := by decide

theorem witness_SectorIndicesAgree : 0 < 0x20 ∧ 0x20 % 16 = 0 ∧ sec 0x20 (blk 47) = 1 := by decide

theorem witness_IndependenceAndChaining :
    ecb.mode ≠ .cbc ∧ cbc.mode = .cbc ∧ zeroBlock ≠ 1#128 := by decide

/-- Two sessions that differ in pending block 0 only, with a gap block and an equal pending block above it;
and two that differ in pending block 2 only, which is not the lowest. -/
theorem witness_CbcChangePropagates :
    (∃ s', s' = { gapped with cache := [(0, 0#128), (2, 0x00000000000000007700000000000000#128)] }
      ∧ Inv gapped ∧ Inv s' ∧ gapped.fsm = .ready ∧ gapped.mode = .cbc ∧ s'.cache.dom = gapped.cache.dom
      ∧ s'.cache.get 0 ≠ gapped.cache.get 0 ∧ (∀ x, x ≠ 0 → s'.cache.get x = gapped.cache.get x)
      ∧ CascadeComplete gapped ∧ 16 * 2 < newPhys gapped
      ∧ (∃ t, exec .flush gapped = .next t ∧ t.lastErr = .ok)
      ∧ ∃ t, exec .flush s' = .next t ∧ t.lastErr = .ok)
    ∧ ∃ s', s' = { gapped with cache := [(0, 0xff0102030405060708090a0b0c0d0e0f#128), (2, 0#128)] }
      ∧ Inv s' ∧ s'.cache.dom = gapped.cache.dom ∧ s'.cache.get 2 ≠ gapped.cache.get 2
      ∧ (∀ x, x < 2 → s'.cache.get x = gapped.cache.get x)
      ∧ ∃ t, exec .flush s' = .next t ∧ t.lastErr = .ok :=
  ⟨⟨_, rfl, inv_gapped, inv_of_checks _ (by decide +kernel), rfl, rfl, rfl, by decide,
      fun x hx => by simp [Cache.get, gapped, hx], cascade_of_check _ (by decide +kernel),
      by decide +kernel, ⟨_, next_stateOf (by decide +kernel), by decide +kernel⟩,
      _, next_stateOf (by decide +kernel), by decide +kernel⟩,
    _, rfl, inv_of_checks _ (by decide +kernel), rfl, by decide,
    fun x hx => by simp [Cache.get, gapped, Nat.ne_of_lt hx],
    _, next_stateOf (by decide +kernel), by decide +kernel⟩

end Sys2Proof.Tests
end

section
/-! The reset input (10_state.md R36; 70_reset_and_hazards.md R156, R158): a step that takes a host action
other than a command is that action, and STATUS after reset. -/

namespace Sys2Proof.Machine

@[simp] theorem State.taken_store (s : State) (rest : List HostAction) : (s.taken rest).store = s.store := rfl

@[simp] theorem State.taken_storeOpen (s : State) (rest : List HostAction) :
    (s.taken rest).storeOpen = s.storeOpen := rfl

/-- A step whose next action carries no command word does that action (30_encoding.md R176). -/
theorem step_of_noCommand {s : State} {a : HostAction} {rest : List HostAction}
    (hi : s.inbox = a :: rest) (hc : commandBytes a = none) : step s = hostAct a (s.taken rest) := by
  simp only [step, hi, hc, State.taken]

theorem step_of_reset {s : State} {rest : List HostAction} (hi : s.inbox = .reset :: rest) :
    step s = .next (resetEngine (s.taken rest)) :=
  step_of_noCommand hi rfl

/-- STATUS is 0 before a session when the cache is empty and the last command ended well (10_state.md R21). -/
theorem statusWord_eq_zero {s : State} (hf : s.fsm = .uninitialized) (he : s.lastErr = .ok)
    (hc : s.cache = []) : statusWord s = 0#32 := by
  have hl : sessionLatched s = false := by simp [sessionLatched, hf]
  have hd : dirty s = false := by simp [dirty, hc]
  simp [statusWord, statusMode, statusLo, hl, hd, hf, he, Fsm.code, ErrCode.code]

@[simp] theorem statusWord_resetEngine (s : State) : statusWord (resetEngine s) = 0#32 :=
  statusWord_eq_zero (resetEngine_fsm s) (resetEngine_lastErr s) (resetEngine_cache s)

/-- Settles O5: the step is `resetEngine`, whose fields the laws of the state give one by one; taking the
action from the list changes neither the store nor its open bit. -/
theorem resetInputRestoresTheEngine : Obligations.ResetInputRestoresTheEngine := by
  intro s rest hi
  refine ⟨resetEngine (s.taken rest), step_of_reset hi, ?_⟩
  simp

end Sys2Proof.Machine
end

section
/-! The legal command words (30_encoding.md R177, R184, R186): the fields of a word by arithmetic, the five
clauses over them, the words the decoder accepts, and the step that takes a word from CMD. -/

namespace Sys2Proof.Machine

/-! ### The fields of a word and the clauses of R184 -/

theorem opcField_toNat (w : Word) : (opcField w).toNat = w.toNat % 256 := by
  simp [opcField]

theorem subField_toNat (w : Word) : (subField w).toNat = w.toNat / 256 % 4 := by
  simp [subField, Nat.shiftRight_eq_div_pow]

theorem loField_eq_false_iff (w : Word) : loField w = false ↔ w.toNat / 1024 % 2 = 0 := by
  simp [loField, BitVec.getLsbD, Nat.testBit_eq_decide_div_mod_eq]

theorem reservedField_toNat (w : Word) : (reservedField w).toNat = w.toNat / 2048 := by
  have hw := w.isLt
  simp only [reservedField, BitVec.extractLsb'_toNat, Nat.shiftRight_eq_div_pow]
  omega

theorem opcField_eq_iff (w : Word) (c : BitVec 8) : opcField w = c ↔ w.toNat % 256 = c.toNat := by
  rw [← BitVec.toNat_inj, opcField_toNat]

theorem subField_eq_iff (w : Word) (c : BitVec 2) : subField w = c ↔ w.toNat / 256 % 4 = c.toNat := by
  rw [← BitVec.toNat_inj, subField_toNat]

theorem reservedOk_iff (w : Word) : reservedOk w = true ↔ w.toNat / 2048 = 0 := by
  rw [reservedOk, beq_iff_eq, ← BitVec.toNat_inj, reservedField_toNat]
  rfl

theorem opcOk_iff (w : Word) : opcOk w = true ↔ 1 ≤ w.toNat % 256 ∧ w.toNat % 256 ≤ 9 := by
  rw [opcOk, decide_eq_true_iff, opcField_toNat]

theorem loOk_iff (w : Word) : loOk w = true ↔ (w.toNat % 256 ≠ 1 → w.toNat / 1024 % 2 = 0) := by
  simp only [loOk, Bool.or_eq_true, beq_iff_eq, Bool.not_eq_true', opcField_eq_iff, loField_eq_false_iff]
  exact or_iff_not_imp_left

theorem subOk_iff (w : Word) :
    subOk w = true ↔ (w.toNat % 256 ≠ 1 ∧ w.toNat % 256 ≠ 2 → w.toNat / 256 % 4 = 0) := by
  simp only [subOk, Bool.or_eq_true, beq_iff_eq, opcField_eq_iff, subField_eq_iff]
  rw [or_iff_not_imp_left, not_or]
  rfl

theorem originOk_iff (w : Word) : originOk w = true ↔ (w.toNat % 256 = 2 → w.toNat / 256 % 4 ≠ 3) := by
  simp only [originOk, Bool.not_eq_true', Bool.and_eq_false_imp, beq_iff_eq, beq_eq_false_iff_ne, ne_eq,
    opcField_eq_iff, subField_eq_iff]
  rfl

/-- The five clauses of 30_encoding.md R184, over the fields taken from the word by arithmetic. -/
theorem legalWord_iff (w : Word) :
    legalWord w = true ↔
      w.toNat / 2048 = 0 ∧ 1 ≤ w.toNat % 256 ∧ w.toNat % 256 ≤ 9
      ∧ (w.toNat % 256 ≠ 1 → w.toNat / 1024 % 2 = 0)
      ∧ (w.toNat % 256 ≠ 1 ∧ w.toNat % 256 ≠ 2 → w.toNat / 256 % 4 = 0)
      ∧ (w.toNat % 256 = 2 → w.toNat / 256 % 4 ≠ 3) := by
  simp only [legalWord, Bool.and_eq_true, reservedOk_iff, opcOk_iff, loOk_iff, subOk_iff, originOk_iff,
    and_assoc]

/-! ### The words the decoder accepts -/

/-- A SEEK has every origin but 3 (30_encoding.md R180). -/
theorem exists_seekOf_iff (sub : BitVec 2) : (∃ i, seekOf sub = .ok i) ↔ sub ≠ 3#2 := by
  unfold seekOf
  split
  next h => simp [BitVec.eq_of_toNat_eq (y := 0#2) h]
  next h => simp [BitVec.eq_of_toNat_eq (y := 1#2) h]
  next h => simp [BitVec.eq_of_toNat_eq (y := 2#2) h]
  next h0 h1 h2 =>
    have h3 : sub = 3#2 := by
      simp only [imp_false] at h0 h1 h2
      bv_omega
    simp [h3]

/-- A command without operand fields has both of them 0 (30_encoding.md R186). -/
theorem exists_bareOf_iff (w : Word) (j : Instr) :
    (∃ i, bareOf w j = .ok i) ↔ loField w = false ∧ subField w = 0#2 := by
  unfold bareOf
  split
  next hl => simp [hl]
  next hl =>
    split
    next hs => simp [hs]
    next hs => simpa [hl] using hs

/-- An OPEN whose reserved bits are 0 is legal (30_encoding.md R179, R181). -/
theorem legalWord_of_open {w : Word} (hr : reservedField w = 0#21) (h : opcField w = 1#8) :
    legalWord w = true := by
  simp [legalWord, reservedOk, opcOk, loOk, subOk, originOk, hr, h]

/-- A SEEK whose reserved bits are 0 has two clauses left to check (30_encoding.md R180, R184). -/
theorem legalWord_of_seek {w : Word} (hr : reservedField w = 0#21) (h : opcField w = 2#8) :
    legalWord w = true ↔ loField w = false ∧ subField w ≠ 3#2 := by
  simp [legalWord, reservedOk, opcOk, loOk, subOk, originOk, hr, h]

/-- For the opcodes 3 to 9 the clauses of R184 left to check are that `LO` and `SUB` are 0. -/
theorem legalWord_of_bare {w : Word} (hr : reservedField w = 0#21) (h3 : 3 ≤ (opcField w).toNat)
    (h9 : (opcField w).toNat ≤ 9) : legalWord w = true ↔ loField w = false ∧ subField w = 0#2 := by
  have h1 : opcField w ≠ 1#8 := by intro h; simp [h] at h3
  have h2 : opcField w ≠ 2#8 := by intro h; simp [h] at h3
  have hge : 1 ≤ (opcField w).toNat := by omega
  simp [legalWord, reservedOk, opcOk, loOk, subOk, originOk, hr, h1, h2, hge, h9]

/-- The decoder accepts the legal words and no others (30_encoding.md R184, R186). -/
theorem exists_decodeWord_iff (w : Word) : (∃ i, decodeWord w = .ok i) ↔ legalWord w = true := by
  have hbare (hr : reservedField w = 0#21) (h3 : 3 ≤ (opcField w).toNat) (h9 : (opcField w).toNat ≤ 9)
      (j : Instr) : (∃ i, bareOf w j = .ok i) ↔ legalWord w = true := by
    rw [exists_bareOf_iff, legalWord_of_bare hr h3 h9]
  unfold decodeWord
  split
  next hr => simp [legalWord, reservedOk, hr]
  next hr =>
    rw [ne_eq, not_not] at hr
    split
    case h_1 h => simp [legalWord_of_open hr (BitVec.eq_of_toNat_eq h)]
    case h_2 h =>
      rw [legalWord_of_seek hr (BitVec.eq_of_toNat_eq h)]
      split
      next hl => simp [hl]
      next hl => simp [hl, exists_seekOf_iff]
    case h_3 h | h_4 h | h_5 h | h_6 h | h_7 h | h_8 h | h_9 h =>
      exact hbare hr (by omega) (by omega) _
    case h_10 h1 h2 h3 h4 h5 h6 h7 h8 h9 =>
      have hopc : opcOk w = false := by
        simp only [imp_false] at h1 h2 h3 h4 h5 h6 h7 h8 h9
        simp only [opcOk, decide_eq_false_iff_not]
        omega
      simp [legalWord, hopc]

/-! ### A command word written to CMD -/

/-- The window's four bytes of a word make the word again (20_memory.md R44). -/
theorem wordOfBytes_wordBytes (w : Word) :
    wordOfBytes (w.extractLsb' 0 8) (w.extractLsb' 8 8) (w.extractLsb' 16 8) (w.extractLsb' 24 8) = w := by
  rw [wordOfBytes, BitVec.extractLsb'_append_extractLsb'_eq_extractLsb' (show 24 = 16 + 8 from rfl),
    BitVec.extractLsb'_append_extractLsb'_eq_extractLsb' (show 16 = 8 + 8 from rfl),
    BitVec.extractLsb'_append_extractLsb'_eq_extractLsb' (show 8 = 0 + 8 from rfl), BitVec.extractLsb'_eq_self]

theorem decode_wordBytes_of_ok {w : Word} {i : Instr} (h : decodeWord w = .ok i) :
    decode (wordBytes w) = .ok (i, []) := by
  simp only [decode, wordBytes, wordOfBytes_wordBytes, h]

theorem decode_wordBytes_of_error {w : Word} {e : DecodeError} (h : decodeWord w = .error e) :
    decode (wordBytes w) = .error e := by
  simp only [decode, wordBytes, wordOfBytes_wordBytes, h]

theorem commandBytes_wordBytes (w : Word) : commandBytes (.write 0#8 (wordBytes w)) = some (wordBytes w) := rfl

theorem step_of_decodeWord_ok {s : State} {w : Word} {rest : List HostAction} {i : Instr}
    (hi : s.inbox = .write 0#8 (wordBytes w) :: rest) (h : decodeWord w = .ok i) :
    step s = exec i (s.taken rest) := by
  simp only [step, hi, commandBytes_wordBytes, decode_wordBytes_of_ok h, State.taken]

theorem step_of_decodeWord_error {s : State} {w : Word} {rest : List HostAction} {e : DecodeError}
    (hi : s.inbox = .write 0#8 (wordBytes w) :: rest) (h : decodeWord w = .error e) :
    step s = .next (illegalCommand (s.taken rest)) := by
  simp only [step, hi, commandBytes_wordBytes, decode_wordBytes_of_error h, State.taken]

/-- Settles O2: the arithmetic clauses are `legalWord`, which is what the decoder accepts; a step takes the
decoder's answer, and `illegalCommand` is the update that the illegal side writes out. -/
theorem legalWordsAreTheCommands : Obligations.LegalWordsAreTheCommands := by
  intro w s rest hi
  dsimp only
  rw [← legalWord_iff, ← exists_decodeWord_iff]
  refine ⟨fun ⟨i, hd⟩ => ⟨i, hd, step_of_decodeWord_ok hi hd⟩, fun hn => ?_⟩
  cases hd : decodeWord w with
  | ok i => exact absurd ⟨i, hd⟩ hn
  | error e => exact step_of_decodeWord_error hi hd

end Sys2Proof.Machine
end

section
/-! The bytes of a block as a number, and the two 128-bit additions (40_block_primitives.md R66, R67). -/

namespace Sys2Proof.Machine

theorem byteAt_reverseBlock (B : Block) {i : Nat} (hi : i < 16) :
    byteAt (reverseBlock B) i = byteAt B (15 - i) :=
  byteAt_tabulate _ hi

theorem reverseBlock_add128le (V : Block) (n : Nat) :
    reverseBlock (add128le V n) = add128be (reverseBlock V) n :=
  reverseBlock_reverseBlock _

theorem toNat_add128be (V : Block) (n : Nat) : (add128be V n).toNat = (V.toNat + n) % 2 ^ 128 := by
  simp [add128be]

/-- The low `n` base-256 digits of a number make up its residue modulo `256 ^ n`. -/
theorem sum_base256_digits (x n : Nat) :
    ∑ i ∈ Finset.range n, x / 256 ^ i % 256 * 256 ^ i = x % 256 ^ n := by
  induction n with
  | zero => simp [Nat.mod_one]
  | succ n ih => rw [Finset.sum_range_succ, ih, Nat.mod_pow_succ, Nat.mul_comm (256 ^ n)]

/-- Counted from the last byte, byte `i` of a block is base-256 digit `i` of its number (00_scope.md R11). -/
theorem toNat_byteAt_sub (V : Block) (i : Nat) (hi : i < 16) :
    (byteAt V (15 - i)).toNat = V.toNat / 256 ^ i % 256 := by
  have e : 15 - (15 - i) = i := by omega
  rw [byteAt, e, BitVec.extractLsb'_toNat, Nat.shiftRight_eq_div_pow, Nat.pow_mul]

theorem sum_bytes_from_last (V : Block) :
    ∑ i ∈ Finset.range 16, (byteAt V (15 - i)).toNat * 256 ^ i = V.toNat := by
  calc
    _ = ∑ i ∈ Finset.range 16, V.toNat / 256 ^ i % 256 * 256 ^ i :=
      Finset.sum_congr rfl fun i hi => by rw [toNat_byteAt_sub V i (Finset.mem_range.mp hi)]
    _ = V.toNat % 256 ^ 16 := sum_base256_digits _ _
    _ = V.toNat := Nat.mod_eq_of_lt V.isLt

/-- `int_be` of a block is the number it is held as (00_scope.md R11; log 26). -/
theorem bigEndian_sum (V : Block) :
    ∑ i ∈ Finset.range 16, (byteAt V i).toNat * 256 ^ (15 - i) = V.toNat := by
  rw [← sum_bytes_from_last V, ← Finset.sum_range_reflect]
  refine Finset.sum_congr rfl fun i hi => ?_
  have e : 15 - (16 - 1 - i) = i := by have := Finset.mem_range.mp hi; omega
  rw [e]

/-- `int_le` of a block is the number of the reversed block. -/
theorem littleEndian_sum (V : Block) :
    ∑ i ∈ Finset.range 16, (byteAt V i).toNat * 256 ^ i = (reverseBlock V).toNat := by
  rw [← sum_bytes_from_last]
  refine Finset.sum_congr rfl fun i hi => ?_
  have e : 15 - (15 - i) = i := by have := Finset.mem_range.mp hi; omega
  rw [byteAt_reverseBlock V (by omega), e]

/-- Settles O53: both byte sums are numbers of blocks, the little-endian one of the reversed block, and
reversal turns the little-endian addition into the big-endian one, the addition of numbers modulo 2^128. -/
theorem additionsAreBigAndLittleEndian : Obligations.AdditionsAreBigAndLittleEndian := by
  intro V n
  rw [bigEndian_sum, bigEndian_sum, littleEndian_sum, littleEndian_sum, reverseBlock_add128le]
  exact ⟨toNat_add128be V n, toNat_add128be (reverseBlock V) n⟩

end Sys2Proof.Machine
end

section
/-! AES decryption undoes encryption (40_block_primitives.md R62; 49_aes_fips197_reference.md R128 to R134):
each layer of a round has an inverse layer, so each round has one, and so the rounds under any list of
round keys; the key schedule plays no part. -/

namespace Sys2Proof.Machine

/-! ### The byte and row layers -/

theorem invSbox_sbox : ∀ x : Byte, invSbox (sbox x) = x := by decide +kernel

theorem invSubBytes_subBytes (s : Block) : invSubBytes (subBytes s) = s := by
  apply block_ext
  intro i hi
  rw [invSubBytes, byteAt_tabulate _ hi, subBytes, byteAt_tabulate _ hi, invSbox_sbox]

theorem invShiftRows_shiftRows (s : Block) : invShiftRows (shiftRows s) = s := by
  apply block_ext
  intro i hi
  have e : ((i + 12 * (i % 4)) % 16 + 4 * ((i + 12 * (i % 4)) % 16 % 4)) % 16 = i := by omega
  rw [invShiftRows, byteAt_tabulate _ hi, shiftRows, byteAt_tabulate _ (by omega), e]

/-! ### The column layer -/

theorem xtime_xor (a b : Byte) : xtime (a ^^^ b) = xtime a ^^^ xtime b := by
  have h : ∀ p q : Bool, (if p ^^ q then 0x1B#8 else 0#8)
      = (if p then 0x1B#8 else 0#8) ^^^ (if q then 0x1B#8 else 0#8) := by decide
  simp only [xtime, BitVec.shiftLeft_xor_distrib, BitVec.msb_xor, h]
  ac_rfl

theorem gmulLoop_xor (n : Nat) (r r' a a' b : Byte) :
    gmulLoop n (r ^^^ r') (a ^^^ a') b = gmulLoop n r a b ^^^ gmulLoop n r' a' b := by
  induction n generalizing r r' a a' b with
  | zero => rfl
  | succ n ih =>
    have hr : (r ^^^ r') ^^^ (a ^^^ a') = (r ^^^ a) ^^^ (r' ^^^ a') := by ac_rfl
    rw [gmulLoop, gmulLoop, gmulLoop, xtime_xor]
    split
    · rw [hr, ih]
    · rw [ih]

/-- Multiplication by a constant is additive. -/
theorem gmul_xor (a b c : Byte) : gmul (a ^^^ b) c = gmul a c ^^^ gmul b c :=
  gmulLoop_xor 8 0#8 0#8 a b c

/-- Byte `m` of the column that byte `i` of `s` stands in, counted from byte `i` and round the column. -/
def columnByte (s : Block) (i m : Nat) : Byte := byteAt s (4 * (i / 4) + (i + m) % 4)

theorem columnByte_zero (s : Block) (i : Nat) : columnByte s i 0 = byteAt s i := by
  rw [columnByte, Nat.add_zero, Nat.div_add_mod]

theorem columnByte_add_four (s : Block) (i m : Nat) : columnByte s i (m + 4) = columnByte s i m := by
  rw [columnByte, columnByte, ← Nat.add_assoc, Nat.add_mod_right]

/-- A column transform acts on each column alike, from whichever byte one counts. -/
theorem columnByte_mixWith (c0 c1 c2 c3 : Byte) (s : Block) {i : Nat} (hi : i < 16) (m : Nat) :
    columnByte (mixWith c0 c1 c2 c3 s) i m
      = gmul (columnByte s i m) c0 ^^^ gmul (columnByte s i (m + 1)) c1
        ^^^ gmul (columnByte s i (m + 2)) c2 ^^^ gmul (columnByte s i (m + 3)) c3 := by
  have hcol : (4 * (i / 4) + (i + m) % 4) / 4 = i / 4 := by omega
  have hrow (k : Nat) : (4 * (i / 4) + (i + m) % 4 + k) % 4 = (i + (m + k)) % 4 := by omega
  have hrow0 := hrow 0
  simp only [Nat.add_zero] at hrow0
  simp only [columnByte]
  rw [mixWith, byteAt_tabulate _ (by omega), hcol, hrow0, hrow, hrow, hrow]

/-- The product of the circulants of `InvMixColumns` and `MixColumns` is the identity: its coefficients,
each applied to a byte. -/
theorem invMix_mix_coefficients : ∀ a : Byte,
    gmul (gmul a 2#8) 14#8 ^^^ gmul (gmul a 1#8) 11#8
        ^^^ gmul (gmul a 1#8) 13#8 ^^^ gmul (gmul a 3#8) 9#8 = a
    ∧ gmul (gmul a 3#8) 14#8 ^^^ gmul (gmul a 2#8) 11#8
        ^^^ gmul (gmul a 1#8) 13#8 ^^^ gmul (gmul a 1#8) 9#8 = 0#8
    ∧ gmul (gmul a 1#8) 14#8 ^^^ gmul (gmul a 3#8) 11#8
        ^^^ gmul (gmul a 2#8) 13#8 ^^^ gmul (gmul a 1#8) 9#8 = 0#8
    ∧ gmul (gmul a 1#8) 14#8 ^^^ gmul (gmul a 1#8) 11#8
        ^^^ gmul (gmul a 3#8) 13#8 ^^^ gmul (gmul a 2#8) 9#8 = 0#8 := by
  decide +kernel

/-- A four by four table of bytes summed along its wrapped diagonals instead of its rows. -/
theorem xor_rows_eq_xor_diagonals (a0 a1 a2 a3 b0 b1 b2 b3 c0 c1 c2 c3 d0 d1 d2 d3 : Byte) :
    (a0 ^^^ a1 ^^^ a2 ^^^ a3) ^^^ (b0 ^^^ b1 ^^^ b2 ^^^ b3)
      ^^^ (c0 ^^^ c1 ^^^ c2 ^^^ c3) ^^^ (d0 ^^^ d1 ^^^ d2 ^^^ d3)
    = (a0 ^^^ b3 ^^^ c2 ^^^ d1) ^^^ (a1 ^^^ b0 ^^^ c3 ^^^ d2)
      ^^^ (a2 ^^^ b1 ^^^ c0 ^^^ d3) ^^^ (a3 ^^^ b2 ^^^ c1 ^^^ d0) := by
  ac_rfl

theorem invMixColumns_mixColumns (s : Block) : invMixColumns (mixColumns s) = s := by
  apply block_ext
  intro i hi
  obtain ⟨h0, -, -, -⟩ := invMix_mix_coefficients (columnByte s i 0)
  obtain ⟨-, h1, -, -⟩ := invMix_mix_coefficients (columnByte s i 1)
  obtain ⟨-, -, h2, -⟩ := invMix_mix_coefficients (columnByte s i 2)
  obtain ⟨-, -, -, h3⟩ := invMix_mix_coefficients (columnByte s i 3)
  have h4 := columnByte_add_four s i
  rw [← columnByte_zero, ← columnByte_zero s, invMixColumns, mixColumns]
  simp only [columnByte_mixWith _ _ _ _ _ hi, gmul_xor, Nat.zero_add, Nat.reduceAdd, h4 0, h4 1, h4 2]
  rw [xor_rows_eq_xor_diagonals, h0, h1, h2, h3]
  simp

/-! ### The rounds -/

/-- `AddRoundKey` is its own inverse (R133). -/
theorem xor_xor_cancel (s k : Block) : s ^^^ k ^^^ k = s := xor128_cancel s k

/-- The layers of a round that every round of `Cipher` has (R133). -/
def subShift (s : Block) : Block := shiftRows (subBytes s)

/-- The layers of a round that every round of `InvCipher` has (R134). -/
def invSubShift (s : Block) : Block := invSubBytes (invShiftRows s)

theorem invSubShift_subShift (s : Block) : invSubShift (subShift s) = s := by
  rw [invSubShift, subShift, invShiftRows_shiftRows, invSubBytes_subBytes]

/-- A round of `Cipher` before the last (R133). -/
def cipherRound (s k : Block) : Block := mixColumns (subShift s) ^^^ k

/-- A round of `InvCipher` before the last (R134). -/
def invCipherRound (s k : Block) : Block := invMixColumns (invSubShift s ^^^ k)

theorem cipherRounds_concat (s : Block) (ks : List Block) (k : Block) :
    cipherRounds s (ks ++ [k]) = subShift (ks.foldl cipherRound s) ^^^ k := by
  induction ks generalizing s with
  | nil => rfl
  | cons k' ks ih =>
    rw [List.foldl_cons, ← ih]
    cases ks <;> rfl

theorem invCipherRounds_concat (s : Block) (ks : List Block) (k : Block) :
    invCipherRounds s (ks ++ [k]) = invSubShift (ks.foldl invCipherRound s) ^^^ k := by
  induction ks generalizing s with
  | nil => rfl
  | cons k' ks ih =>
    rw [List.foldl_cons, ← ih]
    cases ks <;> rfl

/-- `InvCipher` takes back the inner rounds of `Cipher`, the latest first. -/
theorem invSubShift_invRounds_rounds (s : Block) (ks : List Block) :
    invSubShift (ks.reverse.foldl invCipherRound (subShift (ks.foldl cipherRound s))) = s := by
  induction ks generalizing s with
  | nil => exact invSubShift_subShift s
  | cons k ks ih =>
    rw [List.reverse_cons, List.foldl_concat, List.foldl_cons, invCipherRound, ih (cipherRound s k),
      cipherRound, xor_xor_cancel, invMixColumns_mixColumns, invSubShift_subShift]

theorem invCipher_cipher (x : Block) (rk : List Block) : invCipher (cipher x rk) rk.reverse = x := by
  cases rk with
  | nil => rfl
  | cons k0 rest =>
    obtain rfl | ⟨ks, k, rfl⟩ := rest.eq_nil_or_concat'
    · exact xor_xor_cancel x k0
    · have hrev : (k0 :: (ks ++ [k])).reverse = k :: (ks.reverse ++ [k0]) := by simp
      rw [hrev, cipher, invCipher, cipherRounds_concat, invCipherRounds_concat, xor_xor_cancel,
        invSubShift_invRounds_rounds, xor_xor_cancel]

theorem aesDec_aesEnc (key : AesKey) (x : Block) : aesDec key (aesEnc key x) = x :=
  invCipher_cipher x (keyExpansion key)

/-- Decryption is onto, so on the finitely many blocks it is injective too, and encryption inverts it. -/
theorem aesEnc_aesDec (key : AesKey) (x : Block) : aesEnc key (aesDec key x) = x := by
  have hleft : Function.LeftInverse (aesDec key) (aesEnc key) := aesDec_aesEnc key
  have hinj : Function.Injective (aesDec key) := Finite.injective_iff_surjective.mpr hleft.surjective
  exact hleft.rightInverse_of_injective hinj x

/-- Settles O57: the rounds of `InvCipher` take back those of `Cipher` one by one; the blocks are finitely
many, so that the left inverse is the right inverse. -/
theorem aesDecryptionInvertsEncryption : Obligations.AesDecryptionInvertsEncryption :=
  fun key x => ⟨aesDec_aesEnc key x, aesEnc_aesDec key x⟩

end Sys2Proof.Machine
end

section
/-! The Xts sector indices of a block, from its index and from a position in it (41_mode_engines.md R84). -/

namespace Sys2Proof.Machine

/-- A sector of `16 * K` bytes holds `K` blocks. -/
theorem sectorBlocks_mul (k : Nat) : sectorBlocks (16 * k) = k :=
  Nat.mul_div_cancel_left k (by decide)

/-- Dividing by the block size and then by `K` is dividing by the sector size. -/
theorem sec_blk (k p : Nat) : sec (16 * k) (blk p) = p / (16 * k) := by
  rw [sec, blk, sectorBlocks_mul, Nat.div_div_eq_div_mul]

/-- The block number modulo `K` is the block number of the offset in the sector. -/
theorem bis_blk (k p : Nat) : bis (16 * k) (blk p) = p % (16 * k) / 16 := by
  rw [bis, blk, sectorBlocks_mul, Nat.mod_mul_right_div_self]

/-- Settles O54: a sector size that is a multiple of 16 is `16 * K`, for which the two forms agree index by
index. -/
theorem sectorIndicesAgree : Obligations.SectorIndicesAgree := by
  intro ss p _ hmod
  obtain ⟨k, rfl⟩ : 16 ∣ ss := Nat.dvd_of_mod_eq_zero hmod
  exact ⟨sec_blk k p, bis_blk k p⟩

end Sys2Proof.Machine
end

section
/-! Positioning (42_channel_commands.md R102 to R106): the common tail of `SEEK` and `SETPOS` as the end of a
command. -/

namespace Sys2Proof.Machine

/-- The targets outside `[0, 2^POS_BITS)` are those `moveTo` answers with a fault (R105). -/
theorem outOfRange_iff (n : Int) (s : State) :
    n < 0 ∨ (posLimit s : Int) ≤ n ↔ ¬ (0 ≤ n ∧ n < 2 ^ s.posBits) := by
  simp only [posLimit, Nat.cast_pow, Nat.cast_ofNat, not_and_or, not_le, not_lt]

theorem finish_moveTo (target : State → Int) (s : State) :
    finish (moveTo target s) = .next (if 0 ≤ target s ∧ target s < 2 ^ s.posBits
      then complete (BitVec.ofInt 64 (target s)) { s with pos := (target s).toNat }
      else raise .argumentError 0#64 s) := by
  rw [moveTo_apply, if_congr (outOfRange_iff (target s) s) rfl rfl, ite_not]
  split <;> rfl

/-- A positioning command in Ready: `n` is its target. -/
theorem exec_moveTo {i : Instr} {target : State → Int} {s : State} (hop : operation i = moveTo target)
    (hm : malformed i s = false) (hf : s.fsm = acceptingState i) :
    exec i s = .next (if 0 ≤ target s.started ∧ target s.started < 2 ^ s.posBits
      then complete (BitVec.ofInt 64 (target s.started)) { s.started with pos := (target s.started).toNat }
      else raise .argumentError 0#64 s.started) := by
  rw [exec_accepted hm hf, hop]
  exact finish_moveTo target s.started

/-- Settles O13: each of the four commands is `moveTo` of its own target, and the target does not read DOUT. -/
theorem seekAndSetposMoveTheCursor : Obligations.SeekAndSetposMoveTheCursor := by
  intro i s n hf h
  obtain ⟨rfl | rfl, rfl⟩ | ⟨rfl, rfl⟩ | ⟨rfl, rfl⟩ := h
  case inl.inl => exact exec_moveTo (i := .seekSet) rfl rfl hf
  case inl.inr => exact exec_moveTo (i := .setpos) rfl rfl hf
  case inr.inl => exact exec_moveTo (i := .seekCur) rfl rfl hf
  case inr.inr => exact exec_moveTo (i := .seekEnd) rfl rfl hf

end Sys2Proof.Machine
end

section
/-! `FLUSH` with nothing pending (42_channel_commands.md R117). -/

namespace Sys2Proof.Machine

theorem flushOp_of_cache_nil {s : State} (hc : s.cache = []) : flushOp s = .ok 0#64 s := by
  simp only [flushOp, cmd_get_bind, hc, List.isEmpty_nil, if_true, cmd_pure]

/-- Settles O22: the operation leaves the state it starts from, which differs from the old one in DOUT only. -/
theorem flushOfAnEmptyCache : Obligations.FlushOfAnEmptyCache := by
  intro s hf hc
  have hop : operation .flush s.started = .ok 0#64 s.started := flushOp_of_cache_nil hc
  rw [exec_accepted rfl hf, hop]
  rfl

end Sys2Proof.Machine
end

section
/-! The bytes of a key (10_state.md R25; 40_block_primitives.md R63): cutting a number made of bytes into
bytes gives them back. -/

namespace Sys2Proof.Machine

theorem bigEndian_concat (w : Nat) (l : List Byte) (b : Byte) :
    bigEndian w (l ++ [b]) = (bigEndian w l <<< 8) ||| b.setWidth w := by
  simp only [bigEndian, List.foldl_concat]

/-- The byte appended last is the lowest one. -/
theorem extractLsb'_shiftLeft_or_zero {w : Nat} (x : BitVec w) (b : Byte) (h : 8 ≤ w) :
    ((x <<< 8) ||| b.setWidth w).extractLsb' 0 8 = b := by
  apply BitVec.eq_of_getLsbD_eq
  intro k hk
  have hkw : k < w := by omega
  simp [hk, hkw]

/-- The bytes above it are the bytes of the number before. -/
theorem extractLsb'_shiftLeft_or_add {w : Nat} (x : BitVec w) (b : Byte) (o : Nat) (h : o + 16 ≤ w) :
    ((x <<< 8) ||| b.setWidth w).extractLsb' (o + 8) 8 = x.extractLsb' o 8 := by
  apply BitVec.eq_of_getLsbD_eq
  intro k hk
  have hkw : o + 8 + k < w := by omega
  have hokw : o + k < w := by omega
  have hlow : b.getLsbD (o + 8 + k) = false := BitVec.getLsbD_of_ge _ _ (by omega)
  have e : o + 8 + k - 8 = o + k := by omega
  have hge : ¬ o + 8 + k < 8 := by omega
  simp [hk, hkw, hlow, e, hge, BitVec.getLsbD_eq_getElem hokw]

theorem extractLsb'_bigEndian {w : Nat} (l : List Byte) (hw : 8 * l.length ≤ w) (j : Nat)
    (hj : j < l.length) : (bigEndian w l).extractLsb' (8 * (l.length - 1 - j)) 8 = l[j] := by
  induction l using List.reverseRecOn with
  | nil => exact absurd hj (Nat.not_lt_zero j)
  | append_singleton l b ih =>
    simp only [List.length_append, List.length_singleton] at hw hj
    rw [bigEndian_concat]
    obtain hlt | rfl : j < l.length ∨ j = l.length := by omega
    · have e : 8 * ((l ++ [b]).length - 1 - j) = 8 * (l.length - 1 - j) + 8 := by
        simp only [List.length_append, List.length_singleton]
        omega
      rw [e, extractLsb'_shiftLeft_or_add _ _ _ (by omega), ih (by omega) hlt, List.getElem_append_left hlt]
    · have e : 8 * ((l ++ [b]).length - 1 - l.length) = 0 := by simp
      rw [e, extractLsb'_shiftLeft_or_zero _ _ (by omega), List.getElem_concat_length rfl]

theorem map_extractLsb'_bigEndian {w : Nat} (l : List Byte) (hw : 8 * l.length ≤ w) :
    (List.range l.length).map (fun i => (bigEndian w l).extractLsb' (8 * (l.length - 1 - i)) 8) = l := by
  refine List.ext_getElem (by simp) fun j _ hj => ?_
  rw [List.getElem_map, List.getElem_range, extractLsb'_bigEndian l hw j hj]

/-- A slice of KEY of a key's length is the key with its bytes (R25). -/
theorem bytes_keySlice (key : Vector Byte 64) (start n : Nat) (hn : n = 16 ∨ n = 32) (hend : start + n ≤ 64) :
    (keySlice key start n).bytes = (key.toList.drop start).take n := by
  have hlen : ((key.toList.drop start).take n).length = n := by
    simp only [List.length_take, List.length_drop, Vector.length_toList]
    omega
  have h := map_extractLsb'_bigEndian (w := 8 * n) ((key.toList.drop start).take n) (by rw [hlen])
  rw [hlen] at h
  obtain rfl | rfl := hn <;> exact h

end Sys2Proof.Machine
end

section
/-! `OPEN` over an open store (42_channel_commands.md R92 to R101): its checks as arithmetic, its two ends,
and the keys it latches. -/

namespace Sys2Proof.Machine

/-! ### The construction checks -/

theorem keyOk_iff (mode : Mode) (s : State) : keyOk mode s = true ↔
    if mode = .xts then keylenValue s = 32 ∨ keylenValue s = 64
    else keylenValue s = 16 ∨ keylenValue s = 32 := by
  cases mode <;> simp [keyOk, keyForms]

theorem sectorOk_iff (s : State) : sectorOk s = true ↔ 0 < secszValue s ∧ secszValue s % 16 = 0 := by
  simp only [sectorOk, Bool.and_eq_true, decide_eq_true_eq]

theorem operandsOk_iff (mode : Mode) (s : State) :
    operandsOk mode s = true ↔ keyOk mode s = true ∧ (mode = .xts → sectorOk s = true) := by
  cases mode <;> simp [operandsOk]

theorem lengthOk_iff (mode : Mode) (s : State) :
    lengthOk mode s = true ↔ storeLen s % 16 = 0 ∧ (mode = .xts → 16 ≤ storeLen s) := by
  cases mode <;> simp [lengthOk]

/-- The three checks together (R92, R99 to R101). -/
theorem openChecks_iff (mode : Mode) (s : State) :
    operandsOk mode s = true ∧ lengthOk mode s = true ↔
      (if mode = .xts then keylenValue s = 32 ∨ keylenValue s = 64
        else keylenValue s = 16 ∨ keylenValue s = 32)
      ∧ (mode = .xts → 0 < secszValue s ∧ secszValue s % 16 = 0 ∧ 16 ≤ storeLen s)
      ∧ storeLen s % 16 = 0 := by
  rw [operandsOk_iff, lengthOk_iff, keyOk_iff, sectorOk_iff]
  tauto

/-! ### The two ends of the command -/

theorem openOp_of_checks {mode : Mode} (lo : Bool) {s : State} (ho : s.storeOpen = true)
    (hc : operandsOk mode s = true ∧ lengthOk mode s = true) :
    openOp mode lo s = .ok 0#64 (openSession mode lo s) := by
  rw [openOp_apply, if_pos hc.left, if_pos ho, if_pos hc.right]

/-- Whichever check fails, the answer is the same (R98). -/
theorem openOp_of_failed_check {mode : Mode} (lo : Bool) {s : State} (ho : s.storeOpen = true)
    (hc : ¬ (operandsOk mode s = true ∧ lengthOk mode s = true)) :
    openOp mode lo s = .error (.raised .configurationError 0#64) { s with fsm := .rejected } := by
  rw [openOp_apply]
  by_cases hops : operandsOk mode s = true
  · rw [if_pos hops, if_pos ho, if_neg fun hlen => hc ⟨hops, hlen⟩]
  · rw [if_neg hops]

theorem exec_open_of_checks {mode : Mode} (lo : Bool) {s : State} (hf : s.fsm = .uninitialized)
    (ho : s.storeOpen = true) (hc : operandsOk mode s = true ∧ lengthOk mode s = true) :
    exec (mode.openCommand lo) s = .next (complete 0#64 (openSession mode lo s.started)) := by
  rw [exec_openCommand, runCommand_accepted _ rfl hf, openOp_of_checks (s := s.started) lo ho hc, finish]

theorem exec_open_of_failed_check {mode : Mode} (lo : Bool) {s : State} (hf : s.fsm = .uninitialized)
    (ho : s.storeOpen = true) (hc : ¬ (operandsOk mode s = true ∧ lengthOk mode s = true)) :
    exec (mode.openCommand lo) s
      = .next (raise .configurationError 0#64 { s.started with fsm := .rejected }) := by
  rw [exec_openCommand, runCommand_accepted _ rfl hf, openOp_of_failed_check (s := s.started) lo ho hc, finish]

/-! ### The keys of the session -/

/-- The length of KD: all of the key material, or half of it in Xts (10_state.md R25). -/
def dataKeyLength (mode : Mode) (s : State) : Nat :=
  if mode = .xts then keylenValue s / 2 else keylenValue s

theorem dataKey_eq (mode : Mode) (s : State) : dataKey mode s = keySlice s.key 0 (dataKeyLength mode s) := by
  cases mode <;> rfl

/-- Every key form makes KD an AES key length (00_scope.md R9, 40_block_primitives.md R63). -/
theorem dataKeyLength_of_keyOk {mode : Mode} {s : State} (h : keyOk mode s = true) :
    dataKeyLength mode s = 16 ∨ dataKeyLength mode s = 32 := by
  rw [keyOk_iff] at h
  unfold dataKeyLength
  split at h
  next hx => rw [if_pos hx]; omega
  next hx => rwa [if_neg hx]

theorem bytes_dataKey {mode : Mode} {s : State} (h : keyOk mode s = true) :
    (dataKey mode s).bytes = s.key.toList.take (dataKeyLength mode s) := by
  have hn := dataKeyLength_of_keyOk h
  rw [dataKey_eq, bytes_keySlice _ _ _ hn (by omega), List.drop_zero]

theorem bytes_tweakKey {s : State} (h : keyOk .xts s = true) :
    (tweakKey s).bytes = (s.key.toList.drop (dataKeyLength .xts s)).take (dataKeyLength .xts s) := by
  have hn := dataKeyLength_of_keyOk h
  exact bytes_keySlice s.key (dataKeyLength .xts s) (dataKeyLength .xts s) hn (by omega)

/-- Settles O7: the acceptance condition is the three checks; `openSession` is the state a passing command
leaves, its keys slices of KEY. -/
theorem openLatchesOrRejects : Obligations.OpenLatchesOrRejects := by
  intro mode lo s hf ho n size half accepted
  have hacc : operandsOk mode s = true ∧ lengthOk mode s = true ↔ accepted := openChecks_iff mode s
  rw [← hacc]
  refine ⟨fun hc => ?_, exec_open_of_failed_check lo hf ho⟩
  obtain ⟨hkey, -⟩ := (operandsOk_iff mode s).mp hc.left
  refine ⟨dataKey mode s, if mode = .xts then tweakKey s else s.kt, exec_open_of_checks lo hf ho hc,
    bytes_dataKey hkey, ?_, fun hx => if_neg hx⟩
  rintro rfl
  exact bytes_tweakKey hkey

end Sys2Proof.Machine
end

section
/-! The faults of the session state and of the end of the stream (60_exceptions.md R139, R142): which part of
a command can raise each, and that neither leaves a trace but the record of the command. -/

namespace Sys2Proof.Machine

/-! ### What an operation can raise -/

/-- `StateError` comes from the check of the session state alone: no operation raises it (R142). -/
theorem operation_ne_stateError {i : Instr} {s t : State} {info : DWord} :
    operation i s ≠ .error (.raised .stateError info) t := by
  intro h
  obtain ⟨-, he, -⟩ | ⟨-, he, -⟩ | ⟨-, he⟩ | ⟨-, he, -⟩ | ⟨-, he⟩ | ⟨-, w, he, -⟩ | ⟨-, f, he⟩ := operation_error h
  all_goals cases he

/-- `EndOfStreamError` comes from the range check of `READ` alone (R139). -/
theorem operation_endOfStreamError {i : Instr} {s t : State} {info : DWord}
    (h : operation i s = .error (.raised .endOfStreamError info) t) :
    i = .read ∧ 0 < argCount s ∧ s.len < s.pos + argCount s := by
  obtain ⟨-, he, -⟩ | ⟨-, he, -⟩ | ⟨-, he⟩ | ⟨hread, -, hcount, hlen⟩ | ⟨-, he⟩ | ⟨-, w, he, -⟩ | ⟨-, f, he⟩ :=
    operation_error h
  case inr.inr.inr.inl => exact ⟨hread, hcount, hlen⟩
  all_goals cases he

/-! ### The session state -/

theorem exec_stateError {i : Instr} {s : State} (hm : malformed i s = false) (hf : s.fsm ≠ acceptingState i) :
    exec i s = .next (raise .stateError 0#64 s.started) := by
  rw [exec_eq, runCommand_stateError _ hm hf]

/-- Settles O9: of the four ends of a command only the check of the session state records `StateError`. -/
theorem stateErrorExactlyInOtherStates : Obligations.StateErrorExactlyInOtherStates := by
  refine ⟨fun i s hm hf => exec_stateError hm hf, fun i s t h herr => ?_⟩
  obtain ⟨-, rfl⟩ | ⟨hm, hf, -⟩ | ⟨-, -, v, u, -, rfl⟩ | ⟨-, -, e, info, u, hop, rfl⟩ := exec_next.mp h
  · cases herr
  · exact ⟨hm, hf⟩
  · cases herr
  · obtain rfl : e = .stateError := herr
    exact absurd hop operation_ne_stateError

/-! ### The end of the stream -/

/-- The range check of `READ` precedes its store accesses (42_channel_commands.md R109). -/
theorem readOp_pastLength {s : State} (hcount : 0 < argCount s) (hlen : s.len < s.pos + argCount s) :
    readOp s = .error (.raised .endOfStreamError 0#64) s := by
  simp only [readOp, cmd_get_bind, if_neg (Nat.ne_of_gt hcount), if_pos hlen, cmd_raiseFault]

/-- Settles O16: of the four ends of a command only a fault its operation raised can be `EndOfStreamError`. -/
theorem endOfStreamExactlyPastTheLength : Obligations.EndOfStreamExactlyPastTheLength := by
  refine ⟨fun s hf hm hcount hlen => ?_, fun i s t h herr => ?_⟩
  · have hop : operation .read s.started = .error (.raised .endOfStreamError 0#64) s.started :=
      readOp_pastLength hcount hlen
    rw [exec_accepted (i := .read) hm hf, hop]
    rfl
  obtain ⟨-, rfl⟩ | ⟨-, -, rfl⟩ | ⟨-, -, v, u, -, rfl⟩ | ⟨-, -, e, info, u, hop, rfl⟩ := exec_next.mp h
  · cases herr
  · cases herr
  · cases herr
  · obtain rfl : e = .endOfStreamError := herr
    exact operation_endOfStreamError (s := s.started) hop

end Sys2Proof.Machine
end

section
/-! Decoding and encoding of command words (30_encoding.md R177 to R186): a word is made of its four fields,
and the decoder accepts a word for a command exactly when its fields are the command's. -/

namespace Sys2Proof.Machine

/-! ### A word and its fields -/

/-- A word whose reserved bits are 0 is the word of its other fields (30_encoding.md R177). -/
theorem wordOfFields_fields {w : Word} (hr : reservedField w = 0#21) :
    wordOfFields (opcField w) (subField w) (loField w) = w := by
  have hlo : BitVec.ofBool (loField w) = w.extractLsb' 10 1 := by
    apply BitVec.eq_of_getLsbD_eq
    intro k hk
    obtain rfl : k = 0 := by omega
    simp [loField]
  rw [wordOfFields, ← hr, hlo, reservedField, subField, opcField,
    BitVec.extractLsb'_append_extractLsb'_eq_extractLsb' (show 11 = 10 + 1 from rfl),
    BitVec.extractLsb'_append_extractLsb'_eq_extractLsb' (show 10 = 8 + 2 from rfl),
    BitVec.extractLsb'_append_extractLsb'_eq_extractLsb' (show 8 = 0 + 8 from rfl), BitVec.extractLsb'_eq_self]

/-- The fields of the command are those of the word (30_encoding.md R177 to R181). -/
structure HasFieldsOf (w : Word) (i : Instr) : Prop where
  opc : opcField w = i.opc
  sub : subField w = i.sub
  lo : loField w = i.lo

theorem HasFieldsOf.eq_encodeWord {w : Word} {i : Instr} (h : HasFieldsOf w i) (hr : reservedField w = 0#21) :
    w = encodeWord i := by
  rw [encodeWord, ← h.opc, ← h.sub, ← h.lo, wordOfFields_fields hr]

/-- An OPEN word names its mode by `SUB` (30_encoding.md R179). -/
theorem hasFieldsOf_openOf {w : Word} (ho : opcField w = 1#8) :
    HasFieldsOf w (openOf (subField w) (loField w)) := by
  unfold openOf
  split
  next h => exact ⟨ho, BitVec.eq_of_toNat_eq h, rfl⟩
  next h => exact ⟨ho, BitVec.eq_of_toNat_eq h, rfl⟩
  next h => exact ⟨ho, BitVec.eq_of_toNat_eq h, rfl⟩
  next h0 h1 h2 =>
    refine ⟨ho, ?_, rfl⟩
    simp only [imp_false] at h0 h1 h2
    change subField w = 3#2
    bv_omega

/-- A SEEK word names its origin by `SUB` (30_encoding.md R180). -/
theorem hasFieldsOf_seekOf {w : Word} {i : Instr} (ho : opcField w = 2#8) (hl : loField w = false)
    (h : seekOf (subField w) = .ok i) : HasFieldsOf w i := by
  unfold seekOf at h
  split at h
  next hs => cases h; exact ⟨ho, BitVec.eq_of_toNat_eq hs, hl⟩
  next hs => cases h; exact ⟨ho, BitVec.eq_of_toNat_eq hs, hl⟩
  next hs => cases h; exact ⟨ho, BitVec.eq_of_toNat_eq hs, hl⟩
  next => cases h

/-- Any other command has `SUB` and `LO` 0 (30_encoding.md R186). -/
theorem hasFieldsOf_bareOf {w : Word} {i j : Instr} (h : bareOf w j = .ok i)
    (ho : (opcField w).toNat = j.opc.toNat) (hs : j.sub = 0#2) (hl : j.lo = false) : HasFieldsOf w i := by
  unfold bareOf at h
  split at h
  next => cases h
  next hlo =>
    split at h
    next => cases h
    next hsub =>
      cases h
      exact ⟨BitVec.eq_of_toNat_eq ho, by rw [hs]; simpa using hsub, by rw [hl]; simpa using hlo⟩

/-- A decoded word has the fields of the command it stands for. -/
theorem hasFieldsOf_of_decodeWord {w : Word} {i : Instr} (h : decodeWord w = .ok i) :
    reservedField w = 0#21 ∧ HasFieldsOf w i := by
  unfold decodeWord at h
  split at h
  next => cases h
  next hr =>
    refine ⟨by simpa using hr, ?_⟩
    split at h
    case h_1 ho => cases h; exact hasFieldsOf_openOf (BitVec.eq_of_toNat_eq ho)
    case h_2 ho =>
      split at h
      next => cases h
      next hl => exact hasFieldsOf_seekOf (BitVec.eq_of_toNat_eq ho) (by simpa using hl) h
    case h_3 ho | h_4 ho | h_5 ho | h_6 ho | h_7 ho | h_8 ho | h_9 ho => exact hasFieldsOf_bareOf h ho rfl rfl
    case h_10 => cases h

/-- The decoder answers a command for the word of that command (30_encoding.md R186). -/
theorem decodeWord_encodeWord (i : Instr) : decodeWord (encodeWord i) = .ok i := by
  cases i
  case openEcb lo | openCbc lo | openCtr lo | openXts lo => cases lo <;> rfl
  all_goals rfl

/-- Four bytes of a word decode as the word does, whatever follows them (20_memory.md R44). -/
theorem decode_wordBytes_append {w : Word} {i : Instr} (h : decodeWord w = .ok i) (rest : List Byte) :
    decode (wordBytes w ++ rest) = .ok (i, rest) := by
  simp only [wordBytes, List.cons_append, List.nil_append, decode, wordOfBytes_wordBytes, h]

/-- Settles O1: a decoded word has the command's fields, and a word is made of its fields; the other way the
fourteen words are evaluated. -/
theorem decodeAndEncodeAgree : Obligations.DecodeAndEncodeAgree := by
  refine ⟨fun w i => ⟨fun h => ?_, ?_⟩, fun i rest => decode_wordBytes_append (decodeWord_encodeWord i) rest⟩
  · obtain ⟨hr, hf⟩ := hasFieldsOf_of_decodeWord h
    exact hf.eq_encodeWord hr
  · rintro rfl
    exact decodeWord_encodeWord i

/-- Settles O3: the words of VD1 are evaluated. -/
theorem specWordsDecode : Obligations.SpecWordsDecode := by
  unfold Obligations.SpecWordsDecode
  decide

/-- Only four bytes decode with nothing left over (30_encoding.md R177). -/
theorem length_of_decode_ok {bytes : List Byte} {i : Instr} (h : decode bytes = .ok (i, [])) :
    bytes.length = 4 := by
  unfold decode at h
  split at h
  next =>
    split at h
    next => cases h; rfl
    next => cases h
  next => cases h

theorem commandBytes_of_length {bytes : List Byte} (h : bytes.length = 4) :
    commandBytes (.write 0#8 bytes) = some bytes := by
  simp only [commandBytes, h, and_self, if_true]

/-- Settles O4: bytes that decode with nothing left over are a command word, which the step runs. -/
theorem stepRunsTheDecodedCommand : Obligations.StepRunsTheDecodedCommand := by
  refine ⟨fun s bytes rest i hi hd => ?_, fun s hi => ?_⟩
  · simp only [step, hi, commandBytes_of_length (length_of_decode_ok hd), hd]
  · simp only [step, hi]

end Sys2Proof.Machine
end

section
/-! The mode engines invert, and what a ciphertext block depends on (41_mode_engines.md R89, R90). -/

namespace Sys2Proof.Machine

theorem decWith_encWith (s : State) (b : Nat) (chain x : Block) :
    decWith s b chain (encWith s b chain x) = x := by
  unfold decWith encWith
  cases s.mode
  case ecb => exact aesDec_aesEnc _ _
  case cbc => simp only [cbcDec, cbcEnc, aesDec_aesEnc, xor128_cancel]
  case ctr => exact xor128_cancel _ _
  case xts => simp only [xtsDec, xtsEnc, xor128_cancel, aesDec_aesEnc]

theorem encWith_decWith (s : State) (b : Nat) (chain x : Block) :
    encWith s b chain (decWith s b chain x) = x := by
  unfold decWith encWith
  cases s.mode
  case ecb => exact aesEnc_aesDec _ _
  case cbc => simp only [cbcDec, cbcEnc, aesEnc_aesDec, xor128_cancel]
  case ctr => exact xor128_cancel _ _
  case xts => simp only [xtsDec, xtsEnc, xor128_cancel, aesEnc_aesDec]

/-- Settles O58: AES and the masks of each mode are undone in the opposite order. -/
theorem modeEnginesInvert : Obligations.ModeEnginesInvert :=
  fun s b chain x => ⟨decWith_encWith s b chain x, encWith_decWith s b chain x⟩

/-- Outside Cbc the chaining value does not enter a transform (R90). -/
theorem encWith_chain_irrelevant {s : State} (hm : s.mode ≠ .cbc) (b : Nat) (chain chain' p : Block) :
    encWith s b chain p = encWith s b chain' p := by
  rw [← encWith_chain s b chain, ← encWith_chain s b chain', if_neg hm, if_neg hm]

/-- Outside Cbc the chaining value does not enter a transform (R90). -/
theorem decWith_chain_irrelevant {s : State} (hm : s.mode ≠ .cbc) (b : Nat) (chain chain' c : Block) :
    decWith s b chain c = decWith s b chain' c := by
  rw [← decWith_chain s b chain, ← decWith_chain s b chain', if_neg hm, if_neg hm]

theorem encWith_injective (s : State) (b : Nat) (chain : Block) : Function.Injective (encWith s b chain) :=
  Function.LeftInverse.injective (g := decWith s b chain) (decWith_encWith s b chain)

theorem encWith_of_cbc {s : State} (hm : s.mode = .cbc) (b : Nat) (chain p : Block) :
    encWith s b chain p = cbcEnc s.kd chain p := by
  simp only [encWith, hm]

theorem cbcEnc_chain_injective (kd : AesKey) (p : Block) : Function.Injective fun chain => cbcEnc kd chain p := by
  intro chain chain' h
  have hx : xor128 p chain = xor128 p chain' := by
    rw [← aesDec_aesEnc kd (xor128 p chain), ← aesDec_aesEnc kd (xor128 p chain')]
    exact congrArg (aesDec kd) h
  exact (BitVec.xor_right_inj p).mp hx

/-- Settles O59: an engine that has an inverse is injective; so is the chaining of Cbc. -/
theorem independenceAndChaining : Obligations.IndependenceAndChaining := by
  intro s b chain chain' p p'
  refine ⟨fun hm => encWith_chain_irrelevant hm b chain chain' p, fun hp h => hp (encWith_injective s b chain h),
    fun hm hc h => hc ?_⟩
  rw [encWith_of_cbc hm, encWith_of_cbc hm] at h
  exact cbcEnc_chain_injective s.kd p h

end Sys2Proof.Machine
end

section
/-! `GfDouble` byte by byte (40_block_primitives.md R68) and the S-box as the field inverse and an affine map
(49_aes_fips197_reference.md R129). -/

namespace Sys2Proof.Machine

/-! ### `GfDouble` -/

theorem byteAt_shiftLeft_one_first (v : Block) : byteAt (v <<< 1) 15 = byteAt v 15 <<< 1 := by
  apply BitVec.eq_of_getLsbD_eq
  intro k hk
  have hkw : k < 128 := by omega
  have hk1 : k - 1 < 128 := by omega
  simp [byteAt, hk, hkw, BitVec.getLsbD_eq_getElem hk1]

/-- A shift of the block by one bit carries the top bit of each byte into the byte above it. -/
theorem byteAt_shiftLeft_one (v : Block) {i : Nat} (hi : i < 15) :
    byteAt (v <<< 1) i = (byteAt v i <<< 1) ||| (byteAt v (i + 1) >>> 7) := by
  obtain ⟨o, ho, e, e'⟩ : ∃ o, o < 15 ∧ 15 - i = o + 1 ∧ 15 - (i + 1) = o := ⟨14 - i, by omega, by omega, by omega⟩
  apply BitVec.eq_of_getLsbD_eq
  intro k hk
  have hkw : 8 * (o + 1) + k < 128 := by omega
  simp only [byteAt, e, e', BitVec.getLsbD_extractLsb', BitVec.getLsbD_or, BitVec.getLsbD_shiftLeft,
    BitVec.getLsbD_ushiftRight, hk, hkw]
  by_cases h0 : k = 0
  · subst h0
    have e1 : 8 * (o + 1) - 1 = 8 * o + 7 := by omega
    simp [e1]
  · have e1 : 8 * (o + 1) + k - 1 = 8 * (o + 1) + (k - 1) := by omega
    have hge : ¬ 8 * (o + 1) + k < 1 := by omega
    have hk1 : ¬ k < 1 := by omega
    have hk7 : ¬ 7 + k < 8 := by omega
    have hk8 : k - 1 < 8 := by omega
    simp [e1, hge, hk1, hk7, hk8]

theorem msb_iff_byteAt_zero (v : Block) : v.msb = true ↔ 0x80 ≤ (byteAt v 0).toNat := by
  have h : (byteAt v 0).msb = v.msb := by
    simp [byteAt, BitVec.msb_eq_getLsbD_last]
  rw [← h, BitVec.msb_eq_decide, decide_eq_true_iff]

/-- The reduction constant of R68 lies in the byte with index 15 of the block as a number. -/
theorem byteAt_reduction (c : Bool) {i : Nat} (hi : i ≤ 15) :
    byteAt (if c then 0x87#128 else 0#128) i = if i = 15 ∧ c = true then 0x87#8 else 0x00#8 := by
  interval_cases i <;> cases c <;> rfl

/-- Byte `i` of `GfDouble(T)` before it is brought into the byte order of the block (R68). -/
theorem byteAt_gfDouble (T : Block) {i : Nat} (hi : i ≤ 15) :
    byteAt (gfDouble T) i
      = byteAt (reverseBlock T <<< 1) (15 - i)
        ^^^ (if i = 0 ∧ (reverseBlock T).msb = true then 0x87#8 else 0x00#8) := by
  have e : (15 - i = 15 ∧ (reverseBlock T).msb = true) = (i = 0 ∧ (reverseBlock T).msb = true) := by
    rw [show (15 - i = 15) = (i = 0) by apply propext; omega]
  rw [gfDouble, byteAt_reverseBlock _ (by omega), byteAt_xor, byteAt_reduction _ (by omega)]
  simp only [e]

/-- Settles O52: the reversed block is shifted by one bit, byte by byte, and the bit shifted out decides the
reduction of its lowest byte. -/
theorem gfDoubleBytewise : Obligations.GfDoubleBytewise := by
  intro T
  refine ⟨?_, fun i h1 h15 => ?_⟩
  · have hmsb : 0 = 0 ∧ (reverseBlock T).msb = true ↔ 0x80 ≤ (byteAt T 15).toNat := by
      rw [msb_iff_byteAt_zero, byteAt_reverseBlock T (by omega), eq_self, true_and]
    rw [byteAt_gfDouble T (by omega), Nat.sub_zero, byteAt_shiftLeft_one_first, byteAt_reverseBlock T (by omega),
      if_congr hmsb rfl rfl]
  · have e : 15 - (15 - i) = i := by omega
    have e' : 15 - (15 - i + 1) = i - 1 := by omega
    have h0 : ¬ (i = 0 ∧ (reverseBlock T).msb = true) := by omega
    rw [byteAt_gfDouble T h15, byteAt_shiftLeft_one _ (by omega), byteAt_reverseBlock T (by omega),
      byteAt_reverseBlock T (by omega), e, e', if_neg h0]
    simp

/-! ### The S-box -/

theorem sbox_invSbox : ∀ x : Byte, sbox (invSbox x) = x := by decide +kernel

/-- The affine map of R129 inverted: what SBOX takes the affine image of. -/
def affinePreimage (z : Byte) : Byte := z.rotateLeft 1 ^^^ z.rotateLeft 3 ^^^ z.rotateLeft 6 ^^^ 0x05#8

theorem sbox_affine : ∀ x : Byte, sbox x
    = affinePreimage (sbox x) ^^^ (affinePreimage (sbox x)).rotateLeft 1 ^^^ (affinePreimage (sbox x)).rotateLeft 2
      ^^^ (affinePreimage (sbox x)).rotateLeft 3 ^^^ (affinePreimage (sbox x)).rotateLeft 4 ^^^ 0x63#8 := by
  decide +kernel

/-- What SBOX takes the affine image of is the multiplicative inverse, or 0 for 0 (R129). -/
theorem affinePreimage_sbox : ∀ x : Byte,
    if x = 0#8 then affinePreimage (sbox x) = 0#8 else gmul x (affinePreimage (sbox x)) = 1#8 := by
  decide +kernel

/-- Settles O55: the two tables are evaluated against each other and against the rule, at every byte. -/
theorem sboxIsTheFieldInverse : Obligations.SboxIsTheFieldInverse :=
  fun x => ⟨invSbox_sbox x, sbox_invSbox x, affinePreimage (sbox x), affinePreimage_sbox x, sbox_affine x⟩

/-- Settles O56: the four values are evaluated. -/
theorem aesMatchesTheSpecValues : Obligations.AesMatchesTheSpecValues := by
  unfold Obligations.AesMatchesTheSpecValues
  decide +kernel

end Sys2Proof.Machine
end

section
/-! What a command and a step do to a session (10_state.md R35): one inversion, from which the invariants of
a session are derived. -/

namespace Sys2Proof.Machine

/-! ### The same session -/

theorem SameSession.refl (s : State) : SameSession s s := by
  constructor <;> rfl

theorem SameSession.trans {s t u : State} (h : SameSession s t) (h' : SameSession t u) : SameSession s u where
  storeOpen := h'.storeOpen.trans h.storeOpen
  cache := h'.cache.trans h.cache
  len := h'.len.trans h.len
  store := h'.store.trans h.store
  mode := h'.mode.trans h.mode
  kd := h'.kd.trans h.kd
  kt := h'.kt.trans h.kt
  p0 := h'.p0.trans h.p0
  ss := h'.ss.trans h.ss
  sidOrder := h'.sidOrder.trans h.sidOrder

theorem SameSession.storeLen {s t : State} (h : SameSession s t) : storeLen t = storeLen s :=
  congrArg Memory.len h.store

theorem SameSession.committedBlocks {s t : State} (h : SameSession s t) :
    committedBlocks t = committedBlocks s := by
  rw [Machine.committedBlocks, h.storeLen]
  rfl

theorem SameSession.storedChain {s t : State} (h : SameSession s t) (b : Nat) :
    storedChain t b = storedChain s b := by
  simp only [Machine.storedChain, chainIn, h.p0, h.store]

/-! ### What a step can do to a session -/

/-- The session after a `WRITE` (42_channel_commands.md R111). -/
def writtenState (s : State) : State :=
  { s with cache := writtenCache s, len := max s.len (s.pos + argCount s) }

/-- The session after a `FLUSH` of pending blocks (R114). -/
def flushedState (s : State) : State :=
  { s with store := commitAll s s.store (commitSet s), cache := [],
           len := (commitAll s s.store (commitSet s)).len }

/-- The session after a `FLUSH` that failed when `n` blocks were committed (R116). -/
def partlyFlushed (s : State) (n : Nat) : State :=
  s.withStore (commitAll s s.store ((commitSet s).take n)) s.fates

/-- What a step from a consistent state can do to the session: nothing; end up outside a session; open one;
`WRITE` some bytes; `FLUSH` pending blocks; or fail to `FLUSH` them all. -/
inductive SessionChange (s t : State) : Prop where
  | same (hf : t.fsm = s.fsm) (h : SameSession s t)
  | outside (hf : t.fsm ≠ .ready) (hw : t.store.wf = true) (hc : t.cache.wf = true)
  | opened (hf : t.fsm = .ready) (mode : Mode) (lo : Bool) (ho : s.storeOpen = true)
      (hops : operandsOk mode s = true) (hlen : lengthOk mode s = true) (h : SameSession (openSession mode lo s) t)
  | written (hs : s.fsm = .ready) (hf : t.fsm = .ready) (hd : s.din.length = argCount s) (h0 : 0 < argCount s)
      (h : SameSession (writtenState s) t)
  | flushed (hs : s.fsm = .ready) (hf : t.fsm = .ready) (hc : s.cache ≠ []) (h : SameSession (flushedState s) t)
  | partly (hs : s.fsm = .ready) (hf : t.fsm = .ready) (hc : s.cache ≠ []) (n : Nat)
      (hn : n < (commitSet s).length) (he : t.lastErr = .ioError) (h : SameSession (partlyFlushed s n) t)

/-- Taking the action from the list is no part of the change. -/
theorem SessionChange.of_taken {s t : State} {rest : List HostAction} (h : SessionChange (s.taken rest) t) :
    SessionChange s t := by
  cases h with
  | same hf h => exact .same hf (.trans (by constructor <;> rfl) h)
  | outside hf hw hc => exact .outside hf hw hc
  | opened hf mode lo ho hops hlen h => exact .opened hf mode lo ho hops hlen (.trans (by constructor <;> rfl) h)
  | written hs hf hd h0 h => exact .written hs hf hd h0 (.trans (by constructor <;> rfl) h)
  | flushed hs hf hc h => exact .flushed hs hf hc (.trans (by constructor <;> rfl) h)
  | partly hs hf hc n hn he h => exact .partly hs hf hc n hn he (.trans (by constructor <;> rfl) h)

theorem Inv.started {s : State} (hi : Inv s) : Inv s.started where
  storeWf := hi.storeWf
  cacheWf := hi.cacheWf
  session hf := SameSession.ready (by constructor <;> rfl) (hi.session hf)

theorem Inv.taken {s : State} (hi : Inv s) (rest : List HostAction) : Inv (s.taken rest) where
  storeWf := hi.storeWf
  cacheWf := hi.cacheWf
  session hf := SameSession.ready (by constructor <;> rfl) (hi.session hf)

/-! ### A command -/

theorem length_din_of_writeMalformed {s : State} (h : writeMalformed s = false) : s.din.length = argCount s := by
  simp only [writeMalformed, Bool.or_eq_false_iff, decide_eq_false_iff_not, not_not] at h
  exact h.left

/-- A successful `OPEN` passed its checks (42_channel_commands.md R92). -/
theorem openOp_ok {mode : Mode} {lo : Bool} {s t : State} {v : DWord} (h : openOp mode lo s = .ok v t) :
    s.storeOpen = true ∧ operandsOk mode s = true ∧ lengthOk mode s = true ∧ v = 0#64
      ∧ t = openSession mode lo s := by
  rw [openOp_apply] at h
  split at h
  next hops =>
    split at h
    next ho =>
      split at h
      next hlen => cases h; exact ⟨ho, hops, hlen, rfl, rfl⟩
      next => cases h
    next => cases h
  next => cases h

/-- A successful `SEEK` or `SETPOS` moved POS to a stream position (42_channel_commands.md R105). -/
theorem moveTo_ok {target : State → Int} {s t : State} {v : DWord} (h : moveTo target s = .ok v t) :
    ∃ p, p < posLimit s ∧ t = { s with pos := p } := by
  rw [moveTo_apply] at h
  split at h
  next => cases h
  next hr => cases h; exact ⟨_, by omega, rfl⟩

theorem report_ok {value : State → Nat} {s t : State} {v : DWord} (h : report value s = .ok v t) : t = s := by
  rw [report_apply] at h
  cases h
  rfl

/-- A successful command (42_channel_commands.md R92 to R119). -/
theorem sessionChange_of_ok {i : Instr} {s u : State} {v : DWord} (hi : Inv s) (hm : malformed i s = false)
    (hf : s.fsm = acceptingState i) (h : operation i s.started = .ok v u) :
    SessionChange s (complete v u) := by
  cases i
  case openEcb lo | openCbc lo | openCtr lo | openXts lo =>
    obtain ⟨ho, hops, hlen, -, rfl⟩ := openOp_ok h
    exact .opened rfl _ lo ho hops hlen (by constructor <;> rfl)
  case seekSet | seekCur | seekEnd | setpos =>
    obtain ⟨p, -, rfl⟩ := moveTo_ok h
    exact .same rfl (by constructor <;> rfl)
  case getpos | getlen =>
    obtain rfl := report_ok h
    exact .same rfl (by constructor <;> rfl)
  case read =>
    obtain ⟨-, -, rfl⟩ | ⟨-, -, -, fr, -, rfl⟩ := readOp_ok h
    · exact .same rfl (by constructor <;> rfl)
    · exact .same rfl (by constructor <;> rfl)
  case write =>
    obtain ⟨-, ⟨-, rfl⟩ | ⟨h0, -, fr, -, rfl⟩⟩ := writeOp_ok h
    · exact .same rfl (by constructor <;> rfl)
    · exact .written hf hf (length_din_of_writeMalformed hm) h0 (by constructor <;> rfl)
  case flush =>
    obtain ⟨-, ⟨-, rfl⟩ | ⟨hc, fr, -, rfl⟩⟩ := flushOp_ok (s := s.started) hi.storeWf h
    · exact .same rfl (by constructor <;> rfl)
    · exact .flushed hf hf hc (by constructor <;> rfl)
  case dispose =>
    rw [operation, disposeOp_apply] at h
    split at h
    next v' t hflush =>
      cases h
      refine .outside (by simp) ?_ ?_
      all_goals
        simp only [complete_store, complete_cache, endSession_store, endSession_cache]
        obtain ⟨-, ⟨-, rfl⟩ | ⟨hc, fr, -, rfl⟩⟩ := flushOp_ok (s := s.started) hi.storeWf hflush
      exacts [hi.storeWf, commitAll_wf _ _ _ hi.storeWf, hi.cacheWf, rfl]
    next => cases h

/-- A `FLUSH` that fails, alone or as the start of a `DISPOSE` (42_channel_commands.md R116, R119). -/
theorem sessionChange_of_flushOp_error {s u : State} {e : ErrCode} {info : DWord} (hi : Inv s)
    (hf : s.fsm = .ready) (h : flushOp s.started = .error (.raised e info) u) :
    SessionChange s (raise e info u) := by
  obtain ⟨hc, n, fr, w, hn, rfl, -, he, -⟩ := flushOp_error_inv (s := s.started) hi.storeWf (hi.started.session hf) h
  cases he
  exact .partly hf hf hc n hn rfl (by constructor <;> rfl)

theorem disposeOp_error {s t : State} {e : Exc} (h : disposeOp s = .error e t) : flushOp s = .error e t := by
  rw [disposeOp_apply] at h
  split at h
  next => cases h
  next hflush => cases h; exact hflush

/-- A failed command that is no `OPEN`, `FLUSH` or `DISPOSE` uses up store outcomes only (60_exceptions.md
R146). -/
theorem operation_error_withFates {i : Instr} {s t : State} {e : Exc} (h : operation i s = .error e t)
    (ho : opens i = false) (hfl : i ≠ .flush) (hd : i ≠ .dispose) : t = s.withFates t.fates := by
  obtain ⟨ht, -⟩ := (operation_state i s).2 e t h
  obtain ⟨hfsm, hstore⟩ := (operation_store i s).2 e t h
  rw [hfsm ho, hstore hfl hd] at ht
  exact ht

/-- A failed `OPEN` ends in Rejected, when it answers at all (42_channel_commands.md R98). -/
theorem operation_error_of_opens {i : Instr} {s t : State} {e : ErrCode} {info : DWord} (ho : opens i = true)
    (h : operation i s = .error (.raised e info) t) :
    e = .configurationError ∧ info = 0#64 ∧ t = { s with fsm := .rejected } := by
  obtain ⟨-, he, rfl⟩ | ⟨-, he, -⟩ | ⟨hi, -⟩ | ⟨hi, -⟩ | ⟨hi, -⟩ | ⟨hi, -⟩ | ⟨hi, -⟩ := operation_error h
  · cases he
    exact ⟨rfl, rfl, rfl⟩
  · cases he
  · obtain hi | rfl := hi
    · cases i <;> simp_all [opens, positions]
    · cases ho
  · cases hi; cases ho
  · cases hi; cases ho
  · obtain rfl | rfl | rfl | rfl := hi <;> cases ho
  · obtain rfl | rfl := hi <;> cases ho

/-- A command that raised a fault (60_exceptions.md R146). -/
theorem sessionChange_of_error {i : Instr} {s u : State} {e : ErrCode} {info : DWord} (hi : Inv s)
    (hf : s.fsm = acceptingState i) (h : operation i s.started = .error (.raised e info) u) :
    SessionChange s (raise e info u) := by
  by_cases hfl : i = .flush
  · subst hfl
    exact sessionChange_of_flushOp_error hi hf h
  by_cases hd : i = .dispose
  · subst hd
    exact sessionChange_of_flushOp_error hi hf (disposeOp_error h)
  cases ho : opens i with
  | true =>
    obtain ⟨-, -, rfl⟩ := operation_error_of_opens ho h
    exact .outside (by simp) hi.storeWf hi.cacheWf
  | false =>
    rw [operation_error_withFates h ho hfl hd]
    exact .same rfl (by constructor <;> rfl)

/-- Every command (42_channel_commands.md R91). -/
theorem exec_sessionChange {i : Instr} {s t : State} (hi : Inv s) (h : exec i s = .next t) : SessionChange s t := by
  obtain ⟨-, rfl⟩ | ⟨-, -, rfl⟩ | ⟨hm, hf, v, u, hop, rfl⟩ | ⟨-, hf, e, info, u, hop, rfl⟩ := exec_next.mp h
  · exact .same rfl (by constructor <;> rfl)
  · exact .same rfl (by constructor <;> rfl)
  · exact sessionChange_of_ok hi hm hf hop
  · exact sessionChange_of_error hi hf hop

/-! ### A step -/

/-- Every host action that is no command (30_encoding.md R176; 70_reset_and_hazards.md R156, R159, R160). -/
theorem hostAct_sessionChange {a : HostAction} {s t : State} (hi : Inv s) (h : hostAct a s = .next t) :
    SessionChange s t := by
  obtain ⟨kl, k, p, ss, g, d, rfl⟩ | ⟨o, n, rfl⟩ | rfl | ⟨b, hb, rfl⟩ | ⟨bytes, hf, -, rfl⟩ | ⟨fr, e, rfl⟩ :=
    hostAct_next h
  · exact .same rfl (by constructor <;> rfl)
  · exact .same rfl (by constructor <;> rfl)
  · exact .outside (by simp) hi.storeWf rfl
  · by_cases hf : s.fsm = .ready
    · obtain rfl : b = true := hb.resolve_right fun hn => hn hf
      exact .same rfl { SameSession.refl s with storeOpen := (hi.session hf).storeIsOpen.symm }
    · exact .outside hf hi.storeWf hi.cacheWf
  · exact .outside hf (Memory.wf_ofBytes bytes) hi.cacheWf
  · exact .same rfl (by constructor <;> rfl)

theorem step_sessionChange {s t : State} (hi : Inv s) (h : step s = .next t) : SessionChange s t := by
  obtain ⟨-, rfl⟩ | ⟨a, rest, -, ⟨i, hx⟩ | rfl | ⟨-, hx⟩⟩ := step_next h
  · exact .same rfl (.refl _)
  · exact (exec_sessionChange (hi.taken rest) hx).of_taken
  · exact .same rfl (by constructor <;> rfl)
  · exact (hostAct_sessionChange (hi.taken rest) hx).of_taken

end Sys2Proof.Machine
end

section
/-! What a `FLUSH` leaves when the first blocks of its commit set are committed, all of them or not
(42_channel_commands.md R114 to R116): the store block by block, and the plaintext view (20_memory.md R53). -/

namespace Sys2Proof.Machine

/-! ### The store after the first blocks of the commit set -/

/-- What comes before a member of a start of a rising list is in that start. -/
theorem mem_take_of_le {l : List Nat} (hs : l.Pairwise (· < ·)) {n x y : Nat} (hx : x ∈ l.take n) (hy : y ∈ l)
    (h : y ≤ x) : y ∈ l.take n := by
  rw [← List.take_append_drop n l] at hs hy
  rcases List.mem_append.mp hy with hy | hy
  · exact hy
  · have := (List.pairwise_append.mp hs).2.2 x hx y hy
    omega

/-- The store when the first `n` blocks of the commit set are committed. -/
def committedStore (s : State) (n : Nat) : Memory := commitAll s s.store ((commitSet s).take n)

theorem committedStore_length (s : State) :
    committedStore s (commitSet s).length = commitAll s s.store (commitSet s) := by
  rw [committedStore, List.take_length]

@[simp] theorem partlyFlushed_store (s : State) (n : Nat) : (partlyFlushed s n).store = committedStore s n := rfl

@[simp] theorem flushedState_store (s : State) :
    (flushedState s).store = committedStore s (commitSet s).length := (committedStore_length s).symm

theorem wf_committedStore {s : State} (hi : Inv s) (n : Nat) : (committedStore s n).wf = true :=
  commitAll_wf _ _ _ hi.storeWf

/-- The whole commit set makes the store as long as NEWPHYS (R114). -/
theorem len_committedStore_length {s : State} (hr : ReadyInv s) :
    (committedStore s (commitSet s).length).len = newPhys s := by
  rw [committedStore_length, len_committed hr]

theorem block_committedStore_other {s : State} (hi : Inv s) {n b : Nat} (hb : b ∉ (commitSet s).take n) :
    (committedStore s n).block (phys b) = s.store.block (phys b) :=
  block_commitAll_other s s.store hi.storeWf _ b hb

/-- A committed block is chained to the block below it in the new store (41_mode_engines.md R77). -/
theorem block_committedStore_mem {s : State} (hi : Inv s) (hf : s.fsm = .ready) {n b : Nat}
    (hb : b ∈ (commitSet s).take n) :
    (committedStore s n).block (phys b) = encWith s b (chainIn s (committedStore s n) b) (commitPlain s b) :=
  block_commitAll_mem s s.store hi.storeWf _
    ((commitSet_sorted (hi.session hf) hi.cacheWf).sublist (List.take_sublist n _)) b hb

/-- A block beyond the old end of the store is there because it was committed (R115). -/
theorem mem_take_of_appended {s : State} (hi : Inv s) (hf : s.fsm = .ready) {n b : Nat}
    (h1 : committedBlocks s ≤ b) (h2 : 16 * b < (committedStore s n).len) : b ∈ (commitSet s).take n := by
  have hr := hi.session hf
  obtain ⟨x, hx, hbx⟩ : ∃ x ∈ (commitSet s).take n, b ≤ x := by
    by_contra! hlt
    have hm : s.store.len ≤ 16 * b := by
      have := hr.wholeBlocks
      simp only [committedBlocks, storeLen] at *
      omega
    have := len_commitAll_le s s.store ((commitSet s).take n) (16 * b) hm fun x hx => by
      have := hlt x hx
      simp only [phys]
      omega
    rw [committedStore] at h2
    omega
  refine mem_take_of_le (commitSet_sorted hr hi.cacheWf) hx ?_ hbx
  have hlt := lt_of_mem_commitSet hr x (List.mem_of_mem_take hx)
  exact (mem_commitSet hr b).mpr (.inr ⟨h1, by omega⟩)

/-- In Cbc, below a committed block that is not pending the store keeps its bytes: what a `FLUSH` writes
there is there already (10_state.md R35 I6'). -/
theorem block_committedStore_below {s : State} (hi : Inv s) (hf : s.fsm = .ready) (hcc : ChainConsistent s)
    (hm : s.mode = .cbc) (n : Nat) {b : Nat} (hb : b < committedBlocks s) (hn : s.cache.get b = none) (x : Nat)
    (hx : x < b) : (committedStore s n).block (phys x) = s.store.block (phys x) := by
  induction x using Nat.strongRecOn with
  | ind x ih =>
    by_cases hmem : x ∈ (commitSet s).take n
    · obtain ⟨p, hp⟩ : ∃ p, s.cache.get x = some p := by
        rcases (mem_commitSet (hi.session hf) x).mp (List.mem_of_mem_take hmem) with h | h
        · exact Option.isSome_iff_exists.mp ((Cache.mem_dom _ _).mp h)
        · omega
      have hchain : chainIn s (committedStore s n) x = storedChain s x := by
        unfold storedChain chainIn
        split
        · rfl
        · exact ih (x - 1) (by omega) (by omega)
      rw [block_committedStore_mem hi hf hmem, hchain, encWith_of_cbc hm, hcc hf hm x p hp ⟨b, hx, hb, hn⟩,
        commitPlain, hp, Option.getD_some]
    · exact block_committedStore_other hi hmem

/-- The chaining value of a committed block that is not pending, and of those below it, stays. -/
theorem chainIn_committedStore_below {s : State} (hi : Inv s) (hf : s.fsm = .ready) (hcc : ChainConsistent s)
    (hm : s.mode = .cbc) (n : Nat) {b : Nat} (hb : b < committedBlocks s) (hn : s.cache.get b = none) {x : Nat}
    (hx : x ≤ b) : chainIn s (committedStore s n) x = storedChain s x := by
  unfold storedChain chainIn
  split
  · rfl
  · exact block_committedStore_below hi hf hcc hm n hb hn (x - 1) (by omega)

/-! ### The plaintext in the store -/

/-- The plaintext a `FLUSH` commits is that of the view (R115; 20_memory.md R52). -/
theorem commitPlain_eq_plainOf {s : State} (hr : ReadyInv s) {b : Nat} (hb : b ∈ commitSet s) :
    commitPlain s b = plainOf s b := by
  unfold commitPlain plainOf
  cases hc : s.cache.get b with
  | some p => rfl
  | none =>
    have hd : b ∉ s.cache.dom := (Cache.not_mem_dom _ _).mpr hc
    have hge : ¬ b < committedBlocks s := by
      have := ((mem_commitSet hr b).mp hb).resolve_left hd
      omega
    simp only [hge, if_false, Option.getD_none]

/-- A block of the new store that is committed or not pending decrypts to its plaintext in the view. -/
theorem decWith_committedStore {s : State} (hi : Inv s) (hf : s.fsm = .ready) (hcc : ChainConsistent s)
    {n b : Nat} (hb : 16 * b < (committedStore s n).len)
    (h : b ∈ (commitSet s).take n ∨ s.cache.get b = none) :
    decWith s b (chainIn s (committedStore s n) b) ((committedStore s n).block (phys b)) = plainOf s b := by
  by_cases hmem : b ∈ (commitSet s).take n
  · rw [block_committedStore_mem hi hf hmem, decWith_encWith,
      commitPlain_eq_plainOf (hi.session hf) (List.mem_of_mem_take hmem)]
  · have hn : s.cache.get b = none := h.resolve_left hmem
    have hlt : b < committedBlocks s := by
      by_contra hge
      exact hmem (mem_take_of_appended hi hf (by omega) hb)
    have hplain : plainOf s b = storedPlain s b := by simp only [plainOf, hn, hlt, if_true]
    rw [hplain, storedPlain, block_committedStore_other hi hmem]
    by_cases hm : s.mode = .cbc
    · rw [chainIn_committedStore_below hi hf hcc hm n hlt hn (Nat.le_refl b)]
    · exact decWith_chain_irrelevant hm _ _ _ _

theorem lt_committedBlocks_iff {m : Memory} (h : m.len % 16 = 0) (b : Nat) : b < m.len / 16 ↔ 16 * b < m.len := by
  omega

theorem len_committedStore_mod {s : State} (hr : ReadyInv s) (n : Nat) : (committedStore s n).len % 16 = 0 :=
  len_commitAll_mod _ _ _ hr.wholeBlocks

theorem storeLen_le_committedStore (s : State) (n : Nat) : storeLen s ≤ (committedStore s n).len :=
  len_le_commitAll _ _ _

/-- A block that is neither pending nor in the new store is zero in the view. -/
theorem plainOf_beyond {s : State} (hr : ReadyInv s) {n b : Nat} (hn : s.cache.get b = none)
    (hb : ¬ 16 * b < (committedStore s n).len) : plainOf s b = zeroBlock := by
  have := storeLen_le_committedStore s n
  have hge : ¬ b < committedBlocks s := by
    have := hr.wholeBlocks
    simp only [committedBlocks]
    omega
  simp only [plainOf, hn, hge, if_false]

theorem plainOf_partlyFlushed {s : State} (hi : Inv s) (hf : s.fsm = .ready) (hcc : ChainConsistent s) (n b : Nat) :
    plainOf (partlyFlushed s n) b = plainOf s b := by
  have hr := hi.session hf
  cases hn : s.cache.get b with
  | some p =>
    have hp : (partlyFlushed s n).cache.get b = some p := hn
    simp only [plainOf, hp, hn]
  | none =>
    have hp : (partlyFlushed s n).cache.get b = none := hn
    simp only [plainOf.eq_def (partlyFlushed s n), hp]
    have hiff : b < committedBlocks (partlyFlushed s n) ↔ 16 * b < (committedStore s n).len :=
      lt_committedBlocks_iff (len_committedStore_mod hr n) b
    split
    next hb => exact decWith_committedStore hi hf hcc (hiff.mp hb) (.inr hn)
    next hb => exact (plainOf_beyond hr hn fun h => hb (hiff.mpr h)).symm

theorem plainOf_flushedState {s : State} (hi : Inv s) (hf : s.fsm = .ready) (hcc : ChainConsistent s) (b : Nat) :
    plainOf (flushedState s) b = plainOf s b := by
  have hr := hi.session hf
  have hc : (flushedState s).cache.get b = none := rfl
  have hiff : b < committedBlocks (flushedState s) ↔ 16 * b < (committedStore s (commitSet s).length).len := by
    rw [← flushedState_store]
    exact lt_committedBlocks_iff (by rw [flushedState_store]; exact len_committedStore_mod hr _) b
  have hpend : b ∈ (commitSet s).take (commitSet s).length ∨ s.cache.get b = none := by
    rw [List.take_length, ← Cache.not_mem_dom, mem_commitSet hr]
    tauto
  simp only [plainOf.eq_def (flushedState s), hc]
  split
  next hb =>
    rw [← decWith_committedStore hi hf hcc (hiff.mp hb) hpend, ← flushedState_store]
    rfl
  next hb =>
    refine (plainOf_beyond (n := (commitSet s).length) hr ?_ fun h => hb (hiff.mpr h)).symm
    refine hpend.resolve_left fun hm => hb (hiff.mpr ?_)
    have := lt_of_mem_commitSet hr b (List.mem_of_mem_take hm)
    rw [len_committedStore_length hr]
    omega

end Sys2Proof.Machine
end

section
/-! The invariants I1 to I5 of a session (10_state.md R35) are kept by every step, and keep every store access
inside the store (20_memory.md R40, R41). -/

namespace Sys2Proof.Machine

/-! ### Opening a session -/

theorem sectorBounds_of_operandsOk {mode : Mode} {s : State} (h : operandsOk mode s = true) (hm : mode = .xts) :
    0 < secszValue s ∧ secszValue s % 16 = 0 :=
  (sectorOk_iff s).mp (((operandsOk_iff mode s).mp h).2 hm)

theorem readyInv_openSession {mode : Mode} {lo : Bool} {s : State} (ho : s.storeOpen = true)
    (hops : operandsOk mode s = true) (hlen : lengthOk mode s = true) : ReadyInv (openSession mode lo s) := by
  obtain ⟨h16, hxts⟩ := (lengthOk_iff mode s).mp hlen
  have hsize : mode = .xts → 0 < (openSession mode lo s).ss ∧ (openSession mode lo s).ss % 16 = 0 := by
    intro hm
    have := sectorBounds_of_operandsOk hops hm
    rw [openSession_ss, if_pos hm]
    omega
  have hunit : 0 < growthUnit (openSession mode lo s) := by
    unfold growthUnit
    cases mode
    case xts => exact (hsize rfl).1
    all_goals exact Nat.succ_pos 15
  exact {
    storeIsOpen := ho
    cleanLength := fun _ => rfl
    paddedLength := roundUp_ge _ _ hunit
    logicalLength := fun _ => Nat.le_refl _
    wholeBlocks := h16
    xtsStore := hxts
    lastPending := fun h => absurd h (Nat.lt_irrefl _)
    pendingInside := fun b hb => by simp [Cache.dom] at hb
    sectorSize := hsize }

/-! ### WRITE -/

/-- What a `WRITE` makes pending lies inside the new length: the touched blocks, and in Cbc the committed ones
(42_channel_commands.md R112; 10_state.md R35 I2). -/
theorem lt_len_of_mem_seedSet {s : State} (hr : ReadyInv s) (h0 : 0 < argCount s) {b : Nat}
    (hb : b ∈ seedSet s (blk s.pos) (blk (s.pos + argCount s - 1))) : 16 * b < max s.len (s.pos + argCount s) := by
  obtain ⟨-, hle, -⟩ := (mem_seedSet s _ _ b).mp hb
  have htouched : b ≤ blk (s.pos + argCount s - 1) → 16 * b < max s.len (s.pos + argCount s) := by
    simp only [blk]
    omega
  cases hm : s.mode
  case cbc =>
    have hlog := hr.logicalLength (by simp [hm])
    simp only [seedLast, hm, le_max_iff] at hle
    refine hle.elim htouched fun h => ?_
    simp only [committedBlocks] at h
    omega
  all_goals exact htouched (by simpa only [seedLast, hm] using hle)

theorem readyInv_writtenState {s : State} (hr : ReadyInv s) (hd : s.din.length = argCount s)
    (h0 : 0 < argCount s) : ReadyInv (writtenState s) := by
  have hlast : blk (s.pos + argCount s - 1) ∈ (writtenCache s).dom :=
    (dom_writtenCache hd _).mpr (.inr (.inl ⟨h0, Nat.div_le_div_right (by omega), Nat.le_refl _⟩))
  have hle : s.len ≤ (writtenState s).len := Nat.le_max_left _ _
  exact {
    storeIsOpen := hr.storeIsOpen
    cleanLength := fun hc => by
      have hc' : writtenCache s = [] := hc
      simp [hc', Cache.dom] at hlast
    paddedLength := Nat.le_trans hr.paddedLength (roundUp_mono _ _ _ hle)
    logicalLength := fun hm => Nat.le_trans (hr.logicalLength hm) hle
    wholeBlocks := hr.wholeBlocks
    xtsStore := hr.xtsStore
    lastPending := fun hlt => by
      change (max s.len (s.pos + argCount s) - 1) / 16 ∈ (writtenCache s).dom
      change storeLen s < max s.len (s.pos + argCount s) at hlt
      rcases Nat.le_total (s.pos + argCount s) s.len with h | h
      · rw [Nat.max_eq_left h] at hlt ⊢
        exact (dom_writtenCache hd _).mpr (.inl (hr.lastPending hlt))
      · rw [Nat.max_eq_right h]
        exact hlast
    pendingInside := fun b hb => by
      change 16 * b < max s.len (s.pos + argCount s)
      rcases (dom_writtenCache hd b).mp hb with h | ⟨-, -, h⟩ | h
      · have := hr.pendingInside b h
        omega
      · simp only [blk] at h
        omega
      · exact lt_len_of_mem_seedSet hr h0 h
    sectorSize := hr.sectorSize }

/-! ### FLUSH -/

theorem readyInv_flushedState {s : State} (hr : ReadyInv s) : ReadyInv (flushedState s) where
  storeIsOpen := hr.storeIsOpen
  cleanLength _ := rfl
  paddedLength := roundUp_ge _ _ (growthUnit_pos (s := s) hr)
  logicalLength _ := Nat.le_refl _
  wholeBlocks := len_commitAll_mod _ _ _ hr.wholeBlocks
  xtsStore hm := Nat.le_trans (hr.xtsStore hm) (len_le_commitAll _ _ _)
  lastPending h := absurd h (Nat.lt_irrefl _)
  pendingInside b hb := by simp [flushedState, Cache.dom] at hb
  sectorSize := hr.sectorSize

/-- A `FLUSH` that fails has not committed the last block of the new store (R116). -/
theorem lt_of_mem_strict_take {s : State} (hi : Inv s) (hf : s.fsm = .ready) {n : Nat}
    (hn : n < (commitSet s).length) {b : Nat} (hb : b ∈ (commitSet s).take n) : b + 1 < newPhys s / 16 := by
  have hr := hi.session hf
  have hs := commitSet_sorted hr hi.cacheWf
  rw [← List.take_append_drop n (commitSet s)] at hs
  have hmem : (commitSet s)[n] ∈ (commitSet s).drop n := by
    rw [List.drop_eq_getElem_cons hn]
    exact List.mem_cons_self
  have hlt := (List.pairwise_append.mp hs).2.2 b hb _ hmem
  have := lt_of_mem_commitSet hr _ (List.getElem_mem hn)
  omega

/-- Outside Xts a failed `FLUSH` leaves the store no longer than LEN (10_state.md R35 I2). -/
theorem len_committedStore_le_len {s : State} (hi : Inv s) (hf : s.fsm = .ready) (hm : s.mode ≠ .xts) {n : Nat}
    (hn : n < (commitSet s).length) : (committedStore s n).len ≤ s.len := by
  have hr := hi.session hf
  have hunit : growthUnit s = 16 := by
    unfold growthUnit
    cases h : s.mode
    case xts => exact absurd h hm
    all_goals rfl
  have hlt : newPhys s < s.len + 16 := by
    have := roundUp_lt s.len (growthUnit s) (growthUnit_pos hr)
    rw [newPhys]
    omega
  refine len_commitAll_le _ _ _ _ (hr.logicalLength hm) fun b hb => ?_
  have := lt_of_mem_strict_take hi hf hn hb
  simp only [phys]
  omega

theorem readyInv_partlyFlushed {s : State} (hi : Inv s) (hf : s.fsm = .ready) (hc : s.cache ≠ []) {n : Nat}
    (hn : n < (commitSet s).length) : ReadyInv (partlyFlushed s n) := by
  have hr := hi.session hf
  have hge : storeLen s ≤ storeLen (partlyFlushed s n) := storeLen_le_committedStore s n
  exact {
    storeIsOpen := hr.storeIsOpen
    cleanLength := fun h => absurd h hc
    paddedLength := len_commitAll_le _ _ _ _ hr.paddedLength fun b hb => by
      have := lt_of_mem_strict_take hi hf hn hb
      change phys b + 16 ≤ newPhys s
      simp only [phys]
      omega
    logicalLength := fun hm => len_committedStore_le_len hi hf hm hn
    wholeBlocks := len_committedStore_mod hr n
    xtsStore := fun hm => Nat.le_trans (hr.xtsStore hm) hge
    lastPending := fun hlt => hr.lastPending (Nat.lt_of_le_of_lt hge hlt)
    pendingInside := hr.pendingInside
    sectorSize := hr.sectorSize }

/-! ### The invariant -/

theorem inv_of_sessionChange {s t : State} (hi : Inv s) (h : SessionChange s t) : Inv t := by
  cases h with
  | same hf h =>
    exact ⟨by rw [h.store]; exact hi.storeWf, by rw [h.cache]; exact hi.cacheWf,
      fun ht => h.ready (hi.session (hf ▸ ht))⟩
  | outside hf hw hc => exact ⟨hw, hc, fun ht => absurd ht hf⟩
  | opened hf mode lo ho hops hlen h =>
    exact ⟨by rw [h.store]; exact hi.storeWf, by rw [h.cache]; rfl,
      fun _ => h.ready (readyInv_openSession ho hops hlen)⟩
  | written hs hf hd h0 h =>
    exact ⟨by rw [h.store]; exact hi.storeWf, by rw [h.cache]; exact wf_overlay _ _ _ (wf_seeded _ _ _ hi.cacheWf),
      fun _ => h.ready (readyInv_writtenState (hi.session hs) hd h0)⟩
  | flushed hs hf hc h =>
    exact ⟨by rw [h.store, flushedState_store]; exact wf_committedStore hi _, by rw [h.cache]; rfl,
      fun _ => h.ready (readyInv_flushedState (hi.session hs))⟩
  | partly hs hf hc n hn he h =>
    exact ⟨by rw [h.store]; exact wf_committedStore hi _, by rw [h.cache]; exact hi.cacheWf,
      fun _ => h.ready (readyInv_partlyFlushed hi hs hc hn)⟩

theorem inv_step {s t : State} (hi : Inv s) (h : step s = .next t) : Inv t :=
  inv_of_sessionChange hi (step_sessionChange hi h)

/-- Settles O32: each change a step can make to a session leaves one that meets the invariant. -/
theorem invariantKeptByEveryStep : Obligations.InvariantKeptByEveryStep :=
  fun _ _ hi h => inv_step hi h

/-- Settles O33: after reset there is no session; the store and the cache are empty. -/
theorem invariantsHoldAtReset : Obligations.InvariantsHoldAtReset := by
  have hf : State.reset.fsm ≠ .ready := by decide
  exact ⟨⟨rfl, rfl, fun h => absurd h hf⟩, fun h => absurd h hf, fun h => absurd h hf, fun h => absurd h hf,
    ⟨by decide, fun h => absurd h hf, fun h => absurd h hf⟩, fun h => absurd h hf⟩

/-! ### Store accesses -/

/-- Only a `FLUSH`, or the one a `DISPOSE` starts with, can stop the model with a fault. -/
theorem operation_fault {i : Instr} {s t : State} {f : Fault} (h : operation i s = .error (.fault f) t) :
    acceptingState i = .ready ∧ flushOp s = .error (.fault f) t := by
  obtain ⟨-, he, -⟩ | ⟨-, he, -⟩ | ⟨-, he⟩ | ⟨-, he, -⟩ | ⟨-, he⟩ | ⟨-, w, he, -⟩ | ⟨rfl | rfl, -⟩ :=
    operation_error h
  case inr.inr.inr.inr.inr.inr.inl => exact ⟨rfl, h⟩
  case inr.inr.inr.inr.inr.inr.inr => exact ⟨rfl, disposeOp_error h⟩
  all_goals cases he

/-- A command of a consistent session makes no access outside the store: its commit set is inside the store or
appends to it. -/
theorem exec_ne_fault {i : Instr} {s : State} (hi : Inv s) (f : Fault) : exec i s ≠ .fault f := by
  intro h
  rw [exec_eq] at h
  obtain ⟨hf, u, hop⟩ := runCommand_fault h
  obtain ⟨hacc, hflush⟩ := operation_fault hop
  obtain ⟨-, n, fr, w, -, -, -, he, -⟩ :=
    flushOp_error_inv hi.started.storeWf (hi.started.session (hf.trans hacc)) hflush
  cases he

theorem step_ne_fault {s : State} (hi : Inv s) (f : Fault) : step s ≠ .fault f := fun h =>
  have ⟨_, rest, _, _, hx⟩ := step_fault h
  exec_ne_fault (hi.taken rest) f hx

/-- A property that every step keeps, and from which no step faults, makes every run free of faults. -/
theorem run_ne_fault_of_kept {M : Host.Core} {P : M.State → Prop}
    (hkept : ∀ x y, P x → M.step x = .next y → P y) (hsafe : ∀ x f, P x → M.step x ≠ .fault f) (k : Nat)
    (x : M.State) (hx : P x) (f : M.Fault) : M.run k x ≠ .fault f := by
  induction k generalizing x with
  | zero => intro h; cases h
  | succ k ih =>
    rw [Host.Core.run]
    split
    next y hy => exact ih y (hkept x y hx hy)
    next r hr => exact absurd hr (hsafe x r hx)
    next => intro h; cases h

/-- Settles O34: one step makes no access outside the store, and its next state meets the invariant again. -/
theorem noAccessOutsideTheStore : Obligations.NoAccessOutsideTheStore :=
  fun s k hi f => run_ne_fault_of_kept (M := Sys2Proof.core) (P := Inv) (fun _ _ hx h => inv_step hx h)
    (fun _ r hx => step_ne_fault hx r) k s hi f

end Sys2Proof.Machine
end

section
/-! The plaintext after a `WRITE` (42_channel_commands.md R111 to R113), and the invariants about ciphertext
chains and the plaintext beyond LEN, which every step keeps (10_state.md R35; 20_memory.md R53). -/

namespace Sys2Proof.Machine

/-! ### The plaintext after a `WRITE` -/

theorem get_overlay_below (c : Cache) (p : Nat) (d : List Byte) (b : Nat) (h : b < blk p) :
    (overlay c p d).get b = c.get b := by
  induction d generalizing c p with
  | nil => rfl
  | cons x rest ih =>
    have hb : b < blk (p + 1) := by simp only [blk] at *; omega
    rw [overlay, ih _ _ hb, overlayByte, Cache.get_put, if_neg (Nat.ne_of_lt h)]

/-- A `WRITE` leaves CACHE alone below the first touched block (R111, R112). -/
theorem get_writtenCache_below {s : State} {b : Nat} (h : b < blk s.pos) :
    (writtenCache s).get b = s.cache.get b := by
  rw [writtenCache, get_overlay_below _ _ _ _ h, get_seeded, if_neg fun hm => ?_]
  have := ((mem_seedSet s _ _ b).mp hm).1
  omega

/-- Before the overlay every block that a `WRITE` makes pending holds its plaintext (R111). -/
theorem seeded_get_eq_plainOf {s : State} (hd : s.din.length = argCount s) {b : Nat}
    (hb : b ∈ (writtenCache s).dom) :
    ((seeded s (seedSet s (blk s.pos) (blk (s.pos + argCount s - 1))) s.cache).get b).getD zeroBlock
      = plainOf s b := by
  rw [get_seeded]
  cases hc : s.cache.get b with
  | some p =>
    have hnot : b ∉ seedSet s (blk s.pos) (blk (s.pos + argCount s - 1)) := fun hm => by
      have := ((mem_seedSet s _ _ b).mp hm).2.2
      rw [hc] at this
      cases this
    simp only [hnot, if_false, plainOf, hc, Option.getD_some]
  | none =>
    have hseed : b ∈ seedSet s (blk s.pos) (blk (s.pos + argCount s - 1)) := by
      rcases (dom_writtenCache hd b).mp hb with h | ⟨-, h1, h2⟩ | h
      · exact absurd h ((Cache.not_mem_dom _ _).mpr hc)
      · exact (mem_seedSet s _ _ b).mpr ⟨h1, Nat.le_trans h2 (le_seedLast _ _), hc⟩
      · exact h
    rw [if_pos hseed, Option.getD_some, seedOf_eq_plainOf s b hc]

/-- `WRITE` overlays the plaintext view (20_memory.md R53 (a)). -/
theorem view_writtenState {s : State} (hd : s.din.length = argCount s) (p : Nat) :
    view (writtenState s) p
      = if s.pos ≤ p ∧ p < s.pos + argCount s then s.din.getD (p - s.pos) 0#8 else view s p := by
  have hp : 16 * blk p + off p = p := by simp only [blk, off]; omega
  have hoff : off p < 16 := by simp only [off]; omega
  cases hg : (writtenCache s).get (blk p) with
  | some q =>
    have hmem : blk p ∈ (writtenCache s).dom := (Cache.mem_dom _ _).mpr (by simp [hg])
    have hplain : plainOf (writtenState s) (blk p) = q := by
      have hg' : (writtenState s).cache.get (blk p) = some q := hg
      simp only [plainOf, hg']
    have hbytes := byteAt_overlay (seeded s (seedSet s (blk s.pos) (blk (s.pos + argCount s - 1))) s.cache) s.pos
      s.din (blk p) (off p) hoff
    rw [← writtenCache, hg, Option.getD_some, seeded_get_eq_plainOf hd hmem, hd, hp] at hbytes
    rw [view, hplain, hbytes]
    rfl
  | none =>
    have hnot := (Cache.not_mem_dom _ _).mpr hg
    rw [dom_writtenCache hd, Cache.mem_dom, not_or, not_or] at hnot
    obtain ⟨hold, htouched, -⟩ := hnot
    have hout : ¬ (s.pos ≤ p ∧ p < s.pos + argCount s) := fun h =>
      htouched ⟨by omega, Nat.div_le_div_right h.1, Nat.div_le_div_right (by omega)⟩
    have hplain : plainOf (writtenState s) (blk p) = plainOf s (blk p) := by
      have hg' : (writtenState s).cache.get (blk p) = none := hg
      have hc : s.cache.get (blk p) = none := by simpa using hold
      simp only [plainOf, hg', hc]
      rfl
    rw [if_neg hout, view, view, hplain]

/-! ### I6', the chain below a committed block -/

theorem SameSession.chainConsistent {s t : State} (h : SameSession s t) (hf : t.fsm = .ready → s.fsm = .ready)
    (hcc : ChainConsistent s) : ChainConsistent t := by
  intro ht hm b p
  rw [h.cache, h.committedBlocks, h.store, h.storedChain, h.kd]
  exact hcc (hf ht) (h.mode ▸ hm) b p

/-- A `WRITE` in Cbc makes every committed block from the first touched one on pending (42_channel_commands.md
R112), so a chain that has to hold after it held before. -/
theorem chainConsistent_writtenState {s : State} (hd : s.din.length = argCount s) (hcc : ChainConsistent s) :
    ChainConsistent (writtenState s) := by
  intro hs hm b p hp ⟨b', hlt, hcom, hn⟩
  have hcom' : b' < committedBlocks s := hcom
  have hbelow : b' < blk s.pos := by
    by_contra hge
    refine (Cache.not_mem_dom _ _).mpr hn ((dom_writtenCache hd b').mpr ?_)
    by_cases hc : b' ∈ s.cache.dom
    · exact .inl hc
    · refine .inr (.inr ((mem_seedSet s _ _ b').mpr ⟨by omega, ?_, (Cache.not_mem_dom _ _).mp hc⟩))
      have hm' : s.mode = .cbc := hm
      simp only [seedLast, hm']
      omega
  have hp' : s.cache.get b = some p := by rw [← get_writtenCache_below (Nat.lt_trans hlt hbelow)]; exact hp
  exact hcc hs hm b p hp' ⟨b', hlt, hcom', by rw [← get_writtenCache_below hbelow]; exact hn⟩

/-- A `FLUSH` that fails leaves each pending block below a committed one chained: it has written the block,
or nothing at or below it (42_channel_commands.md R116). -/
theorem chainConsistent_partlyFlushed {s : State} (hi : Inv s) (hf : s.fsm = .ready) (hcc : ChainConsistent s)
    (n : Nat) : ChainConsistent (partlyFlushed s n) := by
  intro _ hm b p hp ⟨b', hlt, hcom, hn⟩
  have hr := hi.session hf
  have hm' : s.mode = .cbc := hm
  have hp' : s.cache.get b = some p := hp
  have hn' : s.cache.get b' = none := hn
  have hmemb : b ∈ commitSet s := (mem_commitSet hr b).mpr (.inl ((Cache.mem_dom _ _).mpr (by simp [hp'])))
  change (committedStore s n).block (phys b) = cbcEnc s.kd (chainIn s (committedStore s n) b) p
  by_cases hmem : b ∈ (commitSet s).take n
  · rw [block_committedStore_mem hi hf hmem, encWith_of_cbc hm', commitPlain, hp', Option.getD_some]
  · have hold : b' < committedBlocks s := by
      by_contra hge
      have hb' : b' ∈ (commitSet s).take n :=
        mem_take_of_appended hi hf (by omega) ((lt_committedBlocks_iff (len_committedStore_mod hr n) b').mp hcom)
      exact hmem (mem_take_of_le (commitSet_sorted hr hi.cacheWf) hb' hmemb (by omega))
    rw [block_committedStore_other hi hmem,
      chainIn_committedStore_below hi hf hcc hm' n hold hn' (Nat.le_of_lt hlt)]
    exact hcc hf hm' b p hp' ⟨b', hlt, hold, hn'⟩

theorem chainConsistent_of_cache_nil {s : State} (hc : s.cache = []) : ChainConsistent s := by
  intro _ _ b p hp
  rw [hc] at hp
  cases hp

/-- Settles O35: of the changes a step can make, those that leave blocks pending keep the chains below committed
blocks, the others leave none pending. -/
theorem chainConsistencyKept : Obligations.ChainConsistencyKept := by
  intro s t hi hcc h
  cases step_sessionChange hi h with
  | same hf h => exact h.chainConsistent (fun ht => hf ▸ ht) hcc
  | outside hf hw hc => exact fun ht => absurd ht hf
  | opened hf mode lo ho hops hlen h => exact chainConsistent_of_cache_nil h.cache
  | written hs hf hd h0 h => exact h.chainConsistent (fun _ => hs) (chainConsistent_writtenState hd hcc)
  | flushed hs hf hc h => exact chainConsistent_of_cache_nil h.cache
  | partly hs hf hc n hn he h => exact h.chainConsistent (fun _ => hs) (chainConsistent_partlyFlushed hi hs hcc n)

/-! ### The plaintext beyond LEN -/

theorem view_congr {s t : State} (h : ∀ b, plainOf t b = plainOf s b) (p : Nat) : view t p = view s p := by
  rw [view, view, h]

theorem SameSession.zeroBeyondLength {s t : State} (h : SameSession s t) (hf : t.fsm = .ready → s.fsm = .ready)
    (hz : ZeroBeyondLength s) : ZeroBeyondLength t := by
  intro ht p hp
  rw [h.view]
  exact hz (hf ht) p (h.len ▸ hp)

/-- A session without pending blocks is zero from the end of the store on (20_memory.md R52). -/
theorem view_beyond_store {s : State} (hc : s.cache = []) (h16 : storeLen s % 16 = 0) {p : Nat}
    (hp : storeLen s ≤ p) : view s p = 0#8 := by
  have hget : s.cache.get (blk p) = none := by rw [hc]; rfl
  have hge : ¬ blk p < committedBlocks s := by
    simp only [blk, committedBlocks]
    omega
  simp only [view, plainOf, hget, hge, if_false, byteAt_zero]

theorem zeroBeyondLength_writtenState {s : State} (hd : s.din.length = argCount s) (hz : ZeroBeyondLength s) :
    ZeroBeyondLength (writtenState s) := by
  intro hs p hp
  have hp' : max s.len (s.pos + argCount s) ≤ p := hp
  rw [view_writtenState hd, if_neg (by omega)]
  exact hz hs p (by omega)

/-- Settles O37: `OPEN` measures whole blocks, `WRITE` changes the view below the new LEN only, and a `FLUSH`,
failed or not, changes no byte of it. -/
theorem zeroBeyondLengthKept : Obligations.ZeroBeyondLengthKept := by
  intro s t hi hcc hz h
  cases step_sessionChange hi h with
  | same hf h => exact h.zeroBeyondLength (fun ht => hf ▸ ht) hz
  | outside hf hw hc => exact fun ht => absurd ht hf
  | opened hf mode lo ho hops hlen h =>
    refine h.zeroBeyondLength (fun _ => rfl) fun _ p hp => view_beyond_store rfl ?_ hp
    exact ((lengthOk_iff mode s).mp hlen).1
  | written hs hf hd h0 h => exact h.zeroBeyondLength (fun _ => hs) (zeroBeyondLength_writtenState hd hz)
  | flushed hs hf hc h =>
    refine h.zeroBeyondLength (fun _ => hs) fun _ p hp => ?_
    rw [view_congr (plainOf_flushedState hi hs hcc)]
    refine hz hs p (Nat.le_trans (len_le_newPhys (hi.session hs)) ?_)
    rw [← len_committed (hi.session hs)]
    exact hp
  | partly hs hf hc n hn he h =>
    refine h.zeroBeyondLength (fun _ => hs) fun _ p hp => ?_
    rw [view_congr (plainOf_partlyFlushed hi hs hcc n)]
    exact hz hs p hp

/-! ### I6 and I2 -/

theorem SameSession.cascadeComplete {s t : State} (h : SameSession s t) (hf : t.fsm = .ready → s.fsm = .ready)
    (hcc : CascadeComplete s) : CascadeComplete t := by
  intro ht hm
  rw [h.cache, h.committedBlocks]
  exact hcc (hf ht) (h.mode ▸ hm)

theorem cascadeComplete_of_cache_nil {s : State} (hc : s.cache = []) : CascadeComplete s := by
  intro _ _ b b' hb
  simp [hc, Cache.dom] at hb

/-- A `WRITE` in Cbc seeds every later committed block (42_channel_commands.md R112). -/
theorem cascadeComplete_writtenState {s : State} (hd : s.din.length = argCount s) (hcc : CascadeComplete s) :
    CascadeComplete (writtenState s) := by
  intro hs hm b b' hb hlt hcom
  have hcom' : b' < committedBlocks s := hcom
  refine (dom_writtenCache hd b').mpr ?_
  by_cases hb' : b' ∈ s.cache.dom
  · exact .inl hb'
  · have hfirst : blk s.pos ≤ b := by
      rcases (dom_writtenCache hd b).mp hb with h | ⟨-, h, -⟩ | h
      · exact absurd (hcc hs hm b b' h hlt hcom') hb'
      · exact h
      · exact ((mem_seedSet s _ _ b).mp h).1
    refine .inr (.inr ((mem_seedSet s _ _ b').mpr ⟨by omega, ?_, (Cache.not_mem_dom _ _).mp hb'⟩))
    have hm' : s.mode = .cbc := hm
    simp only [seedLast, hm']
    omega

theorem cascadeComplete_step {s t : State} (hi : Inv s) (hcc : CascadeComplete s) (h : step s = .next t)
    (hx : t.lastErr ≠ .ioError ∨ t.store = s.store) : CascadeComplete t := by
  cases step_sessionChange hi h with
  | same hf h => exact h.cascadeComplete (fun ht => hf ▸ ht) hcc
  | outside hf hw hc => exact fun ht => absurd ht hf
  | opened hf mode lo ho hops hlen h => exact cascadeComplete_of_cache_nil h.cache
  | written hs hf hd h0 h => exact h.cascadeComplete (fun _ => hs) (cascadeComplete_writtenState hd hcc)
  | flushed hs hf hc h => exact cascadeComplete_of_cache_nil h.cache
  | partly hs hf hc n hn he h =>
    have hstore : t.store = s.store := hx.resolve_left fun hne => hne he
    have hsame : SameSession s t :=
      ⟨h.storeOpen, h.cache, h.len, hstore, h.mode, h.kd, h.kt, h.p0, h.ss, h.sidOrder⟩
    exact hsame.cascadeComplete (fun _ => hs) hcc

theorem SameSession.logicalLength {s t : State} (h : SameSession s t) (hl : Machine.storeLen s ≤ s.len) :
    LogicalLength t := fun _ => by rw [h.storeLen, h.len]; exact hl

theorem logicalLength_step {s t : State} (hi : Inv s) (hl : LogicalLength s) (h : step s = .next t)
    (hx : t.lastErr ≠ .ioError ∨ t.store.len ≤ s.len) : LogicalLength t := by
  cases step_sessionChange hi h with
  | same hf h => exact fun ht => h.logicalLength (hl (hf ▸ ht)) ht
  | outside hf hw hc => exact fun ht => absurd ht hf
  | opened hf mode lo ho hops hlen h => exact h.logicalLength (Nat.le_refl _)
  | written hs hf hd h0 h => exact h.logicalLength (Nat.le_trans (hl hs) (Nat.le_max_left _ _))
  | flushed hs hf hc h => exact h.logicalLength (Nat.le_refl _)
  | partly hs hf hc n hn he h =>
    intro _
    rw [h.len]
    exact hx.resolve_left fun hne => hne he

end Sys2Proof.Machine
end

section
/-! I7: POS and LEN of a session stay stream positions, and the store as short (10_state.md R35; log 12). -/

namespace Sys2Proof.Machine

theorem positionsInRange_of {s t : State} (hb : t.posBits = s.posBits) (hs : storeLen t < posLimit s)
    (hp : t.fsm = .ready → t.pos < posLimit s ∧ t.len < posLimit s) : PositionsInRange t := by
  have hl : posLimit t = posLimit s := by rw [posLimit, hb]; rfl
  exact ⟨hl ▸ hs, fun hf => hl ▸ (hp hf).1, fun hf => hl ▸ (hp hf).2⟩

/-- A state that differs in none of the registers concerned. -/
theorem PositionsInRange.of_same {s t : State} (h : PositionsInRange s) (hb : t.posBits = s.posBits)
    (hs : storeLen t = storeLen s) (hf : t.fsm = .ready → s.fsm = .ready) (hp : t.pos = s.pos)
    (hl : t.len = s.len) : PositionsInRange t :=
  positionsInRange_of hb (hs ▸ h.store) fun ht => ⟨hp ▸ h.pos (hf ht), hl ▸ h.len (hf ht)⟩

/-- `FLUSH` writes only blocks the store has room for (10_state.md R30; log 12). -/
theorem positionsInRange_flushOp_ok {s t : State} {v : DWord} (hp : PositionsInRange s) (hf : s.fsm = .ready)
    (h : flushOp s = .ok v t) : PositionsInRange t := by
  obtain ⟨-, rfl | ⟨-, m, fr, -, hk, rfl⟩⟩ := (flushOp_state s).1 v t h
  · exact hp
  · exact positionsInRange_of rfl (hk hp.store) fun _ => ⟨hp.pos hf, hk hp.store⟩

theorem positionsInRange_flushOp_error {s t : State} {e : Exc} (hp : PositionsInRange s) (hf : s.fsm = .ready)
    (h : flushOp s = .error e t) : PositionsInRange t := by
  obtain ⟨-, ⟨m, fr, -, rfl, hk⟩, -⟩ := (flushOp_state s).2 e t h
  exact positionsInRange_of rfl (hk hp.store) fun _ => ⟨hp.pos hf, hp.len hf⟩

theorem positionsInRange_of_ok {i : Instr} {s t : State} {v : DWord} (hp : PositionsInRange s)
    (hf : s.fsm = acceptingState i) (h : operation i s = .ok v t) : PositionsInRange t := by
  cases i
  case openEcb lo | openCbc lo | openCtr lo | openXts lo =>
    obtain ⟨-, -, -, -, rfl⟩ := openOp_ok h
    exact positionsInRange_of rfl hp.store fun _ => ⟨Nat.two_pow_pos _, hp.store⟩
  case seekSet | seekCur | seekEnd | setpos =>
    obtain ⟨p, hlt, rfl⟩ := moveTo_ok h
    exact positionsInRange_of rfl hp.store fun _ => ⟨hlt, hp.len hf⟩
  case getpos | getlen =>
    obtain rfl := report_ok h
    exact hp
  case read =>
    obtain ⟨-, -, rfl⟩ | ⟨-, hle, -, fr, -, rfl⟩ := readOp_ok h
    · exact hp
    · exact positionsInRange_of rfl hp.store fun _ => ⟨Nat.lt_of_le_of_lt hle (hp.len hf), hp.len hf⟩
  case write =>
    obtain ⟨-, ⟨-, rfl⟩ | ⟨-, hlt, fr, -, rfl⟩⟩ := writeOp_ok h
    · exact hp
    · exact positionsInRange_of rfl hp.store fun _ => ⟨hlt, Nat.max_lt.mpr ⟨hp.len hf, hlt⟩⟩
  case flush => exact positionsInRange_flushOp_ok hp hf h
  case dispose =>
    rw [operation, disposeOp_apply] at h
    split at h
    next v' u hflush =>
      cases h
      have hu := positionsInRange_flushOp_ok hp hf hflush
      exact positionsInRange_of (s := u) (by simp) (by simpa using hu.store) (by simp)
    next => cases h

theorem positionsInRange_of_error {i : Instr} {s t : State} {e : ErrCode} {info : DWord} (hp : PositionsInRange s)
    (hf : s.fsm = acceptingState i) (h : operation i s = .error (.raised e info) t) : PositionsInRange t := by
  by_cases hfl : i = .flush
  · subst hfl
    exact positionsInRange_flushOp_error hp hf h
  by_cases hd : i = .dispose
  · subst hd
    exact positionsInRange_flushOp_error hp hf (disposeOp_error h)
  cases ho : opens i with
  | true =>
    obtain ⟨-, -, rfl⟩ := operation_error_of_opens ho h
    exact positionsInRange_of rfl hp.store fun ht => by cases ht
  | false =>
    rw [operation_error_withFates h ho hfl hd]
    exact hp.of_same rfl rfl id rfl rfl

theorem positionsInRange_exec {i : Instr} {s t : State} (hp : PositionsInRange s) (h : exec i s = .next t) :
    PositionsInRange t := by
  have hstart : PositionsInRange s.started := hp.of_same rfl rfl id rfl rfl
  obtain ⟨-, rfl⟩ | ⟨-, -, rfl⟩ | ⟨-, hf, v, u, hop, rfl⟩ | ⟨-, hf, e, info, u, hop, rfl⟩ := exec_next.mp h
  · exact hp.of_same rfl rfl id rfl rfl
  · exact hp.of_same rfl rfl id rfl rfl
  · exact (positionsInRange_of_ok hstart hf hop).of_same rfl rfl id rfl rfl
  · exact (positionsInRange_of_error hstart hf hop).of_same rfl rfl id rfl rfl

theorem positionsInRange_hostAct {a : HostAction} {s t : State} (hp : PositionsInRange s)
    (h : hostAct a s = .next t) : PositionsInRange t := by
  obtain ⟨kl, k, p, ss, g, d, rfl⟩ | ⟨o, n, rfl⟩ | rfl | ⟨b, -, rfl⟩ | ⟨bytes, hf, hlt, rfl⟩ | ⟨fr, e, rfl⟩ :=
    hostAct_next h
  · exact hp.of_same rfl rfl id rfl rfl
  · exact hp.of_same rfl rfl id rfl rfl
  · exact positionsInRange_of rfl hp.store fun ht => by cases ht
  · exact hp.of_same rfl rfl id rfl rfl
  · exact positionsInRange_of rfl hlt fun ht => absurd ht hf
  · exact hp.of_same rfl rfl id rfl rfl

theorem positionsInRange_step {s t : State} (hp : PositionsInRange s) (h : step s = .next t) :
    PositionsInRange t := by
  have htaken (rest : List HostAction) : PositionsInRange (s.taken rest) := hp.of_same rfl rfl id rfl rfl
  obtain ⟨-, rfl⟩ | ⟨a, rest, -, ⟨i, hx⟩ | rfl | ⟨-, hx⟩⟩ := step_next h
  · exact hp
  · exact positionsInRange_exec (htaken rest) hx
  · exact (htaken rest).of_same rfl rfl id rfl rfl
  · exact positionsInRange_hostAct (htaken rest) hx

/-- Settles O38: each command that moves POS or LEN checks the range or copies a length in it, and the store takes
no block it has no room for. -/
theorem positionAndLengthStayInRange : Obligations.PositionAndLengthStayInRange := by
  intro s t hp h
  have ht := positionsInRange_step hp h
  exact ⟨ht, fun hf => ⟨ht.pos hf, ht.len hf⟩⟩

end Sys2Proof.Machine
end

section
/-! `FLUSH` (42_channel_commands.md R114 to R117): its three ends, and what the store holds after each. -/

namespace Sys2Proof.Machine

/-! ### The operation from the state it starts in -/

/-- A `FLUSH` does not look at DOUT. -/
theorem commitOne_started (s : State) : commitOne s.started = commitOne s := rfl

theorem commitSet_started (s : State) : commitSet s.started = commitSet s := rfl

theorem commitAll_started (s : State) (m : Memory) (l) : commitAll s.started m l = commitAll s m l := by
  rw [commitAll, commitOne_started, commitAll]

theorem flushedState_started (s : State) : flushedState s.started = (flushedState s).started := by
  unfold flushedState
  rw [commitSet_started, commitAll_started]
  rfl

theorem partlyFlushed_started (s : State) (n) : partlyFlushed s.started n = (partlyFlushed s n).started := by
  unfold partlyFlushed
  rw [commitSet_started, commitAll_started]
  rfl

theorem withFates_started (s : State) (fr : List Fate) : s.started.withFates fr = (s.withFates fr).started := rfl

theorem flushOp_started_ok {s u : State} {v : DWord} (hi : Inv s) (h : flushOp s.started = .ok v u) :
    v = 0#64 ∧ ((s.cache = [] ∧ u = s.started)
      ∨ (s.cache ≠ [] ∧ ∃ fr, fr <:+ s.fates ∧ u = ((flushedState s).withFates fr).started)) := by
  obtain ⟨hv, ⟨hc, hu⟩ | ⟨hc, fr, hfr, hu⟩⟩ := flushOp_ok hi.started.storeWf h
  · exact ⟨hv, .inl ⟨hc, hu⟩⟩
  · have hu' : u = (flushedState s.started).withFates fr := hu
    rw [flushedState_started, withFates_started] at hu'
    exact ⟨hv, .inr ⟨hc, fr, hfr, hu'⟩⟩

theorem flushOp_started_error {s u : State} {e : ErrCode} {info : DWord} (hi : Inv s) (hf : s.fsm = .ready)
    (h : flushOp s.started = .error (.raised e info) u) :
    s.cache ≠ [] ∧ e = .ioError ∧ ∃ n fr, n < (commitSet s).length ∧ fr <:+ s.fates
      ∧ (Fate.fails info ∈ s.fates ∨ (info = s.fullError ∧ posLimit s ≤ newPhys s))
      ∧ u = ((partlyFlushed s n).withFates fr).started := by
  obtain ⟨hc, n, fr, w, hn, hu, hfr, he, hw⟩ :=
    flushOp_error_inv hi.started.storeWf (hi.started.session hf) h
  have hu' : u = (partlyFlushed s.started n).withFates fr := hu
  rw [partlyFlushed_started, withFates_started] at hu'
  cases he
  exact ⟨hc, rfl, n, fr, hn, hfr, hw, hu'⟩

/-! ### The three ends of the command -/

/-- `FLUSH` of a consistent session: nothing was pending; everything is committed; or a start of the commit set
is committed and the store's error is reported (R114, R116, R117). -/
theorem exec_flush_next {s t : State} (hi : Inv s) (hf : s.fsm = .ready) (h : exec .flush s = .next t) :
    (s.cache = [] ∧ t = complete 0#64 s.started)
    ∨ (s.cache ≠ [] ∧ ∃ fr, fr <:+ s.fates ∧ t = complete 0#64 ((flushedState s).withFates fr).started)
    ∨ (s.cache ≠ [] ∧ ∃ n fr w, n < (commitSet s).length ∧ fr <:+ s.fates
        ∧ (Fate.fails w ∈ s.fates ∨ (w = s.fullError ∧ posLimit s ≤ newPhys s))
        ∧ t = raise .ioError w ((partlyFlushed s n).withFates fr).started) := by
  rw [exec_accepted rfl hf, finish_next] at h
  obtain ⟨v, u, hop, rfl⟩ | ⟨e, info, u, hop, rfl⟩ := h
  · obtain ⟨rfl, ⟨hc, rfl⟩ | ⟨hc, fr, hfr, rfl⟩⟩ := flushOp_started_ok hi hop
    · exact .inl ⟨hc, rfl⟩
    · exact .inr (.inl ⟨hc, fr, hfr, rfl⟩)
  · obtain ⟨hc, rfl, n, fr, hn, hfr, hw, rfl⟩ := flushOp_started_error hi hf hop
    exact .inr (.inr ⟨hc, n, fr, info, hn, hfr, hw, rfl⟩)

theorem sameSession_started (v : DWord) (s : State) : SameSession s (complete v s.started) := by
  constructor <;> rfl

theorem sameSession_completed (v : DWord) (fr : List Fate) (s : State) :
    SameSession s (complete v (s.withFates fr).started) := by
  constructor <;> rfl

theorem sameSession_raised (e : ErrCode) (info : DWord) (fr : List Fate) (s : State) :
    SameSession s (raise e info (s.withFates fr).started) := by
  constructor <;> rfl

@[simp] theorem flushedState_fsm (s : State) : (flushedState s).fsm = s.fsm := rfl

theorem fsm_completed (v : DWord) (fr : List Fate) (s : State) : (complete v (s.withFates fr).started).fsm = s.fsm :=
  rfl

/-- `FLUSH` when it succeeds leaves a session without pending blocks (R114, R117). -/
theorem exec_flush_ok {s t : State} (hi : Inv s) (hf : s.fsm = .ready) (h : exec .flush s = .next t)
    (hok : t.lastErr = .ok) : t.fsm = .ready ∧ t.cache = []
      ∧ ((s.cache = [] ∧ SameSession s t) ∨ (s.cache ≠ [] ∧ SameSession (flushedState s) t)) := by
  obtain ⟨hc, rfl⟩ | ⟨hc, fr, -, rfl⟩ | ⟨-, n, fr, w, -, -, -, rfl⟩ := exec_flush_next hi hf h
  · have hsame := sameSession_started 0#64 s
    exact ⟨hf, hsame.cache.trans hc, .inl ⟨hc, hsame⟩⟩
  · have hsame := sameSession_completed 0#64 fr (flushedState s)
    exact ⟨by rw [fsm_completed, flushedState_fsm, hf], hsame.cache, .inr ⟨hc, hsame⟩⟩
  · cases hok

@[simp] theorem partlyFlushed_fsm (s : State) (n : Nat) : (partlyFlushed s n).fsm = s.fsm := rfl

theorem fsm_raised (e : ErrCode) (w : DWord) (fr : List Fate) (s : State) :
    (raise e w (s.withFates fr).started).fsm = s.fsm := rfl

/-- `FLUSH` when it fails leaves the session with a start of the commit set committed (R116). -/
theorem exec_flush_failed {s t : State} (hi : Inv s) (hf : s.fsm = .ready) (h : exec .flush s = .next t)
    (hne : t.lastErr ≠ .ok) : t.fsm = .ready ∧ s.cache ≠ []
      ∧ ∃ n, n < (commitSet s).length ∧ SameSession (partlyFlushed s n) t := by
  obtain ⟨-, rfl⟩ | ⟨-, fr, -, rfl⟩ | ⟨hc, n, fr, w, hn, -, -, rfl⟩ := exec_flush_next hi hf h
  · exact absurd rfl hne
  · exact absurd rfl hne
  · exact ⟨by rw [fsm_raised, partlyFlushed_fsm, hf], hc, n, hn, sameSession_raised _ _ _ _⟩

/-- `FLUSH` of pending blocks over a working store with room (R114). -/
theorem exec_flush_works {s : State} (hi : Inv s) (hf : s.fsm = .ready) (hc : s.cache ≠ []) (hw : StoreWorks s)
    (hn : newPhys s < posLimit s) :
    ∃ fr, fr <:+ s.fates ∧ exec .flush s = .next (complete 0#64 ((flushedState s).withFates fr).started) := by
  obtain ⟨u, hop⟩ := flushOp_succeeds hi.started.storeWf (hi.started.session hf) hw hn
  obtain ⟨-, ⟨hc', -⟩ | ⟨-, fr, hfr, rfl⟩⟩ := flushOp_started_ok hi hop
  · exact absurd hc' hc
  · refine ⟨fr, hfr, ?_⟩
    rw [exec_accepted rfl hf, operation, hop]
    rfl

/-! ### The commit set and the store -/

/-- Settles O23: the commit set is rising because CACHE is and PB comes before the appended blocks. -/
theorem commitSetIsPendingAndNewBlocks : Obligations.CommitSetIsPendingAndNewBlocks :=
  fun _ hi hf => ⟨commitSet_sorted (hi.session hf) hi.cacheWf, mem_commitSet (hi.session hf)⟩

/-- For a block of the new store, to be in the commit set is to be pending or beyond the old end (R115). -/
theorem mem_commitSet_iff_of_lt {s : State} (hr : ReadyInv s) {b : Nat} (hb : 16 * b < newPhys s) :
    b ∈ commitSet s ↔ b ∈ s.cache.dom ∨ s.store.len ≤ 16 * b := by
  have h16 : s.store.len % 16 = 0 := hr.wholeBlocks
  have hmod := newPhys_mod hr
  rw [mem_commitSet hr, committedBlocks, storeLen]
  refine or_congr_right ?_
  omega

theorem flushedState_eq {s : State} (hr : ReadyInv s) :
    flushedState s = { s with store := committedStore s (commitSet s).length, cache := [], len := newPhys s } := by
  rw [← len_committedStore_length hr, committedStore_length]
  rfl

/-- Settles O21: the new store is the commit of the whole commit set, whose blocks hold their encryption chained in
that store, and whose other blocks are the old ones. -/
theorem flushCommitsTheStream : Obligations.FlushCommitsTheStream := by
  intro s hi hf hc hw hn
  have hr := hi.session hf
  obtain ⟨fr, hfr, hx⟩ := exec_flush_works hi hf hc hw hn
  refine ⟨committedStore s (commitSet s).length, fr, hfr, ?_, wf_committedStore hi _,
    len_committedStore_length hr, fun b hb => ?_⟩
  · rw [hx, flushedState_eq hr]
    rfl
  · have hmem : b ∈ (commitSet s).take (commitSet s).length ↔ b ∈ s.cache.dom ∨ s.store.len ≤ 16 * b := by
      rw [List.take_length]
      exact mem_commitSet_iff_of_lt hr hb
    rw [← if_congr hmem rfl rfl]
    split
    next h => exact block_committedStore_mem hi hf h
    next h => exact block_committedStore_other hi h

theorem raise_withStore (w : DWord) (s : State) (m : Memory) (fr : List Fate) :
    raise .ioError w (s.withStore m fr).started
      = { s with store := m, fates := fr, lastErr := .ioError, result := w, din := [], dout := [] } := rfl

theorem partlyFlushed_withFates (s : State) (n : Nat) (fr : List Fate) :
    (partlyFlushed s n).withFates fr = s.withStore (committedStore s n) fr := rfl

/-- Settles O24: of the three ends only the failed one records a fault; its store is a strict start of the commit. -/
theorem failedFlushCommitsAPrefix : Obligations.FailedFlushCommitsAPrefix := by
  intro s t hi hf h hne
  obtain ⟨-, rfl⟩ | ⟨-, fr, -, rfl⟩ | ⟨-, n, fr, w, hn, hfr, hw, ht⟩ := exec_flush_next hi hf h
  · exact absurd rfl hne
  · exact absurd rfl hne
  rw [partlyFlushed_withFates, raise_withStore] at ht
  have hstore : t.store = committedStore s n := by rw [ht]
  rw [hstore]
  exact ⟨n, fr, w, hn, hfr, hw, ht, fun b hb => block_committedStore_mem hi hf hb,
    fun b hb => block_committedStore_other hi hb⟩

/-! ### The plaintext -/

/-- Settles O25: all three ends leave every block its plaintext in the view. -/
theorem flushPreservesTheView : Obligations.FlushPreservesTheView := by
  intro s t hi hcc hf h p
  obtain ⟨-, rfl⟩ | ⟨-, fr, -, rfl⟩ | ⟨-, n, fr, w, -, -, -, rfl⟩ := exec_flush_next hi hf h
  · exact (sameSession_started _ s).view p
  · exact ((sameSession_completed _ fr (flushedState s)).view p).trans
      (view_congr (plainOf_flushedState hi hf hcc) p)
  · exact ((sameSession_raised _ w fr (partlyFlushed s n)).view p).trans
      (view_congr (plainOf_partlyFlushed hi hf hcc n) p)

theorem readyInv_of_exec_flush_ok {s t : State} (hi : Inv s) (hf : s.fsm = .ready) (h : exec .flush s = .next t)
    (hok : t.lastErr = .ok) : ReadyInv t :=
  (inv_of_sessionChange hi (exec_sessionChange hi h)).session (exec_flush_ok hi hf h hok).1

/-- Settles O27: with nothing pending the view of a block of the store is its decryption, and the `FLUSH` kept the
view. -/
theorem flushedStoreHoldsTheStream : Obligations.FlushedStoreHoldsTheStream := by
  intro s t hi hcc hf h hok
  have hr := readyInv_of_exec_flush_ok hi hf h hok
  obtain ⟨-, hc, hend⟩ := exec_flush_ok hi hf h hok
  refine ⟨hc, hr.cleanLength hc, fun b hb => ?_⟩
  have hplain : plainOf t b = plainOf s b := by
    obtain ⟨-, hsame⟩ | ⟨-, hsame⟩ := hend
    · exact hsame.plainOf b
    · exact (hsame.plainOf b).trans (plainOf_flushedState hi hf hcc b)
  have hget : t.cache.get b = none := by rw [hc]; rfl
  have hlt : b < committedBlocks t := (lt_committedBlocks_iff hr.wholeBlocks b).mpr hb
  rw [← hplain, plainOf, hget]
  simp only [hlt, if_true]
  rfl

/-- Settles O36: the steps one by one; after a successful `FLUSH` nothing is pending, where LEN is the length of the
store. -/
theorem cascadeAndLengthKeptWithoutIoError : Obligations.CascadeAndLengthKeptWithoutIoError := by
  refine ⟨fun s t hi hc h hx => cascadeComplete_step hi hc h hx, fun s t hi hl h hx => logicalLength_step hi hl h hx,
    fun s t hi hf h hok => ?_⟩
  obtain ⟨hft, hc, -⟩ := exec_flush_ok hi hf h hok
  exact ⟨hft, fun _ => Nat.le_of_eq ((readyInv_of_exec_flush_ok hi hf h hok).cleanLength hc).symm⟩

end Sys2Proof.Machine
end

section
/-! A `FLUSH` that failed and is retried (42_channel_commands.md R116). -/

namespace Sys2Proof.Machine

theorem inv_partlyFlushed {s : State} (hi : Inv s) (hf : s.fsm = .ready) (hc : s.cache ≠ []) {n : Nat}
    (hn : n < (commitSet s).length) : Inv (partlyFlushed s n) :=
  ⟨wf_committedStore hi n, hi.cacheWf, fun _ => readyInv_partlyFlushed hi hf hc hn⟩

/-- The retry commits the pending blocks and those not yet appended. -/
theorem mem_commitSet_partlyFlushed {s : State} (hi : Inv s) (hf : s.fsm = .ready) (hc : s.cache ≠ []) {n : Nat}
    (hn : n < (commitSet s).length) (b : Nat) : b ∈ commitSet (partlyFlushed s n) ↔
      b ∈ s.cache.dom ∨ ((committedStore s n).len / 16 ≤ b ∧ b < newPhys s / 16) :=
  mem_commitSet (s := partlyFlushed s n) (readyInv_partlyFlushed hi hf hc hn) b

/-- The chaining value depends on the block below only. -/
theorem chainIn_congr (s : State) {m m' : Memory} {b : Nat}
    (h : ∀ x, x + 1 = b → m.block (phys x) = m'.block (phys x)) : chainIn s m b = chainIn s m' b := by
  unfold chainIn
  split
  next => rfl
  next hb => exact h (b - 1) (by omega)

/-- A block is the same after the retry as after one `FLUSH`: the retry writes it, chained to the same block; or it
was appended by the first `FLUSH`, chained to a block the retry writes again as it is; or neither writes it. -/
theorem block_retried {s : State} (hi : Inv s) (hf : s.fsm = .ready) (hcc : ChainConsistent s) (hc : s.cache ≠ [])
    {n : Nat} (hn : n < (commitSet s).length) (b : Nat) :
    (flushedState (partlyFlushed s n)).store.block (phys b) = (flushedState s).store.block (phys b) := by
  have hr := hi.session hf
  have hi' := inv_partlyFlushed hi hf hc hn
  have hle := storeLen_le_committedStore s n
  have hmem := mem_commitSet_partlyFlushed hi hf hc hn b
  rw [flushedState_store, flushedState_store]
  induction b using Nat.strongRecOn with
  | ind b ih =>
    replace ih : ∀ x, x + 1 = b → _ := fun x hx => ih x (by omega) (mem_commitSet_partlyFlushed hi hf hc hn x)
    by_cases h' : b ∈ commitSet (partlyFlushed s n)
    · have h : b ∈ commitSet s := (mem_commitSet hr b).mpr ((hmem.mp h').imp_right fun h => by
        simp only [committedBlocks]
        omega)
      rw [block_committedStore_mem hi' hf (by rwa [List.take_length]),
        block_committedStore_mem hi hf (by rwa [List.take_length]), ← chainIn_congr _ ih]
      rfl
    · have hold := block_committedStore_other hi' (n := (commitSet (partlyFlushed s n)).length) (b := b)
        (by rwa [List.take_length])
      rw [hold, partlyFlushed_store]
      by_cases h : b ∈ commitSet s
      · obtain ⟨hnot, hlt⟩ : b ∉ s.cache.dom ∧ 16 * b < (committedStore s n).len := by
          rw [hmem, not_or] at h'
          have hlt := lt_of_mem_commitSet hr b h
          exact ⟨h'.1, by omega⟩
        have hge := ((mem_commitSet hr b).mp h).resolve_left hnot
        rw [block_committedStore_mem hi hf (mem_take_of_appended hi hf hge.1 hlt),
          block_committedStore_mem hi hf (by rwa [List.take_length])]
        by_cases hm : s.mode = .cbc
        · rw [← chainIn_congr _ ih]
          refine congrArg (encWith s b · _) (chainIn_congr s fun x hx => ?_)
          exact (block_committedStore_below hi' hf (chainConsistent_partlyFlushed hi hf hcc n) hm _
            ((lt_committedBlocks_iff (len_committedStore_mod hr n) b).mpr hlt)
            ((Cache.not_mem_dom _ _).mp hnot) x (by omega)).symm
        · exact encWith_chain_irrelevant hm _ _ _ _
      · rw [block_committedStore_other hi fun hx => h (List.mem_of_mem_take hx),
          block_committedStore_other hi fun hx => h (List.mem_of_mem_take hx)]

/-- Every byte of a store is a byte of one of its blocks. -/
theorem Memory.ext_of_blocks {m n : Memory} (hm : m.wf = true) (hn : n.wf = true) (hl : m.len = n.len)
    (h : ∀ b, m.block (phys b) = n.block (phys b)) : m = n := by
  have hread (m : Memory) (a : Nat) : cellsRead m.cells a = byteAt (m.block (phys (a / 16))) (a % 16) := by
    rw [Memory.block, byteAt_tabulate _ (by omega), phys, Nat.div_add_mod]
  exact Memory.ext_of_reads m n hm hn hl fun a => by rw [hread m, hread n, h]

theorem store_retried {s : State} (hi : Inv s) (hf : s.fsm = .ready) (hcc : ChainConsistent s) (hc : s.cache ≠ [])
    {n : Nat} (hn : n < (commitSet s).length) :
    (flushedState (partlyFlushed s n)).store = (flushedState s).store := by
  have hi' := inv_partlyFlushed hi hf hc hn
  refine Memory.ext_of_blocks ?_ ?_ ?_ (block_retried hi hf hcc hc hn)
  · exact commitAll_wf _ _ _ hi'.storeWf
  · exact commitAll_wf _ _ _ hi.storeWf
  · exact (len_committed (hi'.session hf)).trans (len_committed (hi.session hf)).symm

theorem SameSession.flushedState_store {s t : State} (h : SameSession s t) :
    (flushedState t).store = (flushedState s).store := by
  have hone : commitOne t = commitOne s := by
    funext m b
    simp only [commitOne, h.encWith, chainIn, h.p0, commitPlain, h.cache]
  have hset : commitSet t = commitSet s := by
    simp only [commitSet, h.committedBlocks, h.newPhys, h.cache]
  simp only [flushedState, commitAll, hone, hset, h.store]

theorem SameSession.inv {s t : State} (h : SameSession s t) (hf : t.fsm = s.fsm) (hi : Inv s) : Inv t :=
  inv_of_sessionChange hi (.same hf h)

/-- A `FLUSH` of pending blocks that succeeds leaves the store of `flushedState`, and its length in LEN. -/
theorem store_of_exec_flush_ok {s t : State} (hi : Inv s) (hf : s.fsm = .ready) (hc : s.cache ≠ [])
    (h : exec .flush s = .next t) (hok : t.lastErr = .ok) :
    t.store = (flushedState s).store ∧ t.len = (flushedState s).store.len := by
  obtain ⟨-, -, ⟨hc', -⟩ | ⟨-, hsame⟩⟩ := exec_flush_ok hi hf h hok
  · exact absurd hc' hc
  · exact ⟨hsame.store, hsame.len⟩

/-- Settles O26: the failed `FLUSH` left a start of the commit set, from which the retry leaves the same store as one
`FLUSH` of the first state, which does not depend on the outcomes. -/
theorem retriedFlushLeavesTheSameStore : Obligations.RetriedFlushLeavesTheSameStore := by
  intro s t u v fr hi hcc hf ht herr hu huok hv hvok
  obtain ⟨hft, hc, n, hn, hpart⟩ := exec_flush_failed hi hf ht (by rw [herr]; decide)
  have hfates : SameSession s { s with fates := fr } := by constructor <;> rfl
  have hit : Inv t := hpart.inv (by rw [partlyFlushed_fsm, hft, hf]) (inv_partlyFlushed hi hf hc hn)
  obtain ⟨hus, hul⟩ := store_of_exec_flush_ok hit hft (by rw [hpart.cache]; exact hc) hu huok
  obtain ⟨hvs, hvl⟩ := store_of_exec_flush_ok (hfates.inv rfl hi) hf hc hv hvok
  rw [hpart.flushedState_store, store_retried hi hf hcc hc hn] at hus hul
  rw [hfates.flushedState_store] at hvs hvl
  exact ⟨hus.trans hvs.symm, hul.trans hvl.symm⟩

end Sys2Proof.Machine
end

section
/-! `DISPOSE` (42_channel_commands.md R118, R119), what `FLUSH` and `DISPOSE` leave alone in the store, and a new
session over the store a session left (R121). -/

namespace Sys2Proof.Machine

/-! ### DISPOSE as a FLUSH and the end of the session -/

theorem endSession_eq (s : State) :
    endSession s = { s with fsm := .disposed, storeOpen := s.storeOpen && s.lo } := by
  unfold endSession storeClose
  cases h : s.lo
  · simp only [Bool.false_eq_true, if_false, Bool.and_false]
  · simp only [if_true, Bool.and_true, h]

theorem exec_flush_eq {s : State} (hf : s.fsm = .ready) : exec .flush s = finish (flushOp s.started) :=
  exec_accepted (i := .flush) rfl hf

theorem exec_dispose_eq {s : State} (hf : s.fsm = .ready) : exec .dispose s = finish (disposeOp s.started) :=
  exec_accepted (i := .dispose) rfl hf

/-- Settles O29: `DISPOSE` runs the operation of `FLUSH`, which succeeds with value 0 or raises `IoError`. -/
theorem disposeFlushesThenCloses : Obligations.DisposeFlushesThenCloses := by
  intro s t hf h
  rw [exec_flush_eq hf] at h
  rw [exec_dispose_eq hf, disposeOp_apply]
  obtain ⟨v, u, hop, rfl⟩ | ⟨e, info, u, hop, rfl⟩ := finish_next.mp h
  · obtain ⟨rfl, -⟩ := (flushOp_state s.started).1 v u hop
    simp only [hop, complete_lastErr, if_true, endSession_eq]
    rfl
  · obtain ⟨-, -, ⟨w, he, -⟩ | ⟨f, he⟩⟩ := (flushOp_state s.started).2 _ u hop
    · cases he
      simp only [hop, raise_lastErr, reduceCtorEq, if_false]
      rfl
    · cases he

/-- A `DISPOSE` that succeeds is a `FLUSH` that succeeds (R118). -/
theorem exec_flush_of_dispose {s t : State} (hf : s.fsm = .ready) (h : exec .dispose s = .next t)
    (hok : t.lastErr = .ok) : ∃ f, exec .flush s = .next f ∧ f.lastErr = .ok
      ∧ t = { f with fsm := .disposed, storeOpen := f.storeOpen && f.lo } := by
  have hnext : ∃ f, exec .flush s = .next f := by
    rw [exec_dispose_eq hf, disposeOp_apply] at h
    rw [exec_flush_eq hf]
    split at h
    next v u hop => exact ⟨complete v u, by rw [hop]; rfl⟩
    next e u hop => rw [hop]; exact ⟨t, h⟩
  obtain ⟨f, hflush⟩ := hnext
  have hd := disposeFlushesThenCloses s f hf hflush
  rw [h, Host.Outcome.next.injEq] at hd
  split at hd
  next hfok => exact ⟨f, hflush, hfok, hd⟩
  next hne => exact absurd (hd ▸ hok) hne

/-- Settles O30: the implicit `FLUSH` finds nothing pending, or succeeds over a working store with room. -/
theorem disposeCompletes : Obligations.DisposeCompletes := by
  intro s hi hf hw hroom
  have hr := hi.session hf
  by_cases hc : s.cache = []
  · refine ⟨s.store, s.fates, storeLen s, List.suffix_refl _, ?_, rfl, (if_pos hc).symm⟩
    rw [disposeFlushesThenCloses s _ hf (flushOfAnEmptyCache s hf hc), ← hr.cleanLength hc, if_pos rfl]
    simp only [hr.storeIsOpen, Bool.true_and, hc]
  · obtain ⟨fr, hfr, hx⟩ := exec_flush_works hi hf hc hw (hroom hc)
    refine ⟨committedStore s (commitSet s).length, fr, newPhys s, hfr, ?_, len_committedStore_length hr,
      (if_neg hc).symm⟩
    rw [disposeFlushesThenCloses s _ hf hx, if_pos (complete_lastErr _ _), flushedState_eq hr]
    simp only [complete, State.started, State.withFates, hr.storeIsOpen, Bool.true_and]

/-! ### What the store keeps -/

theorem byte_commitAll_other (s : State) (m : Memory) (hw : m.wf = true) (l : List Nat) (a : Nat) (ha : a < m.len)
    (h : a / 16 ∉ l) : (commitAll s m l).byte a = m.byte a := by
  induction l generalizing m with
  | nil => rfl
  | cons b rest ih =>
    rw [List.mem_cons, not_or] at h
    have hlen : a < (commitOne s m b).len := Nat.lt_of_lt_of_le ha (Nat.le_max_left _ _)
    have hout : a < phys b ∨ phys b + 16 ≤ a := by
      simp only [phys]
      omega
    rw [commitAll_cons, ih _ (commitOne_wf s m b hw) hlen h.2]
    exact Memory.byte_setBlock_other m hw _ _ a hout ha

theorem committedStore_zero (s : State) : committedStore s 0 = s.store := rfl

/-- A `FLUSH` leaves the store with a start of the commit set committed, however it ends. -/
theorem store_flushOp_started {s : State} (hi : Inv s) (hf : s.fsm = .ready) :
    (∀ v u, flushOp s.started = .ok v u → ∃ n, u.store = committedStore s n)
    ∧ ∀ e info u, flushOp s.started = .error (.raised e info) u → ∃ n, u.store = committedStore s n := by
  refine ⟨fun v u h => ?_, fun e info u h => ?_⟩
  · obtain ⟨-, ⟨-, rfl⟩ | ⟨-, fr, -, rfl⟩⟩ := flushOp_started_ok hi h
    · exact ⟨0, rfl⟩
    · exact ⟨_, flushedState_store s⟩
  · obtain ⟨-, -, n, fr, -, -, -, rfl⟩ := flushOp_started_error hi hf h
    exact ⟨n, rfl⟩

/-- The store after a command of a consistent session: as it was, or with a start of the commit set committed. -/
theorem store_exec_cases {i : Instr} {s t : State} (hi : Inv s) (h : exec i s = .next t) :
    t.store = s.store ∨ ∃ n, t.store = committedStore s n := by
  obtain ⟨-, rfl⟩ | ⟨-, -, rfl⟩ | ⟨-, hf, v, u, hop, rfl⟩ | ⟨-, hf, e, info, u, hop, rfl⟩ := exec_next.mp h
  · exact .inl rfl
  · exact .inl rfl
  · by_cases hfl : i = .flush
    · subst hfl
      exact .inr ((store_flushOp_started hi hf).1 v u hop)
    by_cases hd : i = .dispose
    · subst hd
      rw [operation, disposeOp_apply] at hop
      split at hop
      next v' f hflush =>
        cases hop
        rw [complete_store, endSession_store]
        exact .inr ((store_flushOp_started hi hf).1 v' f hflush)
      next => cases hop
    exact .inl ((operation_store i s.started).1 v u hop hfl hd)
  · by_cases hfl : i = .flush
    · subst hfl
      exact .inr ((store_flushOp_started hi hf).2 e info u hop)
    by_cases hd : i = .dispose
    · subst hd
      exact .inr ((store_flushOp_started hi hf).2 e info u (disposeOp_error hop))
    exact .inl (((operation_store i s.started).2 _ u hop).2 hfl hd)

/-- Only `FLUSH` and `DISPOSE` change the store, from whatever state (20_memory.md R41). -/
theorem exec_store_eq {i : Instr} {s t : State} (h : exec i s = .next t) (hfl : i ≠ .flush) (hd : i ≠ .dispose) :
    t.store = s.store := by
  obtain ⟨-, rfl⟩ | ⟨-, -, rfl⟩ | ⟨-, -, v, u, hop, rfl⟩ | ⟨-, -, e, info, u, hop, rfl⟩ := exec_next.mp h
  · rfl
  · rfl
  · exact (operation_store i s.started).1 v u hop hfl hd
  · exact ((operation_store i s.started).2 _ u hop).2 hfl hd

/-- Settles O28: a start of the commit set writes no byte outside the blocks of the set. -/
theorem storeChangesOnlyInTheCommitSet : Obligations.StoreChangesOnlyInTheCommitSet := by
  refine fun i s t h => ⟨exec_store_eq h, fun hi a ha hout => ?_⟩
  obtain hst | ⟨n, hst⟩ := store_exec_cases hi h
  · rw [hst]
  · rw [hst]
    exact byte_commitAll_other s s.store hi.storeWf _ a ha fun hm => hout (List.mem_of_mem_take hm)

/-! ### A new session over the same store -/

/-- A successful `OPEN` (R92). -/
theorem exec_open_ok {mode : Mode} {lo : Bool} {s t : State} (h : exec (mode.openCommand lo) s = .next t)
    (hok : t.lastErr = .ok) : t = complete 0#64 (openSession mode lo s.started) := by
  rw [exec_openCommand] at h
  obtain ⟨-, rfl⟩ | ⟨-, -, rfl⟩ | ⟨-, -, v, u, hop, rfl⟩ | ⟨-, -, e, info, u, hop, rfl⟩ := runCommand_next.mp h
  · cases hok
  · cases hok
  · obtain ⟨-, -, -, rfl, rfl⟩ := openOp_ok hop
    rfl
  · rw [openOp_apply] at hop
    split at hop
    · split at hop
      · split at hop
        · cases hop
        · cases hop; cases hok
      · cases hop
    · cases hop; cases hok

/-- Decryption looks at KT, SS and SID_ORDER in Xts only (41_mode_engines.md R71, R86). -/
theorem decWith_congr {s t : State} (hm : t.mode = s.mode) (hkd : t.kd = s.kd) (hp0 : t.p0 = s.p0)
    (hx : s.mode = .xts → t.kt = s.kt ∧ t.ss = s.ss ∧ t.sidOrder = s.sidOrder) : decWith t = decWith s := by
  funext b chain c
  unfold decWith
  rw [hm, hkd, hp0]
  cases hmode : s.mode
  case xts =>
    obtain ⟨hkt, hss, hsid⟩ := hx hmode
    rw [hkt, hss, hsid]
  all_goals rfl

theorem plainOf_congr {s t : State} (hc : t.cache = s.cache) (hs : t.store = s.store) (hp0 : t.p0 = s.p0)
    (hdec : decWith t = decWith s) (b : Nat) : plainOf t b = plainOf s b := by
  simp only [plainOf, committedBlocks, storeLen, storedPlain, storedChain, chainIn, hdec, hc, hs, hp0]
  rfl

/-- What a `FLUSH` that succeeds keeps of the session registers (R97, R114). -/
theorem registers_of_exec_flush_ok {s t : State} (hi : Inv s) (hf : s.fsm = .ready) (h : exec .flush s = .next t)
    (hok : t.lastErr = .ok) : t.mode = s.mode ∧ t.kd = s.kd ∧ t.p0 = s.p0 ∧ t.kt = s.kt ∧ t.ss = s.ss
      ∧ t.sidOrder = s.sidOrder := by
  obtain ⟨-, -, ⟨-, hsame⟩ | ⟨-, hsame⟩⟩ := exec_flush_ok hi hf h hok
  all_goals exact ⟨hsame.mode, hsame.kd, hsame.p0, hsame.kt, hsame.ss, hsame.sidOrder⟩

/-- Settles O31: the `FLUSH` of the `DISPOSE` kept the view and left nothing pending, so that the view is that of the
store, which the new session decrypts with the same registers. -/
theorem streamPersistsAcrossSessions : Obligations.StreamPersistsAcrossSessions := by
  intro s t u v lo hi hcc hf hd hok hstore hopen hvok hkd hp0 hx
  obtain ⟨f, hflush, hfok, rfl⟩ := exec_flush_of_dispose hf hd hok
  obtain ⟨hfm, hfkd, hfp0, hfkt, hfss, hfsid⟩ := registers_of_exec_flush_ok hi hf hflush hfok
  obtain ⟨-, hfc, -⟩ := exec_flush_ok hi hf hflush hfok
  have hfr := readyInv_of_exec_flush_ok hi hf hflush hfok
  have hv := exec_open_ok hopen hvok
  have hvstore : v.store = f.store := by rw [hv]; exact hstore
  have hvcache : v.cache = f.cache := by rw [hv, hfc]; rfl
  have hvmode : v.mode = f.mode := by rw [hv, hfm]; rfl
  have hvlen : v.len = storeLen f := by
    rw [hv]
    exact congrArg Memory.len hstore
  refine ⟨hvlen.trans (hfr.cleanLength hfc).symm, fun p => ?_⟩
  rw [← flushPreservesTheView s f hi hcc hf hflush p]
  refine view_congr (plainOf_congr hvcache hvstore (hp0.trans hfp0.symm) (decWith_congr hvmode (hkd.trans hfkd.symm)
    (hp0.trans hfp0.symm) fun hm => ?_)) p
  obtain ⟨hkt, hss, hsid⟩ := hx (hfm ▸ hm)
  exact ⟨hkt.trans hfkt.symm, hss.trans hfss.symm, hsid.trans hfsid.symm⟩

end Sys2Proof.Machine
end

section
/-! How a changed plaintext spreads through a Cbc store (41_mode_engines.md R90; 42_channel_commands.md R122). -/

namespace Sys2Proof.Machine

/-- The session with other pending blocks. -/
def State.withCache (s : State) (c : Cache) : State := { s with cache := c }

/-- The commit set depends on which blocks are pending, not on what they hold (R115). -/
theorem commitSet_withCache {s : State} {c : Cache} (hd : c.dom = s.cache.dom) :
    commitSet (s.withCache c) = commitSet s := by
  have h : commitSet (s.withCache c) = c.dom.filter (fun b => decide (b < committedBlocks s))
      ++ List.range' (committedBlocks s) (newPhys s / 16 - committedBlocks s)
      ++ c.dom.filter (fun b => decide (committedBlocks s ≤ b ∧ newPhys s / 16 ≤ b)) := rfl
  rw [h, hd]
  rfl

/-- A block of the commit set after a `FLUSH`. -/
theorem block_flushed_mem {s : State} (hi : Inv s) (hf : s.fsm = .ready) {b : Nat} (hb : b ∈ commitSet s) :
    (flushedState s).store.block (phys b)
      = encWith s b (chainIn s (flushedState s).store b) (commitPlain s b) := by
  rw [flushedState_store]
  exact block_committedStore_mem hi hf (by rwa [List.take_length])

/-- A block outside the commit set after a `FLUSH`. -/
theorem block_flushed_other {s : State} (hi : Inv s) {b : Nat} (hb : b ∉ commitSet s) :
    (flushedState s).store.block (phys b) = s.store.block (phys b) := by
  rw [flushedState_store]
  exact block_committedStore_other hi (by rwa [List.take_length])

/-- A block of the commit set after a `FLUSH` of other pending blocks with the same indices. -/
theorem block_flushed_withCache_mem {s : State} {c : Cache} (hi : Inv (s.withCache c)) (hf : s.fsm = .ready)
    (hd : c.dom = s.cache.dom) {b : Nat} (hb : b ∈ commitSet s) :
    (flushedState (s.withCache c)).store.block (phys b)
      = encWith s b (chainIn s (flushedState (s.withCache c)).store b) ((c.get b).getD zeroBlock) :=
  block_flushed_mem hi hf (by rwa [commitSet_withCache hd])

/-- A block whose entry differs is pending. -/
theorem mem_dom_of_get_ne {c c' : Cache} (hd : c.dom = c'.dom) {b : Nat} (hne : c.get b ≠ c'.get b) : b ∈ c'.dom := by
  by_contra hn
  have hn' : b ∉ c.dom := by rwa [hd]
  exact hne (((Cache.not_mem_dom _ _).mp hn').trans ((Cache.not_mem_dom _ _).mp hn).symm)

section
variable {s : State} {c : Cache} (hi : Inv s) (hi' : Inv (s.withCache c)) (hf : s.fsm = .ready)
  (hd : c.dom = s.cache.dom)

include hi hi' hf hd

/-- Below the lowest changed block the two stores agree. -/
theorem block_flushed_below_change {b : Nat} (hlow : ∀ x, x < b → c.get x = s.cache.get x) (x : Nat) (hx : x < b) :
    (flushedState (s.withCache c)).store.block (phys x) = (flushedState s).store.block (phys x) := by
  induction x using Nat.strongRecOn with
  | ind x ih =>
    by_cases hm : x ∈ commitSet s
    · have hchain : chainIn s (flushedState (s.withCache c)).store x = chainIn s (flushedState s).store x :=
        chainIn_congr s fun y hy => ih y (by omega) (by omega)
      rw [block_flushed_withCache_mem hi' hf hd hm, block_flushed_mem hi hf hm, hchain, hlow x hx, commitPlain]
    · have hm' : x ∉ commitSet (s.withCache c) := by rwa [commitSet_withCache hd]
      rw [block_flushed_other hi' hm', block_flushed_other hi hm]
      rfl

/-- The lowest changed block differs: its chaining value is the same. -/
theorem block_flushed_at_change {b : Nat} (hlow : ∀ x, x < b → c.get x = s.cache.get x)
    (hne : c.get b ≠ s.cache.get b) :
    (flushedState (s.withCache c)).store.block (phys b) ≠ (flushedState s).store.block (phys b) := by
  have hmem : b ∈ s.cache.dom := mem_dom_of_get_ne hd hne
  have hmem' : b ∈ c.dom := by rwa [hd]
  obtain ⟨p, hp⟩ := Option.isSome_iff_exists.mp ((Cache.mem_dom _ _).mp hmem)
  obtain ⟨p', hp'⟩ := Option.isSome_iff_exists.mp ((Cache.mem_dom _ _).mp hmem')
  have hm : b ∈ commitSet s := (mem_commitSet (hi.session hf) b).mpr (.inl hmem)
  have hchain : chainIn s (flushedState (s.withCache c)).store b = chainIn s (flushedState s).store b :=
    chainIn_congr s fun y hy => block_flushed_below_change hi hi' hf hd hlow y (by omega)
  rw [block_flushed_withCache_mem hi' hf hd hm, block_flushed_mem hi hf hm, hchain, commitPlain, hp, hp']
  intro h
  have : p' = p := encWith_injective s b _ h
  exact hne (by rw [hp, hp', this])

/-- A block above it differs as long as the plaintexts between are the same: its chaining value differs. -/
theorem block_flushed_above_change (hm : s.mode = .cbc) (hcc : CascadeComplete s) {b : Nat}
    (hlow : ∀ x, x < b → c.get x = s.cache.get x) (hne : c.get b ≠ s.cache.get b) (hb : b ∈ s.cache.dom) (x : Nat)
    (hx : 16 * x < newPhys s) (hbx : b ≤ x) (heq : ∀ y, b < y → y ≤ x → c.get y = s.cache.get y) :
    (flushedState (s.withCache c)).store.block (phys x) ≠ (flushedState s).store.block (phys x) := by
  induction x, hbx using Nat.le_induction with
  | base => exact block_flushed_at_change hi hi' hf hd hlow hne
  | succ x hbx ih =>
    have hr := hi.session hf
    have hbelow := ih (by omega) fun y h1 h2 => heq y h1 (by omega)
    have hmem : x + 1 ∈ commitSet s := by
      refine (mem_commitSet hr _).mpr ?_
      by_cases hlt : x + 1 < committedBlocks s
      · exact .inl (hcc hf hm b (x + 1) hb (by omega) hlt)
      · have := newPhys_mod hr
        exact .inr ⟨by omega, by omega⟩
    rw [block_flushed_withCache_mem hi' hf hd hmem, block_flushed_mem hi hf hmem, commitPlain,
      heq (x + 1) (by omega) (Nat.le_refl _), encWith_of_cbc hm, encWith_of_cbc hm]
    exact fun h => hbelow (cbcEnc_chain_injective s.kd _ h)

end

/-- Settles O60: the two `FLUSH`es write the same blocks; from the lowest changed one on, first the plaintext and then
the chaining value differ. -/
theorem cbcChangePropagates : Obligations.CbcChangePropagates := by
  intro s s' t t' b hi hi' hf hm hs' hd hne hlow hcc ht htok ht' htok' x hx
  obtain ⟨c, rfl⟩ : ∃ c, s' = s.withCache c := ⟨s'.cache, hs'⟩
  replace hd : c.dom = s.cache.dom := hd
  have hmem : b ∈ s.cache.dom := mem_dom_of_get_ne hd hne
  have hmem' : b ∈ c.dom := by rwa [hd]
  have hc : s.cache ≠ [] := fun h => by simp [h, Cache.dom] at hmem
  have hc' : c ≠ [] := fun h => by simp [h, Cache.dom] at hmem'
  rw [(store_of_exec_flush_ok hi hf hc ht htok).1, (store_of_exec_flush_ok hi' hf hc' ht' htok').1]
  exact ⟨block_flushed_below_change hi hi' hf hd hlow x,
    fun hbx heq => block_flushed_above_change hi hi' hf hd hm hcc hlow hne hmem x hx hbx heq⟩

end Sys2Proof.Machine
end

section
/-! `READ` and `WRITE` over a working store (42_channel_commands.md R109 to R113), CACHE_CAP (00_scope.md R10), and
the commands that change nothing (R107, R108, R110, R113; 30_encoding.md R183). -/

namespace Sys2Proof.Machine

/-! ### READ -/

/-- `READ` inside LEN over a working store succeeds (R109). -/
theorem readOp_works {s : State} (hw : StoreWorks s) (h0 : 0 < argCount s) (hl : s.pos + argCount s ≤ s.len) :
    ∃ fr, fr <:+ s.fates ∧ readOp s = .ok s.arg
      { s with fates := fr, pos := s.pos + argCount s,
               dout := (List.range (argCount s)).map fun k => view s (s.pos + k) } := by
  cases h : readOp s with
  | ok v t =>
    obtain ⟨h1, -, -⟩ | ⟨-, -, rfl, fr, hfr, rfl⟩ := readOp_ok h
    · omega
    · exact ⟨fr, hfr, rfl⟩
  | error e t =>
    obtain ⟨-, ⟨-, -, -, h1⟩ | ⟨w, -, h1⟩⟩ := readOp_error h
    · omega
    · exact absurd (hw _ h1) (by simp)

/-- Settles O15: the operation delivers the view, which does not read DOUT. -/
theorem readReturnsTheView : Obligations.ReadReturnsTheView := by
  intro s hf hm hw h0 hl
  obtain ⟨fr, hfr, hop⟩ := readOp_works (s := s.started) hw h0 hl
  refine ⟨fr, hfr, ?_⟩
  rw [exec_accepted (i := .read) hm hf, operation, hop]
  rfl

/-! ### The size of the cache -/

theorem Cache.length_put_of_not_mem (c : Cache) (b : Nat) (p : Block) (h : b ∉ c.dom) :
    (c.put b p).length = c.length + 1 := by
  induction c with
  | nil => rfl
  | cons e rest ih =>
    obtain ⟨k, v⟩ := e
    simp only [Cache.dom, List.map_cons, List.mem_cons, not_or] at h
    simp only [Cache.put]
    split
    · rfl
    · rw [if_neg h.1, List.length_cons, ih h.2, List.length_cons]

theorem length_put_of_cacheWfFrom (c : Cache) (lo b : Nat) (p : Block) (hw : cacheWfFrom lo c = true)
    (h : b ∈ c.dom) : (c.put b p).length = c.length := by
  induction c generalizing lo with
  | nil => simp [Cache.dom] at h
  | cons e rest ih =>
    obtain ⟨k, v⟩ := e
    have hge := dom_ge_of_cacheWfFrom _ _ hw
    simp only [cacheWfFrom, Bool.and_eq_true, decide_eq_true_eq] at hw
    have hrest := dom_ge_of_cacheWfFrom rest (k + 1) hw.2
    simp only [Cache.dom, List.map_cons, List.mem_cons] at h hrest
    simp only [Cache.put]
    split
    next hlt =>
      rcases h with rfl | h
      · omega
      · have := hrest b h
        omega
    next =>
      split
      next => rfl
      next hne => rw [List.length_cons, ih (k + 1) hw.2 (h.resolve_left hne), List.length_cons]

/-- Replacing a pending block adds none. -/
theorem Cache.length_put_of_mem (c : Cache) (hw : c.wf = true) (b : Nat) (p : Block) (h : b ∈ c.dom) :
    (c.put b p).length = c.length := length_put_of_cacheWfFrom c 0 b p hw h

/-- Seeding adds one entry for each block that was not pending (R111). -/
theorem length_seeded (s : State) (l : List Nat) (c : Cache) (hl : l.Nodup) (hc : ∀ b ∈ l, b ∉ c.dom) :
    (seeded s l c).length = c.length + l.length := by
  induction l generalizing c with
  | nil => rfl
  | cons b rest ih =>
    rw [List.nodup_cons] at hl
    have hput := Cache.length_put_of_not_mem c b (seedOf s b) (hc b (by simp))
    have hrest : ∀ x ∈ rest, x ∉ (c.put b (seedOf s b)).dom := fun x hx => by
      have hne : x ≠ b := fun e => hl.1 (e ▸ hx)
      rw [Cache.not_mem_dom, Cache.get_put, if_neg hne, ← Cache.not_mem_dom]
      exact hc x (by simp [hx])
    have h := ih (c.put b (seedOf s b)) hl.2 hrest
    exact h.trans (by rw [hput, List.length_cons]; omega)

/-- The overlay adds no entry over blocks that are pending (R111). -/
theorem length_overlay (c : Cache) (p : Nat) (d : List Byte) (hw : c.wf = true)
    (hc : ∀ b, blk p ≤ b → b ≤ blk (p + d.length - 1) → b ∈ c.dom) : (overlay c p d).length = c.length := by
  induction d generalizing c p with
  | nil => rfl
  | cons x rest ih =>
    have hp : blk p ∈ c.dom := hc _ (Nat.le_refl _) (Nat.div_le_div_right (by simp only [List.length_cons]; omega))
    rw [overlay, ih, overlayByte, Cache.length_put_of_mem c hw _ _ hp]
    · exact Cache.wf_put c _ _ hw
    · intro b h1 h2
      rw [overlayByte, Cache.mem_dom, Cache.get_put]
      split
      · rfl
      · refine (Cache.mem_dom c b).mp (hc b ?_ ?_)
        · simp only [blk] at *
          omega
        · simp only [blk, List.length_cons] at *
          omega

/-! ### WRITE -/

/-- The cache of a `WRITE` before the overlay (R111). -/
def seededCache (s : State) : Cache :=
  seeded s (seedSet s (blk s.pos) (blk (s.pos + argCount s - 1))) s.cache

/-- `WRITE` over a working store: only CACHE_CAP can stop it after the range check (R111, 00_scope.md R10). -/
theorem writeOp_works {s : State} (hw : StoreWorks s) (h0 : 0 < argCount s)
    (hl : s.pos + argCount s < posLimit s) : ∃ fr, fr <:+ s.fates ∧ writeOp s =
      if exceeds (seededCache s).length s.cacheCap then .error (.raised .illegalCommand 0#64) (s.withFates fr)
      else .ok 0#64 { s with fates := fr, cache := writtenCache s, len := max s.len (s.pos + argCount s),
                             pos := s.pos + argCount s } := by
  obtain ⟨fr, hseed, hfr⟩ := (reads_seedBlocks (seedSet s (blk s.pos) (blk (s.pos + argCount s - 1))) s.cache
    s).succeeds trivial hw
  refine ⟨fr, hfr, ?_⟩
  unfold writeOp
  rw [cmd_get_bind]
  simp only [Nat.ne_of_gt h0, Nat.not_le.mpr hl, if_false]
  rw [cmd_bind, hseed]
  simp only [cmd_ite, cmd_raiseFault, cmd_modify_bind, cmd_pure]
  rfl

theorem nodup_seedSet (s : State) (b0 b1 : Nat) : (seedSet s b0 b1).Nodup :=
  List.Nodup.filter _ List.nodup_range'

theorem length_seededCache (s : State) : (seededCache s).length
    = s.cache.length + (seedSet s (blk s.pos) (blk (s.pos + argCount s - 1))).length :=
  length_seeded s _ _ (nodup_seedSet _ _ _) fun b hb =>
    (Cache.not_mem_dom _ _).mpr ((mem_seedSet s _ _ b).mp hb).2.2

theorem seedLast_eq (s : State) (b1 : Nat) :
    seedLast s b1 = if s.mode = .cbc then max b1 (s.store.len / 16 - 1) else b1 := by
  unfold seedLast
  cases s.mode <;> rfl

/-- The seed set as the statements write it (R112). -/
theorem seedSet_eq (s : State) (b0 b1 : Nat) : seedSet s b0 b1
    = (List.range' b0 ((if s.mode = .cbc then max b1 (s.store.len / 16 - 1) else b1) + 1 - b0)).filter
        fun b => decide (b ∉ s.cache.dom) := by
  rw [← seedLast_eq, seedSet, indices]
  refine List.filter_congr fun b _ => ?_
  rw [Bool.eq_iff_iff, decide_eq_true_iff, Cache.not_mem_dom, Option.isNone_iff_eq_none]

theorem exceeds_eq_false {n : Nat} {cap : Option Nat} (h : ∀ c, cap = some c → n ≤ c) : exceeds n cap = false := by
  unfold exceeds
  cases cap with
  | none => rfl
  | some c => simpa using h c rfl

/-- A block is pending after a `WRITE` when it was or is seeded (R111, R112). -/
theorem mem_dom_writtenCache {s : State} (hd : s.din.length = argCount s) (b : Nat) :
    b ∈ (writtenCache s).dom ↔ b ∈ s.cache.dom
      ∨ (blk s.pos ≤ b ∧ b ≤ seedLast s (blk (s.pos + argCount s - 1))) := by
  rw [dom_writtenCache hd, mem_seedSet, ← Cache.not_mem_dom]
  have := le_seedLast s (blk (s.pos + argCount s - 1))
  constructor
  · rintro (h | ⟨-, h1, h2⟩ | ⟨h1, h2, -⟩)
    · exact .inl h
    · exact .inr ⟨h1, by omega⟩
    · exact .inr ⟨h1, h2⟩
  · rintro (h | ⟨h1, h2⟩)
    · exact .inl h
    · by_cases h : b ∈ s.cache.dom
      · exact .inl h
      · exact .inr (.inr ⟨h1, h2, h⟩)

/-- Settles O17: the operation leaves the overlaid cache; the capacity does not stop it. -/
theorem writeOverlaysTheView : Obligations.WriteOverlaysTheView := by
  intro s hf hd hm hw h0 hl count first last added hcap
  obtain ⟨fr, hfr, hop⟩ := writeOp_works (s := s.started) hw h0 hl
  have hlen : (seededCache s).length = s.cache.length + added := by
    rw [length_seededCache, seedSet_eq]
    rfl
  have hroom : exceeds (seededCache s.started).length s.started.cacheCap = false :=
    exceeds_eq_false fun cap hc => (Nat.le_of_eq hlen).trans (hcap cap hc)
  refine ⟨writtenCache s, fr, hfr, ?_, fun hwf => wf_overlay _ _ _ (wf_seeded _ _ _ hwf), fun b => ?_,
    view_writtenState hd⟩
  · rw [exec_accepted (i := .write) hm hf, operation, hop, hroom]
    rfl
  · rw [mem_dom_writtenCache hd, seedLast_eq]
    rfl

/-- Seeding leaves every touched block pending (R111). -/
theorem mem_dom_seededCache_of_touched {s : State} {b : Nat} (h1 : blk s.pos ≤ b)
    (h2 : b ≤ blk (s.pos + argCount s - 1)) : b ∈ (seededCache s).dom := by
  rw [Cache.mem_dom, seededCache, get_seeded]
  split
  · rfl
  · next hn =>
    rw [mem_seedSet] at hn
    cases hc : s.cache.get b with
    | some p => rfl
    | none => exact absurd ⟨h1, Nat.le_trans h2 (le_seedLast _ _), hc⟩ hn

theorem length_writtenCache {s : State} (hw : s.cache.wf = true) (hd : s.din.length = argCount s) :
    (writtenCache s).length = (seededCache s).length := by
  refine length_overlay _ _ _ (wf_seeded _ _ _ hw) fun b h1 h2 => mem_dom_seededCache_of_touched h1 ?_
  rwa [hd] at h2

/-- Settles O20: the cache the operation compares with the capacity has an entry more for each block added, and the
overlay adds none. -/
theorem cacheCapacityIsNeverExceeded : Obligations.CacheCapacityIsNeverExceeded := by
  intro s cap hwf hf hm hc hw h0 hl first touched last added
  obtain ⟨fr, hfr, hop⟩ := writeOp_works (s := s.started) hw h0 hl
  have hlen : (seededCache s).length = s.cache.length + added := by
    rw [length_seededCache, seedSet_eq]
    rfl
  have hex : exceeds (seededCache s.started).length s.started.cacheCap = decide (cap < s.cache.length + added) := by
    have : s.started.cacheCap = some cap := hc
    rw [this, ← hlen]
    rfl
  rw [hex] at hop
  refine ⟨fun hlt => ⟨fr, hfr, ?_⟩, fun hle => ?_⟩
  · rw [exec_accepted (i := .write) hm hf, operation, hop, decide_eq_true hlt]
    rfl
  · rw [decide_eq_false (Nat.not_lt.mpr hle)] at hop
    refine ⟨_, by rw [exec_accepted (i := .write) hm hf, operation, hop]; rfl, rfl, ?_⟩
    exact (length_writtenCache hwf (length_din_of_writeMalformed hm)).trans hlen

/-! ### Commands that change nothing -/

/-- Settles O19: the range check of `WRITE` precedes its store accesses. -/
theorem writePastTheLastPosition : Obligations.WritePastTheLastPosition := by
  intro s hf hm h0 hl
  have hop : writeOp s.started = .error (.raised .argumentError 0#64) s.started := by
    simp only [writeOp, cmd_get_bind, if_neg (Nat.ne_of_gt (show 0 < argCount s.started from h0)),
      if_pos (show posLimit s.started ≤ s.started.pos + argCount s.started from hl), cmd_raiseFault]
  rw [exec_accepted (i := .write) hm hf, operation, hop]
  rfl

theorem exceeds_zero (cap : Option Nat) : exceeds 0 cap = false := exceeds_eq_false fun c _ => Nat.zero_le c

theorem argCount_of_arg_zero {s : State} (h : s.arg = 0#64) : argCount s = 0 := by
  rw [argCount, h]
  rfl

/-- Settles O18: with count 0 neither command is malformed, and both operations end at once. -/
theorem emptyTransfersChangeNothing : Obligations.EmptyTransfersChangeNothing := by
  intro i s hi hf ha
  have h0 := argCount_of_arg_zero ha
  have h0' : argCount s.started = 0 := h0
  obtain rfl | ⟨rfl, hd⟩ := hi
  · have hm : malformed .read s = false := by rw [malformed, readMalformed, h0, exceeds_zero]
    have hop : readOp s.started = .ok 0#64 s.started := by
      simp only [readOp, cmd_get_bind, if_pos h0', cmd_pure]
    rw [exec_accepted hm hf, operation, hop]
    rfl
  · have hm : malformed .write s = false := by
      rw [malformed, writeMalformed, h0, exceeds_zero, hd]
      rfl
    have hop : writeOp s.started = .ok 0#64 s.started := by
      simp only [writeOp, cmd_get_bind, if_pos h0', cmd_pure]
    rw [exec_accepted hm hf, operation, hop]
    rfl

theorem exec_malformed {i : Instr} {s : State} (hm : malformed i s = true) : exec i s = .next (illegalCommand s) := by
  rw [exec_eq, runCommand_malformed _ hm]

/-- Settles O10: the payload and capacity checks come before the session state. -/
theorem malformedPayloadIsIllegal : Obligations.MalformedPayloadIsIllegal := by
  refine ⟨fun s hd => exec_malformed ?_, fun i s cap hi hc hlt => exec_malformed ?_⟩
  · rw [malformed, writeMalformed, argCount, decide_eq_true hd, Bool.true_or]
  · have hex : exceeds (argCount s) s.bufCap = true := by
      rw [hc]
      exact decide_eq_true hlt
    obtain rfl | rfl := hi
    · exact hex
    · rw [malformed, writeMalformed, hex, Bool.or_true]

/-- Settles O14: the two operations read one number each. -/
theorem getposAndGetlenReport : Obligations.GetposAndGetlenReport := by
  intro s hf
  constructor
  · rw [exec_accepted (i := .getpos) rfl hf, operation, report_apply]
    rfl
  · rw [exec_accepted (i := .getlen) rfl hf, operation, report_apply]
    rfl

/-- Settles O8: the store's length is asked for when the other checks pass, and only of an open store. -/
theorem openOverAClosedStore : Obligations.OpenOverAClosedStore := by
  intro mode lo s hf ho
  have ho' : ¬ s.started.storeOpen = true := by
    change ¬ s.storeOpen = true
    rw [ho]
    decide
  refine ⟨fun hops => ?_, fun hops => ?_⟩
  · rw [exec_openCommand, runCommand_accepted _ rfl hf, openOp_apply,
      if_pos (show operandsOk mode s.started = true from hops), if_neg ho', finish]
  · have hops' : ¬ operandsOk mode s.started = true := by
      change ¬ operandsOk mode s = true
      rw [hops]
      decide
    rw [exec_openCommand, runCommand_accepted _ rfl hf, openOp_apply, if_neg hops']
    rfl

/-- Settles O6: the fields of the reset state, and STATUS of a state without session or fault. -/
theorem resetStateHasTheSpecValues : Obligations.ResetStateHasTheSpecValues :=
  ⟨rfl, rfl, rfl, rfl, rfl, rfl, statusWord_eq_zero rfl rfl rfl, rfl, rfl, rfl, rfl, rfl, rfl, rfl, rfl, rfl, rfl, rfl,
    rfl, rfl, rfl⟩

end Sys2Proof.Machine
end

section
/-! Session states, session registers and operand registers: what a command or a host action leaves alone
(60_exceptions.md R150; 70_reset_and_hazards.md R156; 10_state.md R15 to R28). -/

namespace Sys2Proof.Machine

/-! ### The operations -/

/-- What an operation other than `OPEN` leaves of the session: its registers, and its state unless it is a
`DISPOSE`. -/
structure KeepsSession (i : Instr) (s t : State) : Prop where
  fsm : t.fsm = if i = .dispose then .disposed else s.fsm
  mode : t.mode = s.mode
  kd : t.kd = s.kd
  kt : t.kt = s.kt
  p0 : t.p0 = s.p0
  ss : t.ss = s.ss
  lo : t.lo = s.lo

theorem keepsSession_flushOp_ok {s t : State} {v : DWord} (h : flushOp s = .ok v t) : KeepsSession .flush s t := by
  obtain ⟨-, rfl | ⟨-, m, fr, -, -, rfl⟩⟩ := (flushOp_state s).1 v t h
  all_goals constructor <;> rfl

theorem keepsSession_of_ok {i : Instr} {s t : State} {v : DWord} (ho : opens i = false)
    (h : operation i s = .ok v t) : KeepsSession i s t := by
  cases i
  case openEcb lo | openCbc lo | openCtr lo | openXts lo => cases ho
  case seekSet | seekCur | seekEnd | setpos =>
    obtain ⟨p, -, rfl⟩ := moveTo_ok h
    constructor <;> rfl
  case getpos | getlen =>
    obtain rfl := report_ok h
    constructor <;> rfl
  case read =>
    obtain ⟨-, -, rfl⟩ | ⟨-, -, -, fr, -, rfl⟩ := readOp_ok h
    all_goals constructor <;> rfl
  case write =>
    obtain ⟨-, ⟨-, rfl⟩ | ⟨-, -, fr, -, rfl⟩⟩ := writeOp_ok h
    all_goals constructor <;> rfl
  case flush => exact keepsSession_flushOp_ok h
  case dispose =>
    rw [operation, disposeOp_apply] at h
    split at h
    next v' u hflush =>
      cases h
      have hu := keepsSession_flushOp_ok hflush
      rw [endSession_eq]
      exact ⟨rfl, hu.mode, hu.kd, hu.kt, hu.p0, hu.ss, hu.lo⟩
    next => cases h

theorem fsm_of_ok_of_opens {i : Instr} {s t : State} {v : DWord} (ho : opens i = true)
    (h : operation i s = .ok v t) : t.fsm = .ready := by
  cases i
  case openEcb lo | openCbc lo | openCtr lo | openXts lo =>
    obtain ⟨-, -, -, -, rfl⟩ := openOp_ok h
    rfl
  all_goals cases ho

theorem acceptingState_of_opens {i : Instr} (h : opens i = true) : acceptingState i = .uninitialized := if_pos h

theorem acceptingState_of_not_opens {i : Instr} (h : opens i = false) : acceptingState i = .ready := by
  rw [acceptingState, h]
  rfl

/-- A `DISPOSE` that fails reports the store's error (42_channel_commands.md R119). -/
theorem disposeOp_error_ioError {s t : State} {e : ErrCode} {info : DWord}
    (h : disposeOp s = .error (.raised e info) t) : e = .ioError := by
  obtain ⟨-, -, ⟨w, he, -⟩ | ⟨f, he⟩⟩ := (flushOp_state s).2 _ t (disposeOp_error h)
  · cases he
    rfl
  · cases he

/-! ### The transition table -/

/-- The session state after a command (60_exceptions.md R150). -/
theorem exec_transition {i : Instr} {s t : State} (h : exec i s = .next t) (hm : malformed i s = false) :
    (s.fsm = .uninitialized → opens i = true →
      (t.fsm = .ready ∧ t.lastErr = .ok) ∨ (t.fsm = .rejected ∧ t.lastErr = .configurationError))
    ∧ (s.fsm = .ready → i = .dispose →
      (t.fsm = .disposed ∧ t.lastErr = .ok) ∨ (t.fsm = .ready ∧ t.lastErr = .ioError))
    ∧ (s.fsm = .ready → opens i = false → i ≠ .dispose → t.fsm = .ready ∧ t.lastErr ≠ .stateError)
    ∧ (s.fsm ≠ acceptingState i → t.fsm = s.fsm ∧ t.lastErr = .stateError) := by
  obtain ⟨hm', -⟩ | ⟨-, hf, rfl⟩ | ⟨-, hf, v, u, hop, rfl⟩ | ⟨-, hf, e, info, u, hop, rfl⟩ := exec_next.mp h
  · rw [hm] at hm'
    cases hm'
  · refine ⟨fun hs ho => ?_, fun hs hd => ?_, fun hs ho _ => ?_, fun _ => ⟨rfl, rfl⟩⟩
    · exact absurd (hs.trans (acceptingState_of_opens ho).symm) hf
    · exact absurd (hs.trans (acceptingState_of_not_opens (by rw [hd]; rfl)).symm) hf
    · exact absurd (hs.trans (acceptingState_of_not_opens ho).symm) hf
  · have hready (ho : opens i = true) : u.fsm = .ready := fsm_of_ok_of_opens ho hop
    refine ⟨fun _ ho => .inl ⟨hready ho, rfl⟩, fun _ hd => .inl ⟨?_, rfl⟩,
      fun hs ho hd => ⟨?_, by simp⟩, fun hn => absurd hf hn⟩
    · exact (keepsSession_of_ok (by rw [hd]; rfl) hop).fsm.trans (if_pos hd)
    · exact ((keepsSession_of_ok ho hop).fsm.trans (if_neg hd)).trans hs
  · have hkept (ho : opens i = false) : u.fsm = s.fsm := ((operation_store i s.started).2 _ u hop).1 ho
    refine ⟨fun _ ho => ?_, fun hs hd => ?_, fun hs ho _ => ⟨(hkept ho).trans hs, ?_⟩, fun hn => absurd hf hn⟩
    · obtain ⟨rfl, -, rfl⟩ := operation_error_of_opens ho hop
      exact .inr ⟨rfl, rfl⟩
    · subst hd
      exact .inr ⟨(hkept rfl).trans hs, disposeOp_error_ioError hop⟩
    · rintro rfl
      exact operation_ne_stateError hop

theorem step_of_decode_error {s : State} {bytes : List Byte} {rest : List HostAction} {e : DecodeError}
    (hi : s.inbox = .write 0#8 bytes :: rest) (hl : bytes.length = 4) (hd : decode bytes = .error e) :
    step s = .next (illegalCommand (s.taken rest)) := by
  simp only [step, hi, commandBytes_of_length hl, hd, State.taken]

/-- Settles O11: the table entry by entry; malformed commands and illegal words end before the session state is
looked at. -/
theorem sessionStateTransitions : Obligations.SessionStateTransitions := by
  refine ⟨fun i s t h hm => exec_transition h hm, fun i s t h hm => ?_, fun s t bytes rest e hi hl hd h => ?_⟩
  · rw [exec_malformed hm] at h
    cases h
    exact ⟨rfl, rfl⟩
  · rw [step_of_decode_error hi hl hd] at h
    cases h
    exact ⟨rfl, rfl⟩

/-! ### Host actions -/

/-- A host action other than reset changes operand registers, the ports, the store and what it will do
(30_encoding.md R176; 70_reset_and_hazards.md R159, R160). -/
theorem hostAct_frame {a : HostAction} {s t : State} (ha : a ≠ .reset) (h : hostAct a s = .next t) :
    t = { s with keylen := t.keylen, key := t.key, param := t.param, secsz := t.secsz, arg := t.arg, din := t.din,
                 dout := t.dout, rdata := t.rdata, store := t.store, storeOpen := t.storeOpen, fates := t.fates,
                 fullError := t.fullError } := by
  cases a with
  | write o bytes =>
    cases h
    obtain ⟨kl, k, p, ss, g, d, hw⟩ := windowWrite_frame o.toNat bytes s
    rw [hw]
  | reset => exact absurd rfl ha
  | read o n => cases h; rfl
  | openStore => cases h; rfl
  | closeStore =>
    simp only [hostAct, outsideSession] at h
    split at h
    · cases h
    · cases h; rfl
  | replaceStore bytes =>
    simp only [hostAct, outsideSession, presentStore] at h
    split at h
    · cases h
    · split at h
      · cases h
      · cases h; rfl
  | settleFates fr => cases h; rfl
  | settleFullError e => cases h; rfl

/-- A step that takes an action: the command, the illegal word or the other action it is. -/
theorem step_next_of_inbox {s t : State} {a : HostAction} {rest : List HostAction} (hi : s.inbox = a :: rest)
    (h : step s = .next t) : (∃ i, exec i (s.taken rest) = .next t) ∨ t = illegalCommand (s.taken rest)
      ∨ hostAct a (s.taken rest) = .next t := by
  obtain ⟨hn, -⟩ | ⟨a', rest', hi', hx⟩ := step_next h
  · rw [hi] at hn
    cases hn
  · rw [hi] at hi'
    cases hi'
    exact hx.imp_right (.imp_right fun ⟨_, h⟩ => h)

/-- No command leaves Rejected or Disposed (60_exceptions.md R150). -/
theorem exec_fsm_of_terminal {i : Instr} {s t : State} (hs : s.fsm = .rejected ∨ s.fsm = .disposed)
    (h : exec i s = .next t) : t.fsm = s.fsm := by
  have hacc : s.fsm ≠ acceptingState i := by
    unfold acceptingState
    rintro hf
    rw [hf] at hs
    split at hs <;> simp at hs
  cases hm : malformed i s with
  | true =>
    rw [exec_malformed hm] at h
    cases h
    rfl
  | false => exact ((exec_transition h hm).2.2.2 hacc).1

/-- Settles O12: no command is accepted there, and no other action but reset touches FSM. -/
theorem onlyResetLeavesTerminalStates : Obligations.OnlyResetLeavesTerminalStates := by
  intro s t a rest hi ha hs h
  obtain ⟨i, hx⟩ | rfl | hx := step_next_of_inbox hi h
  · exact exec_fsm_of_terminal (s := s.taken rest) hs hx
  · rfl
  · rw [hostAct_frame ha hx]
    rfl

/-! ### Registers -/

/-- Settles O40: in Ready no `OPEN` is accepted, and no other operation assigns a session register. -/
theorem sessionRegistersAreConstant : Obligations.SessionRegistersAreConstant := by
  intro s t a rest hi ha hf h
  obtain ⟨i, hx⟩ | rfl | hx := step_next_of_inbox hi h
  · obtain ⟨-, rfl⟩ | ⟨-, -, rfl⟩ | ⟨-, hacc, v, u, hop, rfl⟩ | ⟨-, -, e, info, u, hop, rfl⟩ := exec_next.mp hx
    · exact ⟨rfl, rfl, rfl, rfl, rfl, rfl⟩
    · exact ⟨rfl, rfl, rfl, rfl, rfl, rfl⟩
    · have ho : opens i = false := by
        rw [Bool.eq_false_iff]
        intro ho
        rw [acceptingState_of_opens ho] at hacc
        exact absurd (hf.symm.trans hacc) (by decide)
      have hk := keepsSession_of_ok ho hop
      exact ⟨hk.mode, hk.kd, hk.kt, hk.p0, hk.ss, hk.lo⟩
    · obtain ⟨hu, -⟩ := (operation_state i _).2 _ u hop
      rw [hu]
      exact ⟨rfl, rfl, rfl, rfl, rfl, rfl⟩
  · exact ⟨rfl, rfl, rfl, rfl, rfl, rfl⟩
  · rw [hostAct_frame ha hx]
    exact ⟨rfl, rfl, rfl, rfl, rfl, rfl⟩

/-- What no command changes: operand registers, what is outside the engine, the parameters; DIN is emptied. -/
theorem exec_frame {i : Instr} {s t : State} (h : exec i s = .next t) :
    t = { s with result := t.result, lastErr := t.lastErr, fsm := t.fsm, mode := t.mode, kd := t.kd, kt := t.kt,
                 p0 := t.p0, ss := t.ss, lo := t.lo, pos := t.pos, len := t.len, cache := t.cache, din := [],
                 dout := t.dout, store := t.store, storeOpen := t.storeOpen, fates := t.fates } := by
  obtain ⟨-, rfl⟩ | ⟨-, -, rfl⟩ | ⟨-, -, v, u, hop, rfl⟩ | ⟨-, -, e, info, u, hop, rfl⟩ := exec_next.mp h
  · rfl
  · rfl
  · obtain ⟨hu, -⟩ := (operation_state i _).1 v u hop
    rw [hu]
    rfl
  · obtain ⟨hu, -⟩ := (operation_state i _).2 _ u hop
    rw [hu]
    rfl

/-- The parameters of 00_scope.md R9. -/
structure SameParameters (s t : State) : Prop where
  posBits : t.posBits = s.posBits
  secszBits : t.secszBits = s.secszBits
  keylenBits : t.keylenBits = s.keylenBits
  sidOrder : t.sidOrder = s.sidOrder
  cacheCap : t.cacheCap = s.cacheCap
  bufCap : t.bufCap = s.bufCap

theorem sameParameters_step {s t : State} (h : step s = .next t) : SameParameters s t := by
  obtain ⟨-, rfl⟩ | ⟨a, rest, -, ⟨i, hx⟩ | rfl | ⟨-, hx⟩⟩ := step_next h
  · constructor <;> rfl
  · rw [exec_frame hx]
    constructor <;> rfl
  · constructor <;> rfl
  · by_cases ha : a = .reset
    · subst ha
      cases hx
      constructor <;> rfl
    · rw [hostAct_frame ha hx]
      constructor <;> rfl

/-- Settles O39: the frame of a command, and of the other actions. -/
theorem commandsKeepOperandRegisters : Obligations.CommandsKeepOperandRegisters := by
  refine ⟨fun i s t h => ?_, fun s t h => ?_⟩
  · rw [exec_frame h]
    exact ⟨rfl, rfl, rfl, rfl, rfl, rfl, rfl, rfl, rfl⟩
  · have hp := sameParameters_step h
    exact ⟨hp.posBits, hp.secszBits, hp.keylenBits, hp.sidOrder, hp.cacheCap, hp.bufCap⟩

end Sys2Proof.Machine
end

section
/-! What a command that ends in a fault changes, which faults it can record, and with what value
(60_exceptions.md R136 to R146). -/

namespace Sys2Proof.Machine

/-- A command that records a fault: it was malformed; not accepted; or its operation raised the fault. -/
theorem exec_fault_cases {i : Instr} {s t : State} (h : exec i s = .next t) (hne : t.lastErr ≠ .ok) :
    t = illegalCommand s ∨ t = raise .stateError 0#64 s.started
    ∨ (s.fsm = acceptingState i
      ∧ ∃ e info u, operation i s.started = .error (.raised e info) u ∧ t = raise e info u) := by
  obtain ⟨-, rfl⟩ | ⟨-, -, rfl⟩ | ⟨-, -, v, u, -, rfl⟩ | ⟨-, hf, hx⟩ := exec_next.mp h
  · exact .inl rfl
  · exact .inr (.inl rfl)
  · exact absurd rfl hne
  · exact .inr (.inr ⟨hf, hx⟩)

/-- Settles O41: an operation that raises a fault has changed FSM, the store and the outcomes at most. -/
theorem faultsChangeOnlyTheTable : Obligations.FaultsChangeOnlyTheTable := by
  intro i s t h hne
  obtain rfl | rfl | ⟨-, e, info, u, hop, rfl⟩ := exec_fault_cases h hne
  · exact ⟨rfl, List.suffix_refl _, fun hn => absurd rfl hn, fun hn => absurd rfl hn⟩
  · exact ⟨rfl, List.suffix_refl _, fun hn => absurd rfl hn, fun hn => absurd rfl hn⟩
  obtain ⟨hu, hfates⟩ := (operation_state i s.started).2 _ u hop
  obtain ⟨hfsm, hstore⟩ := (operation_store i s.started).2 _ u hop
  refine ⟨by rw [hu]; rfl, hfates, fun hn => ?_, fun hn => ?_⟩
  · cases ho : opens i with
    | true =>
      obtain ⟨rfl, -, rfl⟩ := operation_error_of_opens ho hop
      exact ⟨rfl, rfl, rfl⟩
    | false => exact absurd (hfsm ho) hn
  · by_cases hfl : i = .flush
    · subst hfl
      obtain ⟨-, -, ⟨w, he, -⟩ | ⟨f, he⟩⟩ := (flushOp_state _).2 _ u hop
      · cases he
        exact ⟨.inl rfl, rfl⟩
      · cases he
    by_cases hd : i = .dispose
    · subst hd
      exact ⟨.inr rfl, disposeOp_error_ioError hop⟩
    exact absurd (hstore hfl hd) hn

/-- `IoError` comes from the four commands that access the store, with a value the store has (R141). -/
theorem operation_ioError {i : Instr} {s t : State} {w : DWord}
    (h : operation i s = .error (.raised .ioError w) t) :
    (i = .read ∨ i = .write ∨ i = .flush ∨ i = .dispose)
      ∧ (Fate.fails w ∈ s.fates ∨ ((i = .flush ∨ i = .dispose) ∧ w = s.fullError)) := by
  obtain ⟨-, he, -⟩ | ⟨-, he, -⟩ | ⟨-, he⟩ | ⟨-, he, -⟩ | ⟨-, he⟩ | ⟨hi, w', he, hw⟩ | ⟨-, f, he⟩ := operation_error h
  case inr.inr.inr.inr.inr.inl =>
    cases he
    exact ⟨hi, hw⟩
  all_goals cases he

/-- Every fault but `IoError` records 0 (R136). -/
theorem operation_fault_value {i : Instr} {s t : State} {e : ErrCode} {info : DWord}
    (h : operation i s = .error (.raised e info) t) : e = .ioError ∨ info = 0#64 := by
  obtain ⟨-, he, -⟩ | ⟨-, he, -⟩ | ⟨-, he⟩ | ⟨-, he, -⟩ | ⟨-, he⟩ | ⟨-, w, he, -⟩ | ⟨-, f, he⟩ := operation_error h
  case inl | inr.inr.inl | inr.inr.inr.inl | inr.inr.inr.inr.inl =>
    cases he
    exact .inr rfl
  case inr.inr.inr.inr.inr.inl =>
    cases he
    exact .inl rfl
  all_goals cases he

/-- `ConfigurationError` comes from `OPEN` alone (R137). -/
theorem operation_configurationError {i : Instr} {s t : State} {info : DWord}
    (h : operation i s = .error (.raised .configurationError info) t) : opens i = true := by
  obtain ⟨ho, -⟩ | ⟨-, he, -⟩ | ⟨-, he⟩ | ⟨-, he, -⟩ | ⟨-, he⟩ | ⟨-, w, he, -⟩ | ⟨-, f, he⟩ := operation_error h
  case inl => exact ho
  all_goals cases he

/-- `ArgumentError` comes from the range checks of positions (R143). -/
theorem operation_argumentError {i : Instr} {s t : State} {info : DWord}
    (h : operation i s = .error (.raised .argumentError info) t) : positions i = true ∨ i = .write := by
  obtain ⟨-, he, -⟩ | ⟨-, he, -⟩ | ⟨hi, -⟩ | ⟨-, he, -⟩ | ⟨-, he⟩ | ⟨-, w, he, -⟩ | ⟨-, f, he⟩ := operation_error h
  case inr.inr.inl => exact hi
  all_goals cases he

/-- Settles O42: of the ways an operation ends early one raises `IoError`, with the store's value. -/
theorem ioErrorCarriesTheStoreValue : Obligations.IoErrorCarriesTheStoreValue := by
  refine fun i s t h => ⟨fun hio => ?_, fun hne hio => ?_⟩
  · obtain rfl | rfl | ⟨-, e, info, u, hop, rfl⟩ := exec_fault_cases h (by rw [hio]; decide)
    · cases hio
    · cases hio
    · obtain rfl : e = .ioError := hio
      exact operation_ioError (s := s.started) hop
  · obtain rfl | rfl | ⟨-, e, info, u, hop, rfl⟩ := exec_fault_cases h hne
    · rfl
    · rfl
    · exact (operation_fault_value hop).resolve_left hio

/-- Settles O43: each of the two faults is raised by one kind of operation, which its session state accepted. -/
theorem argumentAndConfigurationErrors : Obligations.ArgumentAndConfigurationErrors := by
  refine fun i s t h => ⟨fun hc => ?_, fun hc => ?_⟩
  · obtain rfl | rfl | ⟨hf, e, info, u, hop, rfl⟩ := exec_fault_cases h (by rw [hc]; decide)
    · cases hc
    · cases hc
    · obtain rfl : e = .configurationError := hc
      have ho := operation_configurationError hop
      exact ⟨ho, hf.trans (acceptingState_of_opens ho)⟩
  · obtain rfl | rfl | ⟨hf, e, info, u, hop, rfl⟩ := exec_fault_cases h (by rw [hc]; decide)
    · cases hc
    · cases hc
    · obtain rfl : e = .argumentError := hc
      have hi := operation_argumentError hop
      cases i
      case seekSet | seekCur | seekEnd | setpos | write => exact ⟨hf, by simp⟩
      all_goals simp [positions] at hi

/-! ### A failing store access -/

theorem exec_of_failsFirst {i : Instr} {s : State} {e : DWord} {rest : List Fate} (hm : malformed i s = false)
    (hf : s.fsm = acceptingState i) (h : FailsFirst (operation i) s.started) (hfates : s.fates = .fails e :: rest) :
    exec i s = .next { s with fates := rest, lastErr := .ioError, result := e, din := [], dout := [] } := by
  rw [exec_accepted hm hf, h e rest hfates]
  rfl

/-- A `FLUSH` that cannot succeed ends with `IoError` in a consistent session. -/
theorem exec_flush_ioError {s : State} (hi : Inv s) (hf : s.fsm = .ready)
    (h : ∀ v t, flushOp s.started ≠ .ok v t) : ∃ t, exec .flush s = .next t ∧ t.lastErr = .ioError := by
  rw [exec_flush_eq hf]
  cases hop : flushOp s.started with
  | ok v t => exact absurd hop (h v t)
  | error e u =>
    obtain ⟨-, n, fr, w, -, -, -, rfl, -⟩ :=
      flushOp_error_inv hi.started.storeWf (hi.started.session hf) hop
    exact ⟨_, rfl, rfl⟩

/-- Settles O44: each of the operations passes the failure of its first access on; a `FLUSH` that succeeds met no
failure and left a length LEN can hold. -/
theorem failingAccessEndsTheCommand : Obligations.FailingAccessEndsTheCommand := by
  refine ⟨fun s e rest hf hfates => ?_, fun s hi hf hc hx => ?_⟩
  · intro count first touched last failed
    refine ⟨fun hm h0 hl hb => ?_, fun hm h0 hl hb => ?_, fun hi hc => ?_⟩
    · exact exec_of_failsFirst (i := .read) hm hf (failsFirst_readOp (s := s.started) h0 hl hb) hfates
    · obtain ⟨b, h1, h2, h3, h4⟩ := hb
      have hseed : b ∈ seedSet s.started (blk s.started.pos) (blk (s.started.pos + argCount s.started - 1)) :=
        (mem_seedSet _ _ _ b).mpr ⟨h1, by rw [seedLast_eq]; exact h2, h3⟩
      exact exec_of_failsFirst (i := .write) hm hf (failsFirst_writeOp (s := s.started) h0 hl ⟨b, hseed, h4⟩) hfates
    · have hflush : FailsFirst flushOp s.started := failsFirst_flushOp (hi.started.session hf) hc
      exact ⟨exec_of_failsFirst (i := .flush) rfl hf hflush hfates,
        exec_of_failsFirst (i := .dispose) rfl hf (failsFirst_disposeOp hflush) hfates⟩
  · refine exec_flush_ioError hi hf fun v t hop => ?_
    obtain ⟨e, he⟩ | ⟨hlen, hroom⟩ := hx
    · rw [← commitSet_started] at he
      exact flushOp_consumed (s := s.started) hc hop e he
    · exact Nat.not_lt.mpr hroom (flushOp_room (s := s.started) hi.storeWf (hi.started.session hf) hc hlen hop)

end Sys2Proof.Machine
end

section
/-! The register window (30_encoding.md R176; 20_memory.md R44): STATUS, reads byte by byte, the ports, and the
caller's actions on the store. -/

namespace Sys2Proof.Machine

/-! ### STATUS -/

/-- The parts of a word of STATUS's layout (10_state.md R21). -/
theorem statusLayout_parts (e : BitVec 8) (d l : Bool) (m f : BitVec 2) :
    (0#16 ++ e ++ 0#2 ++ BitVec.ofBool d ++ BitVec.ofBool l ++ m ++ f).extractLsb' 0 2 = f
    ∧ (0#16 ++ e ++ 0#2 ++ BitVec.ofBool d ++ BitVec.ofBool l ++ m ++ f).extractLsb' 2 2 = m
    ∧ (0#16 ++ e ++ 0#2 ++ BitVec.ofBool d ++ BitVec.ofBool l ++ m ++ f).getLsbD 4 = l
    ∧ (0#16 ++ e ++ 0#2 ++ BitVec.ofBool d ++ BitVec.ofBool l ++ m ++ f).getLsbD 5 = d
    ∧ (0#16 ++ e ++ 0#2 ++ BitVec.ofBool d ++ BitVec.ofBool l ++ m ++ f).extractLsb' 6 2 = 0#2
    ∧ (0#16 ++ e ++ 0#2 ++ BitVec.ofBool d ++ BitVec.ofBool l ++ m ++ f).extractLsb' 8 8 = e
    ∧ (0#16 ++ e ++ 0#2 ++ BitVec.ofBool d ++ BitVec.ofBool l ++ m ++ f).extractLsb' 16 16 = 0#16 := by
  refine ⟨?_, ?_, ?_, ?_, ?_, ?_, ?_⟩
  case refine_3 | refine_4 => simp only [BitVec.getLsbD_append]; simp
  all_goals
    refine BitVec.eq_of_getLsbD_eq fun k hk => ?_
    simp only [BitVec.getLsbD_extractLsb', BitVec.getLsbD_append]
    interval_cases k <;> simp

theorem statusMode_eq (s : State) :
    statusMode s = if s.fsm = .uninitialized ∨ s.fsm = .rejected then 0#2 else s.mode.code := by
  unfold statusMode sessionLatched
  cases s.fsm <;> rfl

theorem statusLo_eq (s : State) :
    statusLo s = if s.fsm = .uninitialized ∨ s.fsm = .rejected then false else s.lo := by
  unfold statusLo sessionLatched
  cases s.fsm <;> rfl

theorem dirty_eq (s : State) : dirty s = decide (s.cache.dom ≠ []) := by
  unfold dirty
  cases s.cache <;> rfl

/-- Settles O45: the word is cut into the parts it is put together from. -/
theorem statusShowsItsFields : Obligations.StatusShowsItsFields := by
  intro s
  obtain ⟨hfsm, hmode, hlo, hdirty, h6, herr, h16⟩ :=
    statusLayout_parts s.lastErr.code (dirty s) (statusLo s) (statusMode s) s.fsm.code
  refine ⟨hfsm.trans ?_, hmode.trans ((statusMode_eq s).trans ?_), hlo.trans (statusLo_eq s),
    hdirty.trans (dirty_eq s), h6, herr.trans ?_, h16⟩
  · cases s.fsm <;> rfl
  · cases s.mode <;> rfl
  · cases s.lastErr <;> rfl

/-! ### Reads -/

/-- The byte at a window offset, register by register (R176). -/
theorem windowByte_eq (s : State) (j : Nat) : windowByte s j =
    if 0x04 ≤ j ∧ j < 0x08 then (statusWord s).extractLsb' (8 * (j - 0x04)) 8
    else if 0x08 ≤ j ∧ j < 0x10 then s.arg.extractLsb' (8 * (j - 0x08)) 8
    else if 0x10 ≤ j ∧ j < 0x18 then s.result.extractLsb' (8 * (j - 0x10)) 8
    else if 0x18 ≤ j ∧ j < 0x1C then s.keylen.extractLsb' (8 * (j - 0x18)) 8
    else if 0x1C ≤ j ∧ j < 0x20 then s.secsz.extractLsb' (8 * (j - 0x1C)) 8
    else if 0x20 ≤ j ∧ j < 0x30 then byteAt s.param (j - 0x20)
    else if j = 0x84 then s.dout.headD 0#8
    else 0#8 := by
  unfold windowByte
  split
  next h =>
    repeat rw [if_neg (by omega)]
  next h =>
    refine ite_congr (propext (by omega)) (fun _ => rfl) fun _ => ?_
    refine ite_congr (propext (by omega)) (fun _ => rfl) fun _ => ?_
    refine ite_congr (propext (by omega)) (fun _ => rfl) fun _ => ?_
    refine ite_congr (propext (by omega)) (fun _ => rfl) fun _ => ?_
    refine ite_congr (propext (by omega)) (fun _ => rfl) fun _ => ?_
    exact ite_congr (propext (by omega)) (fun _ => rfl) fun _ => rfl

theorem step_of_read {s : State} {o : BitVec 8} {n : Nat} {rest : List HostAction}
    (hi : s.inbox = .read o n :: rest) : step s = .next (windowRead o.toNat n (s.taken rest)) :=
  step_of_noCommand hi rfl

/-- Settles O48: the reads of whole registers are evaluated; any read is `windowByte` at each of its offsets. -/
theorem windowReadsReturnTheRegisters : Obligations.WindowReadsReturnTheRegisters := by
  refine fun s rest => ⟨?_, ?_, ?_, ?_, ?_, ?_, ?_, ?_, fun o n hi => ?_⟩
  case refine_9 =>
    refine ⟨(List.range n).map fun k => windowByte s (o.toNat + k), (step_of_read hi).trans ?_, by simp,
      fun k hk => ?_⟩
    · simp only [windowRead, coversDout, decide_eq_true_eq]
      rfl
    · intro j
      rw [List.getElem?_map, List.getElem?_range hk, Option.map_some, windowByte_eq]
  all_goals exact fun hi => step_of_read hi

theorem windowRead_dout_port (s : State) :
    windowRead 0x84 1 s = { s with rdata := [s.dout.headD 0#8], dout := s.dout.tail } := rfl

/-- Settles O49: the one byte read is the first of DOUT. -/
theorem doutPortPops : Obligations.DoutPortPops := by
  intro s rest hi
  have hstep : step s = .next { s with inbox := rest, rdata := [s.dout.headD 0#8], dout := s.dout.tail } :=
    (step_of_read hi).trans (congrArg _ (windowRead_dout_port _))
  refine ⟨fun b more hd => ?_, fun hd => ?_⟩
  all_goals
    rw [hstep, hd]
    rfl

/-! ### The caller's actions on the store -/

/-- The cells of a byte string read as its bytes (10_state.md R33). -/
theorem cellsRead_cellsOfBytes (lo : Nat) (bytes : List Byte) (i : Nat) :
    cellsRead (cellsOfBytes lo bytes) (lo + i) = bytes.getD i unlistedByte := by
  induction bytes generalizing lo i with
  | nil => rfl
  | cons b rest ih =>
    have hwf := cellsWf_cellsOfBytes (lo + 1) rest (lo + 1 + rest.length) (Nat.le_refl _)
    cases i with
    | zero =>
      rw [cellsOfBytes, List.getD_cons_zero]
      split
      next hb => rw [hb, cellsRead_of_below _ _ _ hwf (by omega)]
      next => simp only [cellsRead, Nat.add_zero, if_true]
    | succ i =>
      have hne : lo + (i + 1) ≠ lo := by omega
      rw [cellsOfBytes, List.getD_cons_succ, ← ih (lo + 1) i, Nat.add_right_comm lo 1 i]
      split
      next => rfl
      next => rw [cellsRead, if_neg hne]; rfl

theorem byte_ofBytes (bytes : List Byte) (a : Nat) : (Memory.ofBytes bytes).byte a = bytes[a]? := by
  have hread := cellsRead_cellsOfBytes 0 bytes a
  rw [Nat.zero_add] at hread
  change (if a < bytes.length then some (cellsRead (cellsOfBytes 0 bytes) a) else none) = bytes[a]?
  rw [hread, List.getD_eq_getElem?_getD]
  split
  next h => rw [List.getElem?_eq_getElem h]; rfl
  next h => rw [List.getElem?_eq_none (by omega)]

/-- Settles O50: the three actions as they are defined; a presented store holds the bytes given. -/
theorem storeIsNotChangedBehindASession : Obligations.StoreIsNotChangedBehindASession := by
  refine fun s rest bytes => ⟨fun hi => step_of_noCommand hi rfl, fun hi => ?_, fun hi => step_of_noCommand hi rfl⟩
  have hstep : step s = outsideSession (presentStore bytes) (s.taken rest) := step_of_noCommand hi rfl
  rw [hstep, outsideSession, presentStore]
  refine ⟨fun hf => if_pos hf, fun hf hl => ?_, fun hf hl => ?_⟩
  · rw [if_neg (show ¬ (s.taken rest).fsm = .ready from hf), if_pos (show posLimit (s.taken rest) ≤ _ from hl)]
  · rw [if_neg (show ¬ (s.taken rest).fsm = .ready from hf),
      if_neg (show ¬ posLimit (s.taken rest) ≤ _ from Nat.not_le.mpr hl)]
    exact ⟨Memory.ofBytes bytes, rfl, Memory.wf_ofBytes bytes, rfl, byte_ofBytes bytes⟩

end Sys2Proof.Machine
end

section
/-! Writes over the register window (30_encoding.md R176; 20_memory.md R44), register by register, and the lines
of a command script (30_encoding.md R188). -/

namespace Sys2Proof.Machine

/-! ### Byte lanes -/

theorem getLsbD_setLane {w : Nat} (v : BitVec w) (k : Nat) (b : Byte) {i : Nat} (hi : i < w) :
    (setLane v k b).getLsbD i = if 8 * k ≤ i ∧ i < 8 * k + 8 then b.getLsbD (i - 8 * k) else v.getLsbD i := by
  have hones : (0xFF#w).getLsbD (i - 8 * k) = decide (i - 8 * k < 8) := by
    rw [BitVec.getLsbD_ofNat, show 0xFF = 2 ^ 8 - 1 from rfl, Nat.testBit_two_pow_sub_one,
      decide_eq_true (show i - 8 * k < w by omega), Bool.true_and]
  simp only [setLane, BitVec.getLsbD_or, BitVec.getLsbD_and, BitVec.getLsbD_not, BitVec.getLsbD_shiftLeft,
    BitVec.getLsbD_setWidth, hones, hi]
  by_cases h1 : 8 * k ≤ i
  · by_cases h2 : i < 8 * k + 8
    · simp [h1, h2, show ¬ i < 8 * k by omega, show i - 8 * k < 8 by omega, show i - 8 * k < w by omega]
    · simp [h2, show ¬ i - 8 * k < 8 by omega, BitVec.getLsbD_of_ge b (i - 8 * k) (by omega)]
  · simp [h1, show i < 8 * k by omega]

theorem lane_setLane {w : Nat} (v : BitVec w) {k : Nat} (b : Byte) (hk : 8 * k + 8 ≤ w) (j : Nat) :
    lane (setLane v k b) j = if j = k then b else lane v j := by
  refine BitVec.eq_of_getLsbD_eq fun i hi => ?_
  by_cases hw : 8 * j + i < w
  · rw [lane, BitVec.getLsbD_extractLsb', getLsbD_setLane v k b hw]
    by_cases hj : j = k
    · subst hj
      simp [hi]
    · have hout : ¬ (8 * k ≤ 8 * j + i ∧ 8 * j + i < 8 * k + 8) := by omega
      rw [if_neg hout, if_neg hj, lane, BitVec.getLsbD_extractLsb']
  · have hj : j ≠ k := by omega
    rw [if_neg hj, lane, lane, BitVec.getLsbD_extractLsb', BitVec.getLsbD_extractLsb',
      BitVec.getLsbD_of_ge _ _ (by omega), BitVec.getLsbD_of_ge _ _ (by omega)]

/-- Two registers of whole bytes with the same lanes are equal. -/
theorem lane_ext {n : Nat} {v w : BitVec (8 * n)} (h : ∀ k < n, lane v k = lane w k) : v = w := by
  refine BitVec.eq_of_getLsbD_eq fun i hi => ?_
  have hb := congrArg (fun b : Byte => b.getLsbD (i % 8)) (h (i / 8) (by omega))
  simpa [lane, BitVec.getLsbD_extractLsb', Nat.mod_lt, Nat.div_add_mod] using hb

/-- Setting byte `0`, byte `1`, .. of a value of `n` bytes to those of another copies as many bytes. -/
theorem get_foldl_set {α : Type} {get : α → Nat → Byte} {set : α → Nat → Byte → α} {n : Nat}
    (hset : ∀ v b k j, k < n → j < n → get (set v k b) j = if j = k then b else get v j)
    (w v : α) {m j : Nat} (hm : m ≤ n) (hj : j < n) :
    get ((List.range m).foldl (fun v k => set v k (get w k)) v) j = if j < m then get w j else get v j := by
  induction m with
  | zero => rfl
  | succ m ih =>
    rw [List.range_succ, List.foldl_append, List.foldl_cons, List.foldl_nil, hset _ _ _ _ hm hj, ih (by omega)]
    rcases Nat.lt_trichotomy j m with h | rfl | h
    · rw [if_neg (by omega), if_pos h, if_pos (by omega)]
    · rw [if_pos rfl, if_pos (by omega)]
    · rw [if_neg (by omega), if_neg (by omega), if_neg (by omega)]

theorem foldl_setLane_lane {n : Nat} (w v : BitVec (8 * n)) :
    (List.range n).foldl (fun v k => setLane v k (lane w k)) v = w := by
  refine lane_ext fun k hk => ?_
  have hset : ∀ (v : BitVec (8 * n)) b i j, i < n → j < n →
      lane (setLane v i b) j = if j = i then b else lane v j := fun v b i j hi _ => lane_setLane v b (by omega) j
  rw [get_foldl_set hset w v (Nat.le_refl n) hk, if_pos hk]

theorem foldl_setByte_byteAt (B A : Block) :
    (List.range 16).foldl (fun A k => setByte A k (byteAt B k)) A = B := by
  refine block_ext fun k hk => ?_
  have hset : ∀ (A : Block) b i j, i < 16 → j < 16 →
      byteAt (setByte A i b) j = if j = i then b else byteAt A j := fun A b i j _ hj => byteAt_setByte A i b hj
  rw [get_foldl_set hset B A (Nat.le_refl 16) hk, if_pos hk]

/-! ### One byte written: each register -/

theorem setWindowByte_arg (o : Nat) (b : Byte) (s : State) : (setWindowByte o b s).arg
    = if 0x08 ≤ o ∧ o < 0x10 then setLane s.arg (o - 0x08) b else s.arg := by
  unfold setWindowByte pushDin
  split_ifs <;> rfl

theorem setWindowByte_keylen (o : Nat) (b : Byte) (s : State) : (setWindowByte o b s).keylen
    = if 0x18 ≤ o ∧ o < 0x1C then setLane s.keylen (o - 0x18) b else s.keylen := by
  unfold setWindowByte pushDin
  split_ifs <;> first | omega | rfl

theorem setWindowByte_secsz (o : Nat) (b : Byte) (s : State) : (setWindowByte o b s).secsz
    = if 0x1C ≤ o ∧ o < 0x20 then setLane s.secsz (o - 0x1C) b else s.secsz := by
  unfold setWindowByte pushDin
  split_ifs <;> first | omega | rfl

theorem setWindowByte_param (o : Nat) (b : Byte) (s : State) : (setWindowByte o b s).param
    = if 0x20 ≤ o ∧ o < 0x30 then setByte s.param (o - 0x20) b else s.param := by
  unfold setWindowByte pushDin
  split_ifs <;> first | omega | rfl

theorem setWindowByte_key (o : Nat) (b : Byte) (s : State) : (setWindowByte o b s).key
    = if 0x40 ≤ o ∧ o < 0x80 then s.key.setIfInBounds (o - 0x40) b else s.key := by
  unfold setWindowByte pushDin
  split_ifs <;> first | omega | rfl

theorem setWindowByte_din (o : Nat) (b : Byte) (s : State) : (setWindowByte o b s).din
    = if o = 0x80 then (pushDin b s).din else s.din := by
  unfold setWindowByte
  split_ifs <;> first | omega | rfl

theorem windowByte_setWindowByte_of_ne {o j : Nat} (b : Byte) (s : State) (hj : j ≠ o) :
    windowByte (setWindowByte o b s) j = windowByte s j := by
  have hframe : statusWord (setWindowByte o b s) = statusWord s ∧ (setWindowByte o b s).result = s.result
      ∧ (setWindowByte o b s).dout = s.dout := by
    obtain ⟨kl, k, p, ss, a, d, h⟩ := setWindowByte_frame o b s
    rw [h]
    exact ⟨rfl, rfl, rfl⟩
  obtain ⟨hstatus, hresult, hdout⟩ := hframe
  unfold windowByte
  rw [hstatus, hresult, hdout, setWindowByte_arg, setWindowByte_keylen, setWindowByte_secsz, setWindowByte_param]
  refine ite_congr rfl (fun _ => rfl) fun h4 => ?_
  refine ite_congr rfl (fun _ => rfl) fun h8 => ?_
  refine ite_congr rfl (fun _ => ?_) fun h10 => ?_
  · split
    · rw [lane_setLane _ _ (by omega), if_neg (by omega)]
    · rfl
  refine ite_congr rfl (fun _ => rfl) fun h18 => ?_
  refine ite_congr rfl (fun _ => ?_) fun h1C => ?_
  · split
    · rw [lane_setLane _ _ (by omega), if_neg (by omega)]
    · rfl
  refine ite_congr rfl (fun _ => ?_) fun h20 => ?_
  · split
    · rw [lane_setLane _ _ (by omega), if_neg (by omega)]
    · rfl
  refine ite_congr rfl (fun _ => ?_) fun _ => rfl
  split
  · rw [byteAt_setByte _ _ _ (by omega), if_neg (by omega)]
  · rfl

/-! ### Bytes written: what stays -/

/-- A view of the state that no byte written elsewhere changes is not changed by a write that does not cover it. -/
theorem windowWrite_keeps {α : Type} {f : State → α} {j : Nat}
    (hf : ∀ o b s, j ≠ o → f (setWindowByte o b s) = f s) (bytes : List Byte) (o : Nat) (s : State)
    (hj : o + bytes.length ≤ j ∨ j < o) : f (windowWrite o bytes s) = f s := by
  induction bytes generalizing o s with
  | nil => rfl
  | cons b rest ih =>
    rw [List.length_cons] at hj
    rw [windowWrite, ih (o + 1) _ (by omega), hf o b s (by omega)]

theorem setWindowByte_keyByte_of_ne {k : Nat} (hk : k < 64) (o : Nat) (b : Byte) (s : State) (ho : 0x40 + k ≠ o) :
    (setWindowByte o b s).key[k] = s.key[k] := by
  simp only [setWindowByte_key]
  split
  · rw [Vector.getElem_setIfInBounds, if_neg (by omega)]
  · rfl

theorem setWindowByte_din_of_ne (o : Nat) (b : Byte) (s : State) (ho : 0x80 ≠ o) :
    (setWindowByte o b s).din = s.din := by
  rw [setWindowByte_din, if_neg (Ne.symm ho)]

theorem step_of_write {s : State} {o : BitVec 8} {bytes : List Byte} {rest : List HostAction}
    (hi : s.inbox = .write o bytes :: rest) (hc : commandBytes (.write o bytes) = none) :
    step s = .next (windowWrite o.toNat bytes (s.taken rest)) :=
  step_of_noCommand hi hc

/-- Settles O46: the write is done byte by byte, and no byte changes what lies at another offset. -/
theorem windowWritesTouchOnlyOperands : Obligations.WindowWritesTouchOnlyOperands := by
  intro s o bytes rest hi hc
  refine ⟨_, step_of_write hi hc, ?_, fun j hj _ => ?_, fun k hk hj => ?_, fun hj => ?_⟩
  · obtain ⟨kl, k, p, ss, a, d, h⟩ := windowWrite_frame o.toNat bytes (s.taken rest)
    rw [h]
    rfl
  · exact windowWrite_keeps (f := fun s => windowByte s j)
      (fun o b s h => windowByte_setWindowByte_of_ne b s h) bytes _ (s.taken rest) hj
  · exact windowWrite_keeps (f := fun s => s.key[k]) (setWindowByte_keyByte_of_ne hk) bytes _ (s.taken rest) hj
  · exact windowWrite_keeps (f := State.din) setWindowByte_din_of_ne bytes _ (s.taken rest) hj

/-! ### Whole registers written -/

theorem windowWrite_append (bytes more : List Byte) (o : Nat) (s : State) :
    windowWrite o (bytes ++ more) s = windowWrite (o + bytes.length) more (windowWrite o bytes s) := by
  induction bytes generalizing o s with
  | nil => rfl
  | cons b rest ih =>
    rw [List.cons_append, windowWrite, ih, windowWrite, List.length_cons, Nat.add_assoc, Nat.add_comm 1]

/-- Bytes written over a register, which `put` sets, are set in it one after the other. -/
theorem windowWrite_register {α : Type} {o n : Nat} {set : α → Nat → Byte → α} {put : α → State → State}
    (hset : ∀ k, k < n → ∀ b v s, setWindowByte (o + k) b (put v s) = put (set v k b) s)
    (f : Nat → Byte) (v : α) (s : State) {m : Nat} (hm : m ≤ n) :
    windowWrite o ((List.range m).map f) (put v s)
      = put ((List.range m).foldl (fun v k => set v k (f k)) v) s := by
  induction m with
  | zero => rfl
  | succ m ih =>
    rw [List.range_succ, List.map_append, windowWrite_append, ih (by omega), List.length_map, List.length_range,
      List.foldl_append]
    exact hset m hm _ _ _

theorem windowWrite_keylen (w : Word) (s : State) :
    windowWrite 0x18 (wordBytes w) s = { s with keylen := w } := by
  have hset : ∀ k, k < 4 → ∀ b (v : Word) (s : State),
      setWindowByte (0x18 + k) b { s with keylen := v } = { s with keylen := setLane v k b } := by
    intro k hk b v s
    rw [setWindowByte, if_neg (by omega), if_pos (by omega), Nat.add_sub_cancel_left]
  exact (windowWrite_register (put := fun v s => { s with keylen := v }) hset (lane w) s.keylen s
    (Nat.le_refl 4)).trans (congrArg (fun v => { s with keylen := v }) (foldl_setLane_lane (n := 4) w s.keylen))

theorem windowWrite_secsz (w : Word) (s : State) : windowWrite 0x1C (wordBytes w) s = { s with secsz := w } := by
  have hset : ∀ k, k < 4 → ∀ b (v : Word) (s : State),
      setWindowByte (0x1C + k) b { s with secsz := v } = { s with secsz := setLane v k b } := by
    intro k hk b v s
    rw [setWindowByte, if_neg (by omega), if_neg (by omega), if_pos (by omega), Nat.add_sub_cancel_left]
  exact (windowWrite_register (put := fun v s => { s with secsz := v }) hset (lane w) s.secsz s
    (Nat.le_refl 4)).trans (congrArg (fun v => { s with secsz := v }) (foldl_setLane_lane (n := 4) w s.secsz))

theorem windowWrite_arg (d : DWord) (s : State) :
    windowWrite 0x08 ((List.range 8).map (lane d)) s = { s with arg := d } := by
  have hset : ∀ k, k < 8 → ∀ b (v : DWord) (s : State),
      setWindowByte (0x08 + k) b { s with arg := v } = { s with arg := setLane v k b } := by
    intro k hk b v s
    rw [setWindowByte, if_pos (by omega), Nat.add_sub_cancel_left]
  exact (windowWrite_register (put := fun v s => { s with arg := v }) hset (lane d) s.arg s
    (Nat.le_refl 8)).trans (congrArg (fun v => { s with arg := v }) (foldl_setLane_lane (n := 8) d s.arg))

theorem windowWrite_param (B : Block) (s : State) : windowWrite 0x20 (blockBytes B) s = { s with param := B } := by
  have hset : ∀ k, k < 16 → ∀ b (v : Block) (s : State),
      setWindowByte (0x20 + k) b { s with param := v } = { s with param := setByte v k b } := by
    intro k hk b v s
    rw [setWindowByte, if_neg (by omega), if_neg (by omega), if_neg (by omega), if_pos (by omega),
      Nat.add_sub_cancel_left]
  exact (windowWrite_register (put := fun v s => { s with param := v }) hset (byteAt B) s.param s
    (Nat.le_refl 16)).trans (congrArg (fun v => { s with param := v }) (foldl_setByte_byteAt B s.param))

/-- Bytes written inside KEY replace its bytes from that index on (10_state.md R16). -/
theorem windowWrite_key (bytes : List Byte) (i : Nat) (s : State) (h : i + bytes.length ≤ 64) :
    windowWrite (0x40 + i) bytes s
      = { s with key := Vector.ofFn fun k =>
            if i ≤ k.val then bytes.getD (k.val - i) s.key[k.val] else s.key[k.val] } := by
  induction bytes generalizing i s with
  | nil =>
    have hkey : s.key = Vector.ofFn fun k =>
        if i ≤ k.val then ([] : List Byte).getD (k.val - i) s.key[k.val] else s.key[k.val] := by
      refine Vector.ext fun k hk => ?_
      simp
    rw [windowWrite, ← hkey]
  | cons b rest ih =>
    rw [List.length_cons] at h
    have hbyte : setWindowByte (0x40 + i) b s = { s with key := s.key.setIfInBounds i b } := by
      unfold setWindowByte
      rw [if_neg (by omega), if_neg (by omega), if_neg (by omega), if_neg (by omega), if_pos (by omega),
        Nat.add_sub_cancel_left]
    rw [windowWrite, hbyte, Nat.add_assoc, ih (i + 1) _ (by omega)]
    refine congrArg (fun v => { s with key := v }) ?_
    refine Vector.ext fun k hk => ?_
    simp only [Vector.getElem_ofFn, Vector.getElem_setIfInBounds]
    rcases Nat.lt_trichotomy k i with hlt | rfl | hgt
    · rw [if_neg (by omega), if_neg (by omega), if_neg (by omega)]
    · rw [if_neg (by omega), if_pos rfl, if_pos (Nat.le_refl k), Nat.sub_self, List.getD_cons_zero]
    · obtain ⟨m, rfl⟩ := Nat.exists_eq_add_of_lt hgt
      rw [if_pos (by omega), if_neg (by omega), if_pos (by omega), show i + m + 1 - i = m + 1 by omega,
        List.getD_cons_succ, show i + m + 1 - (i + 1) = m by omega]

/-- Bytes written from the start of KEY on (30_encoding.md R188, `key`). -/
theorem windowWrite_key_start (bytes : List Byte) (s : State) (h : bytes.length ≤ 64) :
    windowWrite 0x40 bytes s = { s with key := Vector.ofFn fun k => bytes.getD k.val s.key[k.val] } := by
  have hw := windowWrite_key bytes 0 s (by omega)
  simpa using hw

theorem windowWrite_whole_key (k : Vector Byte 64) (s : State) : windowWrite 0x40 k.toList s = { s with key := k } := by
  rw [windowWrite_key_start _ _ (by simp)]
  refine congrArg (fun v => { s with key := v }) ?_
  refine Vector.ext fun i hi => ?_
  simp

theorem windowWrite_din (b : Byte) {s : State} (hcap : s.bufCap = none) :
    windowWrite 0x80 [b] s = { s with din := s.din ++ [b] } := by
  have hport : setWindowByte 0x80 b s = pushDin b s := by
    rw [setWindowByte, if_neg (by omega), if_neg (by omega), if_neg (by omega), if_neg (by omega),
      if_neg (by omega), if_pos rfl]
  have hroom : ¬ exceeds (s.din.length + 1) s.bufCap = true := by
    rw [hcap]
    exact Bool.false_ne_true
  rw [windowWrite, windowWrite, hport, pushDin, if_neg hroom]

/-- Settles O47: a register takes the bytes of a whole write one by one, and its bytes are all it is. -/
theorem windowWritesSetTheRegisters : Obligations.WindowWritesSetTheRegisters := by
  refine fun s rest => ⟨fun w hi => ?_, fun w hi => ?_, fun d hi => ?_, fun B hi => ?_, fun k hi => ?_,
    fun b hi hcap => ?_⟩
  · exact (step_of_write hi rfl).trans (congrArg _ (windowWrite_keylen w _))
  · exact (step_of_write hi rfl).trans (congrArg _ (windowWrite_secsz w _))
  · exact (step_of_write hi rfl).trans (congrArg _ (windowWrite_arg d _))
  · exact (step_of_write hi rfl).trans (congrArg _ (windowWrite_param B _))
  · exact (step_of_write hi rfl).trans (congrArg _ (windowWrite_whole_key k _))
  · exact (step_of_write hi rfl).trans (congrArg _ (windowWrite_din b (s := s.taken rest) hcap))

/-! ### The lines of a command script -/

theorem run_succ_of_next {M : Host.Core} {x y : M.State} (h : M.step x = .next y) (k : Nat) :
    M.run (k + 1) x = M.run k y := by
  rw [Host.Core.run, h]

theorem run_add {M : Host.Core} {j : Nat} {x y : M.State} (h : M.run j x = .next y) (k : Nat) :
    M.run (j + k) x = M.run k y := by
  induction j generalizing x with
  | zero =>
    cases h
    rw [Nat.zero_add]
  | succ j ih =>
    cases hs : M.step x with
    | next z =>
      rw [run_succ_of_next hs] at h
      rw [Nat.add_right_comm, run_succ_of_next hs, ih h]
    | fault f | refused r =>
      rw [Host.Core.run, hs] at h
      cases h

theorem run_one {M : Host.Core} (x : M.State) : M.run 1 x = M.step x := by
  rw [Host.Core.run]
  cases M.step x <;> rfl

theorem run_one_of_write {s : State} {o : BitVec 8} {bytes : List Byte} {tail : List HostAction}
    (hi : s.inbox = .write o bytes :: tail) (hc : commandBytes (.write o bytes) = none) :
    Sys2Proof.core.run 1 s = .next (windowWrite o.toNat bytes (s.taken tail)) :=
  (run_one (M := Sys2Proof.core) s).trans (step_of_write hi hc)

/-- Bytes written to the DIN port one by one are appended to DIN (10_state.md R32). -/
theorem run_dinWrites (bytes : List Byte) {s : State} {tail : List HostAction}
    (hi : s.inbox = bytes.map (fun b => HostAction.write 0x80#8 [b]) ++ tail) (hcap : s.bufCap = none) :
    Sys2Proof.core.run bytes.length s = .next { s with inbox := tail, din := s.din ++ bytes } := by
  induction bytes generalizing s with
  | nil =>
    subst hi
    rw [List.append_nil]
    rfl
  | cons b more ih =>
    have hfirst := (run_one_of_write hi rfl).trans (congrArg _ (windowWrite_din b (s := s.taken _) hcap))
    have hmore := ih (s := { s with inbox := _, din := s.din ++ [b] }) rfl hcap
    rw [List.append_assoc] at hmore
    rw [List.length_cons, Nat.add_comm]
    exact (run_add hfirst more.length).trans hmore

/-- The write of a whole ARG sets it. -/
theorem run_argWrite (d : DWord) {s : State} {tail : List HostAction} (hi : s.inbox = writeArg d :: tail) :
    Sys2Proof.core.run 1 s = .next { s with inbox := tail, arg := d } :=
  (run_one_of_write hi rfl).trans (congrArg _ (windowWrite_arg d _))

/-- The operand writes of a line set the operands the line names (R188). -/
theorem run_operandWrites (line : ScriptLine) {s : State} {tail : List HostAction}
    (hi : s.inbox = line.operandWrites ++ tail) (hcap : s.bufCap = none)
    (hkey : ∀ bytes, line = .key bytes → bytes.length ≤ 64) :
    Sys2Proof.core.run line.operandWrites.length s = .next (line.operands { s with inbox := tail }) := by
  cases line with
  | keylen n => exact (run_one_of_write hi rfl).trans (congrArg _ (windowWrite_keylen _ _))
  | key bytes => exact (run_one_of_write hi rfl).trans (congrArg _ (windowWrite_key_start bytes _ (hkey bytes rfl)))
  | param value => exact (run_one_of_write hi rfl).trans (congrArg _ (windowWrite_param _ _))
  | secsz n => exact (run_one_of_write hi rfl).trans (congrArg _ (windowWrite_secsz _ _))
  | seekSet n | seekCur n | seekEnd n | setpos n | read n => exact run_argWrite _ hi
  | write bytes =>
    rw [ScriptLine.operandWrites, List.append_assoc] at hi
    rw [ScriptLine.operandWrites, List.length_append, List.length_map]
    exact (run_add (run_dinWrites bytes hi hcap) 1).trans (run_argWrite _ rfl)
  | openSession _ _ | getpos | getlen | flush | dispose =>
    subst hi
    rfl

theorem operands_taken (line : ScriptLine) (s : State) (tail rest : List HostAction) :
    (line.operands { s with inbox := tail }).taken rest = line.operands { s with inbox := rest } := by
  cases line <;> rfl

theorem operands_inbox (line : ScriptLine) (s : State) : (line.operands s).inbox = s.inbox := by
  cases line <;> simp only [ScriptLine.operands]

/-- Settles O51: the operand writes are run first; the command word after them decodes to the line's command. -/
theorem scriptLinesRunTheirCommands : Obligations.ScriptLinesRunTheirCommands := by
  intro line s rest hi hcap hkey
  rw [ScriptLine.actions, List.append_assoc] at hi
  rw [ScriptLine.actions, List.length_append]
  refine (run_add (run_operandWrites line hi hcap hkey) _).trans ?_
  cases line.command with
  | none => rfl
  | some i =>
    have hinbox := operands_inbox line { s with inbox := .write 0x00#8 (encode i) :: rest }
    exact (run_one (M := Sys2Proof.core) _).trans ((step_of_decodeWord_ok hinbox (decodeWord_encodeWord i)).trans
      (congrArg (exec i) (operands_taken line s _ rest)))

end Sys2Proof.Machine
end
